-- ==== Sys2Proof/Word.lean ====
section
/-! DEFINITION. The word types of AU-FB: stored and returned words, samples, command words. -/

namespace Sys2Proof

/-- A stored register or a response datum: `ACC_W` = `RSP_DATA_W` = 32 bits (R5). -/
abbrev Word := BitVec 32

/-- An input sample: `SAMPLE_W` = 16 bits, signed two's complement (R5, R6). -/
abbrev Sample := BitVec 16

/-- A command word: `CMD_W` = 36 bits, opcode in 35:32, argument in 31:0 (R5, R42). -/
abbrev CmdWord := BitVec 36

end Sys2Proof
end

