-- ==== Sys2Proof/Syntax.lean ====
section
/-! DEFINITION. The nine commands of AU-FB, one constructor per row of spec/opcode_table.json, and the names their operands stand for. -/

namespace Sys2Proof

/-- `REP`: the numeric representation of a channel (R16, R48). -/
inductive Rep
  | i16
  | q8_8
  | q16_16
  | f32
  deriving DecidableEq, Repr

/-- `VARIANT`: the numeric variant of the biquad (R19, R51). -/
inductive Variant
  | i16Shift
  | q8Mul
  deriving DecidableEq, Repr

/-- Numeric class: `INT` for the three integer representations, `FLOAT` for `F32` (00_scope.md glossary). -/
inductive NumClass
  | int
  | float
  deriving DecidableEq, Repr

/-- A low-pass tap: stage `stage + 1` of channel `ch`; its filter id is `3 * ch + stage` (R21, R31). -/
structure Tap where
  ch : Fin 6
  stage : Fin 3
  deriving DecidableEq, Repr

/-- What a 5-bit filter id names (the table of R31). -/
inductive FilterId
  | lp (t : Tap)
  | hp (h : Fin 4)
  | bp (b : Fin 2)
  | br (b : Fin 2)
  | bqLow
  | bqBand
  | bqHigh
  | reserved
  deriving DecidableEq, Repr

/-- The command set (R43). Operands stand in the assembler's order (R55), each at its field's own width (R52). -/
inductive Instr
  /-- `STEP x` (R44, R111). -/
  | step (sample : Sample)
  /-- `RESET` (R45, R112). -/
  | reset
  /-- `SELECT mask` (R46, R113). -/
  | select (mask : BitVec 29)
  /-- `GETVAL id` (R47, R114). -/
  | getval (id : BitVec 5)
  /-- `GETSEL` (R45, R115). -/
  | getsel
  /-- `CFGCH c, en, rep, order, k` (R48, R117). -/
  | cfgch (c : BitVec 3) (en : Bool) (rep : Rep) (order : BitVec 2) (k : BitVec 4)
  /-- `CFGHP h, en, src` (R49, R118). -/
  | cfghp (h : BitVec 2) (en : Bool) (src : BitVec 5)
  /-- `CFGBP b, en, br_en, fast, slow` (R50, R119). -/
  | cfgbp (b : BitVec 1) (en : Bool) (brEn : Bool) (fast : BitVec 5) (slow : BitVec 5)
  /-- `CFGBQ en, variant, alpha, damp` (R51, R120). -/
  | cfgbq (en : Bool) (variant : Variant) (alpha : BitVec 12) (damp : BitVec 12)
  deriving DecidableEq, Repr

end Sys2Proof
end

