-- ==== Sys2Proof/WellFormed.lean ====
section
/-! DEFINITION. Which terms of `Instr` are commands: every field has its own width, so the one check left is the channel index (R53 c). -/

namespace Sys2Proof

/-- A command is well formed when its fields name something: `CFGCH` has `CH` 0..5 (R48, R53 c).
Every value of every other field is legal in a command (R47, R49, R53). -/
def Instr.wellFormed : Instr → Bool
  | .step _ => true
  | .reset => true
  | .select _ => true
  | .getval _ => true
  | .getsel => true
  | .cfgch c _ _ _ _ => decide (c.toNat < 6)
  | .cfghp _ _ _ => true
  | .cfgbp _ _ _ _ _ => true
  | .cfgbq _ _ _ _ => true

end Sys2Proof
end

