-- ==== Sys2Proof/Decode.lean ====
section
/-! DEFINITION. The decoder, total on all 2^36 command words and refusing by name (R42 to R53), and after it the encoder written from the same tables; the assembler's forms (R55). -/

namespace Sys2Proof

/-- Why a command word is illegal: the three cases of R53. -/
inductive Illegal
  /-- R53 (a): `op` is 0x0, 0x6, 0x7 or 0xC to 0xF. -/
  | opcode
  /-- R53 (b): a reserved bit of the word's format is 1. -/
  | reservedBit
  /-- R53 (c): `CFGCH` with `CH` 6 or 7. -/
  | channel
  deriving DecidableEq, Repr

/-- `cmd_word[35:32]`, the opcode (R42). -/
def opOf (w : CmdWord) : BitVec 4 := w.extractLsb' 32 4

/-- `cmd_word[31:0]`, the argument (R42). -/
def argOf (w : CmdWord) : BitVec 32 := w.extractLsb' 0 32

/-- The `REP` field's four values (R16, R48). -/
def Rep.ofBits (b : BitVec 2) : Rep :=
  if b = 0#2 then .i16 else if b = 1#2 then .q8_8 else if b = 2#2 then .q16_16 else .f32

/-- The `REP` field that stands for a representation (R16, R48). -/
def Rep.toBits : Rep → BitVec 2
  | .i16 => 0#2
  | .q8_8 => 1#2
  | .q16_16 => 2#2
  | .f32 => 3#2

/-- The `VARIANT` bit (R19, R51). -/
def Variant.ofBit (b : Bool) : Variant := if b then .q8Mul else .i16Shift

/-- The `VARIANT` bit that stands for a variant (R19, R51). -/
def Variant.toBit : Variant → Bool
  | .i16Shift => false
  | .q8Mul => true

/-- Accept `i` when the reserved bits `rest` of the format are all 0 (R42, R53 b). -/
def ifReservedZero {n : Nat} (rest : BitVec n) (i : Instr) : Except Illegal Instr :=
  if rest = 0 then .ok i else .error .reservedBit

/-- Format S (R44). -/
def decodeStep (a : BitVec 32) : Except Illegal Instr :=
  ifReservedZero (a.extractLsb' 16 16) (.step (a.extractLsb' 0 16))

/-- Format N (R45), for `RESET`. -/
def decodeReset (a : BitVec 32) : Except Illegal Instr := ifReservedZero a .reset

/-- Format M (R46). -/
def decodeSelect (a : BitVec 32) : Except Illegal Instr :=
  ifReservedZero (a.extractLsb' 29 3) (.select (a.extractLsb' 0 29))

/-- Format I (R47). -/
def decodeGetval (a : BitVec 32) : Except Illegal Instr :=
  ifReservedZero (a.extractLsb' 5 27) (.getval (a.extractLsb' 0 5))

/-- Format N (R45), for `GETSEL`. -/
def decodeGetsel (a : BitVec 32) : Except Illegal Instr := ifReservedZero a .getsel

/-- Format CC (R48); channels 6 and 7 are illegal (R53 c). -/
def decodeCfgch (a : BitVec 32) : Except Illegal Instr :=
  if a.extractLsb' 12 20 = 0 then
    if (a.extractLsb' 0 3).toNat < 6 then
      .ok (.cfgch (a.extractLsb' 0 3) (a.getLsbD 3) (Rep.ofBits (a.extractLsb' 4 2))
        (a.extractLsb' 6 2) (a.extractLsb' 8 4))
    else .error .channel
  else .error .reservedBit

/-- Format CH (R49). -/
def decodeCfghp (a : BitVec 32) : Except Illegal Instr :=
  ifReservedZero (a.extractLsb' 8 24) (.cfghp (a.extractLsb' 0 2) (a.getLsbD 2) (a.extractLsb' 3 5))

/-- Format CB (R50). -/
def decodeCfgbp (a : BitVec 32) : Except Illegal Instr :=
  ifReservedZero (a.extractLsb' 13 19)
    (.cfgbp (a.extractLsb' 0 1) (a.getLsbD 1) (a.getLsbD 2) (a.extractLsb' 3 5) (a.extractLsb' 8 5))

/-- Format CQ (R51). -/
def decodeCfgbq (a : BitVec 32) : Except Illegal Instr :=
  ifReservedZero (a.extractLsb' 26 6)
    (.cfgbq (a.getLsbD 25) (Variant.ofBit (a.getLsbD 24)) (a.extractLsb' 0 12) (a.extractLsb' 12 12))

/-- The opcode map, complete (R43). -/
def decode (w : CmdWord) : Except Illegal Instr :=
  match (opOf w).toNat with
  | 0x1 => decodeStep (argOf w)
  | 0x2 => decodeReset (argOf w)
  | 0x3 => decodeSelect (argOf w)
  | 0x4 => decodeGetval (argOf w)
  | 0x5 => decodeGetsel (argOf w)
  | 0x8 => decodeCfgch (argOf w)
  | 0x9 => decodeCfghp (argOf w)
  | 0xA => decodeCfgbp (argOf w)
  | 0xB => decodeCfgbq (argOf w)
  | _ => .error .opcode

/-- The command word of a command: opcode, reserved zeros and fields from bit 35 down (R43 to R51). -/
def encode : Instr → CmdWord
  | .step x => 0x1#4 ++ 0#16 ++ x
  | .reset => 0x2#4 ++ 0#32
  | .select mask => 0x3#4 ++ 0#3 ++ mask
  | .getval id => 0x4#4 ++ 0#27 ++ id
  | .getsel => 0x5#4 ++ 0#32
  | .cfgch c en rep order k => 0x8#4 ++ 0#20 ++ k ++ order ++ rep.toBits ++ BitVec.ofBool en ++ c
  | .cfghp h en src => 0x9#4 ++ 0#24 ++ src ++ BitVec.ofBool en ++ h
  | .cfgbp b en brEn fast slow => 0xA#4 ++ 0#19 ++ slow ++ fast ++ BitVec.ofBool brEn ++ BitVec.ofBool en ++ b
  | .cfgbq en variant alpha damp => 0xB#4 ++ 0#6 ++ BitVec.ofBool en ++ BitVec.ofBool variant.toBit ++ damp ++ alpha

/-- A row of spec/opcode_table.json: a word is in the row when `word AND mask = match`. -/
structure TableRow where
  mnemonic : String
  matchBits : CmdWord
  mask : CmdWord
  deriving DecidableEq, Repr

/-- spec/opcode_table.json's `match` and `mask` columns, row by row; they play no part in decoding. -/
def opcodeTable : List TableRow :=
  [⟨"STEP", 0x100000000#36, 0xFFFFF0000#36⟩, ⟨"RESET", 0x200000000#36, 0xFFFFFFFFF#36⟩,
   ⟨"SELECT", 0x300000000#36, 0xFE0000000#36⟩, ⟨"GETVAL", 0x400000000#36, 0xFFFFFFFE0#36⟩,
   ⟨"GETSEL", 0x500000000#36, 0xFFFFFFFFF#36⟩, ⟨"CFGCH", 0x800000000#36, 0xFFFFFF000#36⟩,
   ⟨"CFGHP", 0x900000000#36, 0xFFFFFFF00#36⟩, ⟨"CFGBP", 0xA00000000#36, 0xFFFFFE000#36⟩,
   ⟨"CFGBQ", 0xB00000000#36, 0xFFC000000#36⟩]

/-- The row of a command. -/
def Instr.tableRow : Instr → TableRow
  | .step _ => ⟨"STEP", 0x100000000#36, 0xFFFFF0000#36⟩
  | .reset => ⟨"RESET", 0x200000000#36, 0xFFFFFFFFF#36⟩
  | .select _ => ⟨"SELECT", 0x300000000#36, 0xFE0000000#36⟩
  | .getval _ => ⟨"GETVAL", 0x400000000#36, 0xFFFFFFFE0#36⟩
  | .getsel => ⟨"GETSEL", 0x500000000#36, 0xFFFFFFFFF#36⟩
  | .cfgch _ _ _ _ _ => ⟨"CFGCH", 0x800000000#36, 0xFFFFFF000#36⟩
  | .cfghp _ _ _ => ⟨"CFGHP", 0x900000000#36, 0xFFFFFFF00#36⟩
  | .cfgbp _ _ _ _ _ => ⟨"CFGBP", 0xA00000000#36, 0xFFFFFE000#36⟩
  | .cfgbq _ _ _ _ => ⟨"CFGBQ", 0xB00000000#36, 0xFFC000000#36⟩

/-- The command word a table word of `nbits` bits stands for: the bits above `nbits` are 0, and the
bits above 35, which a row of 36 bits given as five bytes has, must be 0 (log entry 8). -/
def tableWord (nbits w : Nat) : Option CmdWord :=
  if w % 2 ^ nbits < 2 ^ 36 then some (BitVec.ofNat 36 (w % 2 ^ nbits)) else none

/-- What the decoder reads from a word numbered as spec/opcode_table.json numbers it. -/
def decodeTableWord (nbits w : Nat) : Option Instr :=
  match tableWord nbits w with
  | some c => (decode c).toOption
  | none => none

/-- `STEP x` as the assembler writes it: `SAMPLE` = `x mod 65536` (R55). -/
def asmStep (x : Int) : Instr := .step (BitVec.ofInt 16 x)

/-- Is this one of the four configuration commands (R116)? -/
def Instr.isConfig : Instr → Bool
  | .step _ => false
  | .reset => false
  | .select _ => false
  | .getval _ => false
  | .getsel => false
  | .cfgch _ _ _ _ _ => true
  | .cfghp _ _ _ => true
  | .cfgbp _ _ _ _ _ => true
  | .cfgbq _ _ _ _ => true

/-- The pseudo-instruction `CONFIGURE`: its configuration commands in order, then `RESET` (R55). -/
def asmConfigure (cfgs : List Instr) : List Instr := cfgs.filter Instr.isConfig ++ [.reset]

end Sys2Proof
end

