-- ==== Sys2Proof/Config.lean ====
section
/-! DEFINITION. The parameters of AU-FB (spec/00_scope.md R5) and the one value the spec leaves free (a NaN's sign and payload). -/

namespace Sys2Proof.Config

/-- `LEGAL_K`: the gain exponents an enabled channel may have (R5, R23 clause 1). -/
def legalK : List Nat := [1, 2, 3, 4, 5, 8]

/-- `FRAC_Q8_8`: fraction bits of Q8.8 (R5). -/
abbrev fracQ8 : Nat := 8

/-- `FRAC_Q16_16`: fraction bits of Q16.16 (R5). -/
abbrev fracQ16 : Nat := 16

/-- `COEF_ONE`: the coefficient value that means 1.0 in the Q8.8 biquad (R5, R19). -/
abbrev coefOne : Nat := 256

/-- `SHIFT_MAX`: the largest alpha shift count of the 16-bit biquad (R5). -/
abbrev shiftMax : Nat := 15

/-- `EMA_K1_BIAS`: whether the k = 1 integer EMA adds the rounding addend.
The spec decides the default `false` (R5, R65; 90_conflicts.md C10); log entry 3. -/
def emaK1Bias : Bool := false

/-- The three float operations of the block, as labels for the free NaN values. -/
inductive FloatOp
  | add
  | sub
  | div
  deriving DecidableEq, Repr

/-- FREE VALUE (log entry 1): the sign of the NaN that an operation on these operands returns.
R74 leaves it open and 93_implementation_defined.md U4 calls it "any value". -/
opaque nanSign : FloatOp → Word → Word → Bool

/-- FREE VALUE (log entry 1): the payload, below the quiet bit, of the NaN that an operation on these operands returns. -/
opaque nanPayload : FloatOp → Word → Word → BitVec 22

end Sys2Proof.Config
end

