-- ==== Sys2Proof/Machine/State.lean ====
section
/-! DEFINITION. The state of AU-FB as plain data: the registers of R10, the ports of R40, and the state after power-on reset (R25, R150). -/

namespace Sys2Proof.Machine

/-- `CH[c]`: the configuration of an EMA channel (R16). -/
structure ChCfg where
  en : Bool
  rep : Rep
  order : BitVec 2
  k : BitVec 4
  deriving DecidableEq, Repr

/-- `HP[h]`: the configuration of a high-pass combiner (R17). -/
structure HpCfg where
  en : Bool
  src : BitVec 5
  deriving DecidableEq, Repr

/-- `BP[b]`: the configuration of a band-pass combiner and the band-reject combiner tied to it (R18). -/
structure BpCfg where
  en : Bool
  brEn : Bool
  fast : BitVec 5
  slow : BitVec 5
  deriving DecidableEq, Repr

/-- `BQ`: the configuration of the state-variable filter (R19). -/
structure BqCfg where
  en : Bool
  variant : Variant
  alpha : BitVec 12
  damp : BitVec 12
  deriving DecidableEq, Repr

/-- The registers of one AU-FB instance: the complete architectural state (R10). -/
structure Regs where
  /-- `ACC[c][s]`, stage `s` at index `s - 1` (R11). -/
  acc : Vector (Vector Word 3) 6
  /-- `BQ_LOW` (R13). -/
  bqLow : Word
  /-- `BQ_BAND` (R13). -/
  bqBand : Word
  /-- `HPOUT[h]` (R14). -/
  hpout : Vector Word 4
  /-- `BPOUT[b]` (R14). -/
  bpout : Vector Word 2
  /-- `BROUT[b]` (R14). -/
  brout : Vector Word 2
  /-- `BQ_HIGH` (R14). -/
  bqHigh : Word
  /-- `STEPPED` (R15). -/
  stepped : Bool
  /-- `STALE` (R15). -/
  stale : Bool
  /-- `CH[c]` (R16). -/
  ch : Vector ChCfg 6
  /-- `HP[h]` (R17). -/
  hp : Vector HpCfg 4
  /-- `BP[b]` (R18). -/
  bp : Vector BpCfg 2
  /-- `BQ` (R19). -/
  bq : BqCfg
  /-- `SEL` (R20). -/
  sel : BitVec 29
  deriving DecidableEq, Repr

/-- The response statuses that are ever produced; codes 6 and 7 never are (R54). -/
inductive Status
  /-- Code 0: the command was executed. -/
  | ok
  /-- Code 1, any word: the word is illegal (R53). -/
  | illegal
  /-- Code 2, `STEP`: `cfg_valid` is false. -/
  | config
  /-- Code 3, `STEP` and `GETVAL`: reconfigured after stepping and not yet reset. -/
  | stale
  /-- Code 4, `GETVAL`: no step since the last reset. -/
  | notReady
  /-- Code 5, `GETVAL`: the id is reserved or its unit is not enabled. -/
  | disabled
  deriving DecidableEq, Repr

/-- The response to one command: `rsp_status` and `rsp_data` (R40, R54). -/
structure Response where
  status : Status
  data : Word
  deriving DecidableEq, Repr

/-- The input ports as the host drives them for one step: `rst_n`, `cmd_valid`, `cmd_word` (R40). -/
structure HostPins where
  rstN : Bool
  cmdValid : Bool
  cmdWord : CmdWord
  deriving DecidableEq, Repr

/-- One instance of the block with its ports. -/
structure State where
  /-- The architectural registers (R10). -/
  regs : Regs
  /-- What the host will drive on the input ports, next step first (R40, R41; log entry 4). -/
  pins : List HostPins
  /-- The response port: `none` is `rsp_valid` = 0 (R40, R41; log entry 5). -/
  rsp : Option Response
  deriving DecidableEq, Repr

/-- Reasons for a fault: none. Nothing in this block is a fault: it answers every accepted command
(93_implementation_defined.md section 1, R131, R134). -/
inductive Fault
  deriving DecidableEq, Repr

/-- Reasons for a refusal of the model (a refused COMMAND is a next state with an error status, R131). -/
inductive Refusal
  /-- Raised by `exec` for a command that has no meaning in the model yet; no arm raises it. Safe. -/
  | notModelled (mnemonic : String)
  deriving DecidableEq, Repr

/-- Every register after power-on reset: all zero, every unit disabled (R25, R150). -/
def Regs.powerOn : Regs where
  acc := Vector.replicate 6 (Vector.replicate 3 0#32)
  bqLow := 0#32
  bqBand := 0#32
  hpout := Vector.replicate 4 0#32
  bpout := Vector.replicate 2 0#32
  brout := Vector.replicate 2 0#32
  bqHigh := 0#32
  stepped := false
  stale := false
  ch := Vector.replicate 6 ⟨false, .i16, 0#2, 0#4⟩
  hp := Vector.replicate 4 ⟨false, 0#5⟩
  bp := Vector.replicate 2 ⟨false, false, 0#5, 0#5⟩
  bq := ⟨false, .i16Shift, 0#12, 0#12⟩
  sel := 0#29

/-- The block right after power-on reset: no command offered, no response presented (R25, R150; log entries 4, 5). -/
def State.reset : State where
  regs := Regs.powerOn
  pins := []
  rsp := none

end Sys2Proof.Machine
end

