-- ==== Sys2Proof/Machine/Ops.lean ====
section
/-! DEFINITION. Named reads and writes of the registers, the two resets, and how a command ends: `respond` and `raise` (R7, R24, R25, R131). AU-FB has no memory (R30), so there is no memory operation. -/

namespace Sys2Proof.Machine

/-- Read `ACC[c][s]` (R11); `s` is the stage number less one. -/
def Regs.readAcc (r : Regs) (c : Fin 6) (s : Fin 3) : Word := r.acc[c][s]

/-- `ACC[c][s] <- v` (R11). -/
def Regs.writeAcc (r : Regs) (c : Fin 6) (s : Fin 3) (v : Word) : Regs :=
  { r with acc := r.acc.set c (r.acc[c].set s v) }

/-- Read `HPOUT[h]` (R14). -/
def Regs.readHpout (r : Regs) (h : Fin 4) : Word := r.hpout[h]

/-- Read `BPOUT[b]` (R14). -/
def Regs.readBpout (r : Regs) (b : Fin 2) : Word := r.bpout[b]

/-- Read `BROUT[b]` (R14). -/
def Regs.readBrout (r : Regs) (b : Fin 2) : Word := r.brout[b]

/-- Read `CH[c]` (R16). -/
def Regs.readCh (r : Regs) (c : Fin 6) : ChCfg := r.ch[c]

/-- Read `HP[h]` (R17). -/
def Regs.readHp (r : Regs) (h : Fin 4) : HpCfg := r.hp[h]

/-- Read `BP[b]` (R18). -/
def Regs.readBp (r : Regs) (b : Fin 2) : BpCfg := r.bp[b]

/-- `HPOUT[h] <- v` (R14). -/
def Regs.writeHpout (r : Regs) (h : Fin 4) (v : Word) : Regs := { r with hpout := r.hpout.set h v }

/-- `BPOUT[b] <- v` (R14). -/
def Regs.writeBpout (r : Regs) (b : Fin 2) (v : Word) : Regs := { r with bpout := r.bpout.set b v }

/-- `BROUT[b] <- v` (R14). -/
def Regs.writeBrout (r : Regs) (b : Fin 2) (v : Word) : Regs := { r with brout := r.brout.set b v }

/-- `BQ_HIGH`, `BQ_BAND` and `BQ_LOW` written together, as one biquad update does (R101, R102). -/
def Regs.writeBiquad (r : Regs) (high band low : Word) : Regs :=
  { r with bqHigh := high, bqBand := band, bqLow := low }

/-- `CH[c]` written whole (R16, R117). -/
def Regs.writeCh (r : Regs) (c : Fin 6) (v : ChCfg) : Regs := { r with ch := r.ch.set c v }

/-- `HP[h]` written whole (R17, R118). -/
def Regs.writeHp (r : Regs) (h : Fin 4) (v : HpCfg) : Regs := { r with hp := r.hp.set h v }

/-- `BP[b]` written whole (R18, R119). -/
def Regs.writeBp (r : Regs) (b : Fin 2) (v : BpCfg) : Regs := { r with bp := r.bp.set b v }

/-- `BQ` written whole (R19, R120). -/
def Regs.writeBq (r : Regs) (v : BqCfg) : Regs := { r with bq := v }

/-- `SEL <- mask` (R20). -/
def Regs.writeSel (r : Regs) (mask : BitVec 29) : Regs := { r with sel := mask }

/-- What both resets do to the accumulators and the latches: all zero (R25). -/
def Regs.zeroHistory (r : Regs) : Regs :=
  { r with
    acc := Regs.powerOn.acc, bqLow := 0#32, bqBand := 0#32, bqHigh := 0#32
    hpout := Regs.powerOn.hpout, bpout := Regs.powerOn.bpout, brout := Regs.powerOn.brout }

/-- `rsp_status`: the 3-bit code of a status (R54). -/
def Status.code : Status → BitVec 3
  | .ok => 0#3
  | .illegal => 1#3
  | .config => 2#3
  | .stale => 3#3
  | .notReady => 4#3
  | .disabled => 5#3

/-- `respond(OK, d)` with the registers the command leaves (R7). -/
def respond (r : Regs) (d : Word) (s : State) : Host.Outcome State Fault Refusal :=
  .next { s with regs := r, rsp := some ⟨.ok, d⟩ }

/-- `raise e`: the whole of taking an exception in this block. The command ends with the status and
data 0, and no register changes (R7, R131, R134). There is no return from it (R135). -/
def raise (e : Status) (s : State) : Host.Outcome State Fault Refusal :=
  .next { s with rsp := some ⟨e, 0#32⟩ }

/-- Power-on reset, from any state: every register at its power-on value and no response presented
(R150, R25; log entry 5). -/
def powerOnReset (s : State) : State := { s with regs := Regs.powerOn, rsp := none }

end Sys2Proof.Machine
end

