-- ==== Sys2Proof/Machine/Flags.lean ====
section
/-! DEFINITION. The two history flags `STEPPED` and `STALE`: what sets and clears them (R15, R24). AU-FB has no arithmetic flags (R15, R61, R74). -/

namespace Sys2Proof.Machine

/-- `STEPPED <- 1`, at the end of a successful `STEP` (R15, R111). -/
def Regs.setStepped (r : Regs) : Regs := { r with stepped := true }

/-- `STEPPED <- 0; STALE <- 0`, by `RESET` (R15, R112). -/
def Regs.clearFlags (r : Regs) : Regs := { r with stepped := false, stale := false }

/-- `if STEPPED = 1: STALE <- 1`, at the end of every configuration command (R15, R116). -/
def Regs.markStale (r : Regs) : Regs := { r with stale := r.stale || r.stepped }

end Sys2Proof.Machine
end

