-- ==== Sys2Proof/Machine/Configure.lean ====
section
/-! DEFINITION. The four configuration commands (spec/45_driver_commands.md R116 to R120): every field stored verbatim, then the `STALE` rule. -/

namespace Sys2Proof.Machine

/-- The common end of a configuration command: the `STALE` rule and `respond(OK, 0)` (R116). -/
def configured (r : Regs) (s : State) : Host.Outcome State Fault Refusal := respond r.markStale 0#32 s

/-- `CFGCH c, en, rep, order, k` (R117); channels 6 and 7 raise `ERR_ILLEGAL` (log entry 10). -/
def execCfgch (c : BitVec 3) (en : Bool) (rep : Rep) (order : BitVec 2) (k : BitVec 4) (s : State) :
    Host.Outcome State Fault Refusal :=
  if h : c.toNat < 6 then configured (s.regs.writeCh ⟨c.toNat, h⟩ ⟨en, rep, order, k⟩) s
  else raise .illegal s

/-- `CFGHP h, en, src` (R118). -/
def execCfghp (h : BitVec 2) (en : Bool) (src : BitVec 5) (s : State) : Host.Outcome State Fault Refusal :=
  configured (s.regs.writeHp h.toFin ⟨en, src⟩) s

/-- `CFGBP b, en, br_en, fast, slow` (R119). -/
def execCfgbp (b : BitVec 1) (en brEn : Bool) (fast slow : BitVec 5) (s : State) :
    Host.Outcome State Fault Refusal :=
  configured (s.regs.writeBp b.toFin ⟨en, brEn, fast, slow⟩) s

/-- `CFGBQ en, variant, alpha, damp` (R120). -/
def execCfgbq (en : Bool) (variant : Variant) (alpha damp : BitVec 12) (s : State) :
    Host.Outcome State Fault Refusal :=
  configured (s.regs.writeBq ⟨en, variant, alpha, damp⟩) s

end Sys2Proof.Machine
end

