-- ==== Sys2Proof/Machine/Float.lean ====
section
/-! DEFINITION. binary32 (R69 to R74): unpacking, one rounding function, addition, subtraction, division, and the conversions. Every finite value is an integer number of units of 2^-149, so sums are exact integers before the one rounding. -/

namespace Sys2Proof.Machine

/-- What a binary32 pattern encodes (R70). A finite value is `mag` units of 2^-149 with its sign. -/
inductive F32Val
  | nan
  | inf (neg : Bool)
  | fin (neg : Bool) (mag : Nat)
  deriving DecidableEq, Repr

/-- Unpack a pattern: sign 31, exponent 30:23 biased by 127, fraction 22:0 (R70). -/
def f32Unpack (b : Word) : F32Val :=
  let e := (b.extractLsb' 23 8).toNat
  let f := (b.extractLsb' 0 23).toNat
  if e = 255 then (if f = 0 then .inf b.msb else .nan)
  else .fin b.msb (if e = 0 then f else (2 ^ 23 + f) * 2 ^ (e - 1))

/-- A pattern from its sign and its low 31 bits (R70). -/
def f32Pack (neg : Bool) (low : Nat) : Word := BitVec.ofNat 32 (neg.toNat * 2 ^ 31 + low)

/-- The low 31 bits of an infinity (R70). -/
def f32InfLow : Nat := 0x7F800000

/-- The quotient `n / d` rounded to the nearest integer, ties to even (R72). -/
def roundNearestEven (n d : Nat) : Nat :=
  if 2 * (n % d) < d then n / d
  else if d < 2 * (n % d) then n / d + 1
  else if (n / d) % 2 = 0 then n / d
  else n / d + 1

/-- How far the exact value of `n / d` units must be shifted right to keep 24 significant bits; 0 in the
subnormal range, so subnormals are kept (R72). -/
def f32Shift (n d : Nat) : Nat := Nat.log2 (n / d) + 1 - 24

/-- The low 31 bits of the binary32 value nearest to `n / d` units of 2^-149, ties to even, infinity
when it is too large (R72, R73). -/
def f32RoundLow (n d : Nat) : Nat :=
  min (f32Shift n d * 2 ^ 23 + roundNearestEven n (d * 2 ^ f32Shift n d)) f32InfLow

/-- A NaN result: a quiet NaN whose sign and payload are free (R74; 93_implementation_defined.md U4; log entries 1, 2). -/
def f32FreeNan (op : Config.FloatOp) (a b : Word) : Word :=
  BitVec.ofBool (Config.nanSign op a b) ++ 0xFF#8 ++ 0x1#1 ++ Config.nanPayload op a b

/-- The signed number of units of a finite value. -/
def signedMag (neg : Bool) (mag : Nat) : Int := if neg then -(mag : Int) else (mag : Int)

/-- The other sign. A NaN is left as it is. -/
def F32Val.negate : F32Val → F32Val
  | .nan => .nan
  | .inf s => .inf !s
  | .fin s m => .fin (!s) m

/-- The sum of two unpacked values, rounded once; an exact zero is `+0` unless both operands are `-0` (R72). -/
def f32SumOf (op : Config.FloatOp) (a b : Word) : F32Val → F32Val → Word
  | .nan, _ => f32FreeNan op a b
  | .inf _, .nan => f32FreeNan op a b
  | .fin _ _, .nan => f32FreeNan op a b
  | .inf s, .inf t => if s = t then f32Pack s f32InfLow else f32FreeNan op a b
  | .inf s, .fin _ _ => f32Pack s f32InfLow
  | .fin _ _, .inf t => f32Pack t f32InfLow
  | .fin s m, .fin t n =>
    let v := signedMag s m + signedMag t n
    if v = 0 then f32Pack (s && t) 0 else f32Pack (decide (v < 0)) (f32RoundLow v.natAbs 1)

/-- `f32_add(a, b)` (R72, R74). -/
def f32Add (a b : Word) : Word := f32SumOf .add a b (f32Unpack a) (f32Unpack b)

/-- `f32_sub(a, b)` (R72, R74). -/
def f32Sub (a b : Word) : Word := f32SumOf .sub a b (f32Unpack a) (f32Unpack b).negate

/-- The quotient of two unpacked values, rounded once (R73; log entry 2 for infinite operands and a zero divisor). -/
def f32QuotOf (a b : Word) : F32Val → F32Val → Word
  | .nan, _ => f32FreeNan .div a b
  | .inf _, .nan => f32FreeNan .div a b
  | .fin _ _, .nan => f32FreeNan .div a b
  | .inf _, .inf _ => f32FreeNan .div a b
  | .inf s, .fin t _ => f32Pack (s != t) f32InfLow
  | .fin s _, .inf t => f32Pack (s != t) 0
  | .fin s m, .fin t n =>
    if n = 0 then (if m = 0 then f32FreeNan .div a b else f32Pack (s != t) f32InfLow)
    else f32Pack (s != t) (f32RoundLow (m * 2 ^ 149) n)

/-- `f32_div(a, b)` (R73, R74). -/
def f32Div (a b : Word) : Word := f32QuotOf a b (f32Unpack a) (f32Unpack b)

/-- `f32_pow2(k)` = 2^k (R73). -/
def f32Pow2 (k : Nat) : Word := f32Pack false ((127 + k) * 2 ^ 23)

/-- `f32_of_i16(x)`: the binary32 value equal to the integer `x` (R71). -/
def f32OfI16 (x : Sample) : Word :=
  f32Pack (decide (x.toInt < 0)) (f32RoundLow (x.toInt.natAbs * 2 ^ 149) 1)

/-- Clamp an integer to the 16-bit range (R69). -/
def clamp16 (v : Int) : Sample := BitVec.ofInt 16 (max (-32768) (min 32767 v))

/-- `i16_of_f32(b)`: an auxiliary converter that no command uses (R69). -/
def i16OfF32 (b : Word) : Sample :=
  match f32Unpack b with
  | .nan => 0#16
  | .inf neg => if neg then clamp16 (-32768) else clamp16 32767
  | .fin neg mag => clamp16 (signedMag neg (roundNearestEven mag (2 ^ 149)))

end Sys2Proof.Machine
end

