-- ==== Sys2Proof/Machine/Numerics.lean ====
section
/-! DEFINITION. The integer primitives (R7) and the converters, rounded shifts and rounded multiply of spec/40_numerics.md (R60 to R68). Pure functions: integers are computed exactly and narrowed at the end. -/

namespace Sys2Proof.Machine

/-- `wrap_N(v)`: reduction of any integer to an N-bit two's complement value (R7, R61; log entry 9). -/
def wrap (n : Nat) (v : Int) : BitVec n := BitVec.ofInt n v

/-- `asr(v, s)` = `floor(v / 2^s)` (R7). -/
def asr (v : Int) (s : Nat) : Int := v / ((2 ^ s : Nat) : Int)

/-- `shl_N(v, s)` = `wrap_N(v * 2^s)` (R7). -/
def shl (n : Nat) (v : Int) (s : Nat) : BitVec n := wrap n (v * ((2 ^ s : Nat) : Int))

/-- `sext_32(v)`: the same signed integer at width 32 (R7). -/
def sext32 {n : Nat} (v : BitVec n) : Word := v.signExtend 32

/-- `q8_of_i16(x)` (R62). -/
def q8OfI16 (x : Sample) : Word := shl 32 (sext32 x).toInt Config.fracQ8

/-- `q16_of_i16(x)` (R63). -/
def q16OfI16 (x : Sample) : Word := shl 32 (sext32 x).toInt Config.fracQ16

/-- `int_of_i16(y)` (R64). -/
def intOfI16 (y : BitVec 16) : Word := sext32 y

/-- `int_of_q8(Y)` (R64). -/
def intOfQ8 (y : Word) : Word := wrap 32 (asr y.toInt Config.fracQ8)

/-- `int_of_q16(Y)` (R64). -/
def intOfQ16 (y : Word) : Word := wrap 32 (asr y.toInt Config.fracQ16)

/-- `q16_of_q8(Y)`: an auxiliary converter that no command uses (R68). -/
def q16OfQ8 (y : Word) : Word := shl 32 y.toInt 8

/-- `q8_of_q16(Y)`: an auxiliary converter that no command uses (R68). -/
def q8OfQ16 (y : Word) : Word := wrap 32 (asr y.toInt 8)

/-- `rinc_N(d, k)` with the parameter `EMA_K1_BIAS` as an argument (R65). -/
def rincWith (k1Bias : Bool) {n : Nat} (d : BitVec n) (k : Nat) : BitVec n :=
  if k = 1 ∧ k1Bias = false then wrap n (asr d.toInt 1)
  else wrap n (asr (wrap n (d.toInt + ((2 ^ (k - 1) : Nat) : Int))).toInt k)

/-- `rinc_N(d, k)`, the rounded increment of the EMA law (R65; log entry 3). -/
def rinc {n : Nat} (d : BitVec n) (k : Nat) : BitVec n := rincWith Config.emaK1Bias d k

/-- `rshr_N(v, s)`, the rounded right shift of the 16-bit biquad (R66). -/
def rshr {n : Nat} (v : BitVec n) (s : Nat) : BitVec n :=
  if s = 0 then v else wrap n (asr (wrap n (v.toInt + ((2 ^ (s - 1) : Nat) : Int))).toInt s)

/-- `mulrs8(v, c)`, the rounded fractional multiply of the Q8.8 biquad (R67). -/
def mulrs8 (v : Word) (c : Nat) : Word := wrap 32 ((v.toInt * (c : Int) + 128) / 256)

end Sys2Proof.Machine
end

