-- ==== Sys2Proof/Machine/Operands.lean ====
section
/-! DEFINITION. Operands: the filter id map (R31), the predicates over taps and ids (R21, R22), the stage-1 input of a sample (R52, R85) and the visible value of a tap (R86). -/

namespace Sys2Proof.Machine

/-- The filter id a tap has: `3 * c + (s - 1)` (R31). -/
def tapId (t : Tap) : BitVec 5 := BitVec.ofNat 5 (3 * t.ch.val + t.stage.val)

/-- The tap a 5-bit value names, for 0..17 (R21). -/
def tapOfId (i : BitVec 5) : Option Tap :=
  if h : i.toNat < 18 then
    some ⟨⟨i.toNat / 3, by omega⟩, ⟨i.toNat % 3, Nat.mod_lt _ (by decide)⟩⟩
  else none

/-- The filter id map (R31). -/
def filterOfId (i : BitVec 5) : FilterId :=
  match tapOfId i with
  | some t => .lp t
  | none =>
    if i = 18#5 then .hp 0
    else if i = 19#5 then .hp 1
    else if i = 20#5 then .hp 2
    else if i = 21#5 then .hp 3
    else if i = 22#5 then .bp 0
    else if i = 23#5 then .bp 1
    else if i = 24#5 then .br 0
    else if i = 25#5 then .br 1
    else if i = 26#5 then .bqLow
    else if i = 27#5 then .bqBand
    else if i = 28#5 then .bqHigh
    else .reserved

/-- Numeric class of a representation (00_scope.md glossary). -/
def classOf : Rep → NumClass
  | .i16 => .int
  | .q8_8 => .int
  | .q16_16 => .int
  | .f32 => .float

/-- Is stage `s + 1` of channel `c` updated by `STEP`: the channel enabled and its order large enough (R21, R91). -/
def Regs.stageEnabled (r : Regs) (c : Fin 6) (s : Fin 3) : Bool :=
  (r.readCh c).en && decide (s.val + 1 ≤ (r.readCh c).order.toNat)

/-- `tap_enabled(t)` (R21). -/
def Regs.tapEnabled (r : Regs) (i : BitVec 5) : Bool :=
  match tapOfId i with
  | some t => r.stageEnabled t.ch t.stage
  | none => false

/-- `tap_rep(t)` (R21). -/
def Regs.tapRep (r : Regs) (t : Tap) : Rep := (r.readCh t.ch).rep

/-- `tap_k(t)` (R21). -/
def Regs.tapK (r : Regs) (t : Tap) : Nat := (r.readCh t.ch).k.toNat

/-- `tap_class(t)` (R21). -/
def Regs.tapClass (r : Regs) (t : Tap) : NumClass := classOf (r.tapRep t)

/-- `id_enabled(i)` (R22). -/
def Regs.idEnabled (r : Regs) (i : BitVec 5) : Bool :=
  match filterOfId i with
  | .lp t => r.stageEnabled t.ch t.stage
  | .hp h => (r.readHp h).en
  | .bp b => (r.readBp b).en
  | .br b => (r.readBp b).brEn
  | .bqLow => r.bq.en
  | .bqBand => r.bq.en
  | .bqHigh => r.bq.en
  | .reserved => false

/-- The input of stage 1 of a channel for sample `x`, as the 32-bit word its representation reads (R85). -/
def stageInput (rep : Rep) (x : Sample) : Word :=
  match rep with
  | .i16 => sext32 x
  | .q8_8 => q8OfI16 x
  | .q16_16 => q16OfI16 x
  | .f32 => f32OfI16 x

/-- `tapval_int` of an accumulator word under an integer representation (R86); an `F32` word is its own value. -/
def visible (rep : Rep) (a : Word) : Word :=
  match rep with
  | .i16 => a
  | .q8_8 => intOfQ8 a
  | .q16_16 => intOfQ16 a
  | .f32 => a

/-- `tapval_int(t)` for class `INT`, `tapval_f32(t)` for class `FLOAT` (R86). -/
def Regs.tapVal (r : Regs) (t : Tap) : Word := visible (r.tapRep t) (r.readAcc t.ch t.stage)

/-- The visible value of a biquad register: as it is in `I16_SHIFT`, de-scaled in `Q8_8_MUL` (R104). -/
def Regs.biquadVal (r : Regs) (v : Word) : Word :=
  match r.bq.variant with
  | .i16Shift => v
  | .q8Mul => intOfQ8 v

/-- `value(id)` of `GETVAL` (R114). A reserved id names nothing and is refused before its value is read (log entry 7). -/
def Regs.value (r : Regs) (i : BitVec 5) : Word :=
  match filterOfId i with
  | .lp t => r.tapVal t
  | .hp h => (r.readHpout h)
  | .bp b => (r.readBpout b)
  | .br b => (r.readBrout b)
  | .bqLow => r.biquadVal r.bqLow
  | .bqBand => r.biquadVal r.bqBand
  | .bqHigh => r.biquadVal r.bqHigh
  | .reserved => 0#32

end Sys2Proof.Machine
end

