-- ==== Sys2Proof/Machine/Biquad.lean ====
section
/-! DEFINITION. Phase 4 of `STEP`: the state-variable filter in its two variants (spec/44_biquad.md R100 to R102; R111). -/

namespace Sys2Proof.Machine

/-- The high-pass line of variant `I16_SHIFT`: `H = wrap_16(x - B - L)` (R101). -/
def biquadHigh16 (x : Sample) (band low : BitVec 16) : BitVec 16 :=
  wrap 16 (x.toInt - band.toInt - low.toInt)

/-- An integrator line of variant `I16_SHIFT`: `wrap_16(acc + rshr_16(v, s))` (R101). -/
def integrate16 (acc v : BitVec 16) (s : Nat) : BitVec 16 := wrap 16 (acc.toInt + (rshr v s).toInt)

/-- The high-pass line of variant `Q8_8_MUL`: `H = wrap_32(X - DB - L)` with `DB = mulrs8(B, D)` (R102). -/
def biquadHigh32 (x : Sample) (band low : Word) (damp : Nat) : Word :=
  wrap 32 ((q8OfI16 x).toInt - (mulrs8 band damp).toInt - low.toInt)

/-- An integrator line of variant `Q8_8_MUL`: `wrap_32(acc + mulrs8(v, A))` (R102). -/
def integrate32 (acc v : Word) (alpha : Nat) : Word := wrap 32 (acc.toInt + (mulrs8 v alpha).toInt)

/-- One update in variant `I16_SHIFT`: the high-pass from the old band and low, the band from the new
high, the low from the new band (R100, R101). -/
def Regs.biquad16 (r : Regs) (x : Sample) : Regs :=
  let low := r.bqLow.setWidth 16
  let band := r.bqBand.setWidth 16
  let s := r.bq.alpha.toNat
  let high := biquadHigh16 x band low
  let band' := integrate16 band high s
  let low' := integrate16 low band' s
  r.writeBiquad (sext32 high) (sext32 band') (sext32 low')

/-- One update in variant `Q8_8_MUL`, in the same order (R100, R102). -/
def Regs.biquad32 (r : Regs) (x : Sample) : Regs :=
  let high := biquadHigh32 x r.bqBand r.bqLow r.bq.damp.toNat
  let band' := integrate32 r.bqBand high r.bq.alpha.toNat
  let low' := integrate32 r.bqLow band' r.bq.alpha.toNat
  r.writeBiquad high band' low'

/-- Phase 4: the biquad, when it is enabled (R111). -/
def Regs.phase4 (r : Regs) (x : Sample) : Regs :=
  if r.bq.en then
    match r.bq.variant with
    | .i16Shift => r.biquad16 x
    | .q8Mul => r.biquad32 x
  else r

end Sys2Proof.Machine
end

