-- ==== Sys2Proof/Machine/Ema.lean ====
section
/-! DEFINITION. The primitive EMA updater in its four representations (spec/41_ema_primitive.md R80 to R84). -/

namespace Sys2Proof.Machine

/-- The integer EMA law on an N-bit path: `d = wrap(in - y)`, `inc = rinc(d, k)`, `y' = wrap(y + inc)` (R81 to R83). -/
def emaInt {n : Nat} (y input : BitVec n) (k : Nat) : BitVec n :=
  let d := wrap n (input.toInt - y.toInt)
  wrap n (y.toInt + (rinc d k).toInt)

/-- `ema_i16(y, in, k)`, path width 16 (R81). -/
def emaI16 (y input : BitVec 16) (k : Nat) : BitVec 16 := emaInt y input k

/-- `ema_q8(Y, IN, k)`, path width 32 (R82). -/
def emaQ8 (y input : Word) (k : Nat) : Word := emaInt y input k

/-- `ema_q16(Y, IN, k)`, path width 32 (R83). -/
def emaQ16 (y input : Word) (k : Nat) : Word := emaInt y input k

/-- `ema_f32(y, in, k)`: subtract, divide, add, each rounded once (R84). -/
def emaF32 (y input : Word) (k : Nat) : Word :=
  let d := f32Sub input y
  let q := f32Div d (f32Pow2 k)
  f32Add y q

/-- The updater of a representation on 32-bit accumulator words. `I16` reads bits 15:0 of both words
and writes `sext_32` of its result (R11, R81; log entry 11). -/
def ema (rep : Rep) (y input : Word) (k : Nat) : Word :=
  match rep with
  | .i16 => sext32 (emaI16 (y.setWidth 16) (input.setWidth 16) k)
  | .q8_8 => emaQ8 y input k
  | .q16_16 => emaQ16 y input k
  | .f32 => emaF32 y input k

end Sys2Proof.Machine
end

