-- ==== Sys2Proof/Machine/Cascade.lean ====
section
/-! DEFINITION. Phases 1 and 2 of `STEP`: the single-stage low-passes and the cascade stages (spec/42_cascade.md R90 to R92; R111). -/

namespace Sys2Proof.Machine

/-- Phase 1 for channel `c`: stage 1 from the sample, when the channel is enabled (R91, R111). -/
def Regs.singleStage (x : Sample) (r : Regs) (c : Fin 6) : Regs :=
  let cfg := (r.readCh c)
  if cfg.en then r.writeAcc c 0 (ema cfg.rep (r.readAcc c 0) (stageInput cfg.rep x) cfg.k.toNat) else r

/-- One later stage of channel `c` from the stage before it as already updated, when the channel is
enabled and its order reaches the stage (R91). -/
def Regs.laterStage (r : Regs) (c : Fin 6) (below stage : Fin 3) : Regs :=
  let cfg := (r.readCh c)
  if r.stageEnabled c stage then
    r.writeAcc c stage (ema cfg.rep (r.readAcc c stage) (r.readAcc c below) cfg.k.toNat)
  else r

/-- Phase 2 for channel `c`: stage 2, then stage 3 (R91, R92, R111). -/
def Regs.cascadeStages (r : Regs) (c : Fin 6) : Regs := (r.laterStage c 0 1).laterStage c 1 2

/-- Phase 1, channels 0 to 5 in order (R111). -/
def Regs.phase1 (r : Regs) (x : Sample) : Regs := (List.finRange 6).foldl (Regs.singleStage x) r

/-- Phase 2, channels 0 to 5 in order (R111). -/
def Regs.phase2 (r : Regs) : Regs := (List.finRange 6).foldl Regs.cascadeStages r

end Sys2Proof.Machine
end

