-- ==== Sys2Proof/Machine/Derived.lean ====
section
/-! DEFINITION. Phase 3 of `STEP`: the high-pass, band-pass and band-reject combiners (spec/43_derived.md R95 to R98; R111). -/

namespace Sys2Proof.Machine

/-- A combiner's subtraction in its numeric class: `wrap_32(a - b)` or `f32_sub(a, b)` (R95). -/
def combine (cls : NumClass) (a b : Word) : Word :=
  match cls with
  | .int => wrap 32 (a.toInt - b.toInt)
  | .float => f32Sub a b

/-- The sample as a combiner of a numeric class reads it: `sext_32(x)` or `f32_of_i16(x)` (R96, R98). -/
def sampleIn (cls : NumClass) (x : Sample) : Word :=
  match cls with
  | .int => sext32 x
  | .float => f32OfI16 x

/-- The high-pass combiner `h` (R96). A source that is no tap occurs only with an invalid
configuration, under which `STEP` is refused (R23 clause 2; log entry 7). -/
def Regs.highPass (x : Sample) (r : Regs) (h : Fin 4) : Regs :=
  if (r.readHp h).en then
    match tapOfId (r.readHp h).src with
    | some t => r.writeHpout h (combine (r.tapClass t) (sampleIn (r.tapClass t) x) (r.tapVal t))
    | none => r
  else r

/-- The band-pass combiner `b` (R97). -/
def Regs.bandPass (r : Regs) (b : Fin 2) : Regs :=
  if (r.readBp b).en then
    match tapOfId (r.readBp b).fast, tapOfId (r.readBp b).slow with
    | some f, some s => r.writeBpout b (combine (r.tapClass f) (r.tapVal f) (r.tapVal s))
    | _, _ => r
  else r

/-- The band-reject combiner `b`, which reads the new `BPOUT[b]` (R98). -/
def Regs.bandReject (x : Sample) (r : Regs) (b : Fin 2) : Regs :=
  if (r.readBp b).brEn then
    match tapOfId (r.readBp b).fast with
    | some f => r.writeBrout b (combine (r.tapClass f) (sampleIn (r.tapClass f) x) (r.readBpout b))
    | none => r
  else r

/-- Phase 3: high-passes, then band-passes, then band-rejects, each kind in index order (R111). -/
def Regs.phase3 (r : Regs) (x : Sample) : Regs :=
  let r1 := (List.finRange 4).foldl (Regs.highPass x) r
  let r2 := (List.finRange 2).foldl Regs.bandPass r1
  (List.finRange 2).foldl (Regs.bandReject x) r2

end Sys2Proof.Machine
end

