-- ==== Sys2Proof/Machine/Validity.lean ====
section
/-! DEFINITION. `cfg_valid`, the legality of the configuration (R23), one function per clause. -/

namespace Sys2Proof.Machine

/-- R23 clause 1, for channel `c`. -/
def Regs.chValid (r : Regs) (c : Fin 6) : Bool :=
  !(r.readCh c).en || (decide ((r.readCh c).order ≠ 0#2) && decide ((r.readCh c).k.toNat ∈ Config.legalK))

/-- R23 clause 2, for high-pass combiner `h`. -/
def Regs.hpValid (r : Regs) (h : Fin 4) : Bool := !(r.readHp h).en || r.tapEnabled (r.readHp h).src

/-- The condition R23 clause 3 puts on the two taps of an enabled band-pass combiner. -/
def Regs.bandTapsValid (r : Regs) (fast slow : BitVec 5) : Bool :=
  match tapOfId fast, tapOfId slow with
  | some f, some s =>
    r.tapEnabled fast && r.tapEnabled slow && decide (r.tapClass f = r.tapClass s)
      && decide (r.tapK f < r.tapK s)
  | _, _ => false

/-- R23 clause 3, for band-pass combiner `b`. -/
def Regs.bpValid (r : Regs) (b : Fin 2) : Bool :=
  !(r.readBp b).en || r.bandTapsValid (r.readBp b).fast (r.readBp b).slow

/-- R23 clause 4, for band-reject combiner `b`. -/
def Regs.brValid (r : Regs) (b : Fin 2) : Bool := !(r.readBp b).brEn || (r.readBp b).en

/-- R23 clauses 5 and 6. -/
def Regs.bqValid (r : Regs) : Bool :=
  !r.bq.en ||
    match r.bq.variant with
    | .i16Shift => decide (r.bq.alpha.toNat ≤ Config.shiftMax) && decide (r.bq.damp.toNat = Config.coefOne)
    | .q8Mul => decide (r.bq.alpha.toNat ≤ Config.coefOne) && decide (r.bq.damp.toNat ≤ Config.coefOne)

/-- `cfg_valid` (R23). -/
def Regs.cfgValid (r : Regs) : Bool :=
  decide (∀ c : Fin 6, r.chValid c = true) && decide (∀ h : Fin 4, r.hpValid h = true)
    && decide (∀ b : Fin 2, r.bpValid b = true) && decide (∀ b : Fin 2, r.brValid b = true) && r.bqValid

end Sys2Proof.Machine
end

