-- ==== Sys2Proof/Machine/FilterBank.lean ====
section
/-! DEFINITION. The driver's commands `STEP` and `RESET` (spec/45_driver_commands.md R111, R112). -/

namespace Sys2Proof.Machine

/-- All enabled filters advanced by one sample: the four phases in order (R111). -/
def Regs.advance (r : Regs) (x : Sample) : Regs :=
  (((r.phase1 x).phase2).phase3 x).phase4 x

/-- `STEP x` (R111): `ERR_STALE`, then `ERR_CONFIG`, else the four phases and `STEPPED <- 1`. -/
def execStep (x : Sample) (s : State) : Host.Outcome State Fault Refusal :=
  if s.regs.stale then raise .stale s
  else if s.regs.cfgValid then respond (s.regs.advance x).setStepped 0#32 s
  else raise .config s

/-- `RESET` (R112): accumulators, latches and flags zero; configuration and `SEL` kept. -/
def execReset (s : State) : Host.Outcome State Fault Refusal :=
  respond s.regs.zeroHistory.clearFlags 0#32 s

end Sys2Proof.Machine
end

