-- ==== Sys2Proof/Machine/Reading.lean ====
section
/-! DEFINITION. The selection mask and the reads: `SELECT`, `GETVAL`, `GETSEL` (spec/45_driver_commands.md R113 to R115). -/

namespace Sys2Proof.Machine

/-- `SELECT mask`: `SEL <- mask` (R113). -/
def execSelect (mask : BitVec 29) (s : State) : Host.Outcome State Fault Refusal :=
  respond (s.regs.writeSel mask) 0#32 s

/-- `GETVAL id` (R114): `ERR_STALE`, then `ERR_NOT_READY`, then `ERR_DISABLED`, else the value. -/
def execGetval (id : BitVec 5) (s : State) : Host.Outcome State Fault Refusal :=
  if s.regs.stale then raise .stale s
  else if s.regs.stepped then
    if s.regs.idEnabled id then respond s.regs (s.regs.value id) s else raise .disabled s
  else raise .notReady s

/-- `GETSEL`: the mask zero-extended to 32 bits (R115). -/
def execGetsel (s : State) : Host.Outcome State Fault Refusal :=
  respond s.regs (s.regs.sel.setWidth 32) s

end Sys2Proof.Machine
end

