-- ==== Sys2Proof/Machine/Dispatch.lean ====
section
/-! DEFINITION. One arm per command (spec/30_encoding.md R43, spec/45_driver_commands.md R110). -/

namespace Sys2Proof.Machine

def exec (i : Instr) (s : State) : Host.Outcome State Fault Refusal :=
  match i with
  | .step x => Sys2Proof.Machine.execStep x s
  | .reset => Sys2Proof.Machine.execReset s
  | .select mask => Sys2Proof.Machine.execSelect mask s
  | .getval id => Sys2Proof.Machine.execGetval id s
  | .getsel => Sys2Proof.Machine.execGetsel s
  | .cfgch c en rep order k => Sys2Proof.Machine.execCfgch c en rep order k s
  | .cfghp h en src => Sys2Proof.Machine.execCfghp h en src s
  | .cfgbp b en brEn fast slow => Sys2Proof.Machine.execCfgbp b en brEn fast slow s
  | .cfgbq en variant alpha damp => Sys2Proof.Machine.execCfgbq en variant alpha damp s

end Sys2Proof.Machine
end

