-- ==== Sys2Proof/Machine/Ports.lean ====
section
/-! DEFINITION. The ports (R40), the acceptance of a command (R41, R110), one transaction, and what a run of the block is (R41, R122). -/

namespace Sys2Proof.Machine

/-- The input ports when the host drives nothing: reset released, no command offered (log entry 4). -/
def idlePins : HostPins := ⟨true, false, 0#36⟩

/-- The input ports with a command word offered. -/
def offer (w : CmdWord) : HostPins := ⟨true, true, w⟩

/-- The input ports in the next step (log entry 4). -/
def State.pinsNow (s : State) : HostPins := s.pins.headD idlePins

/-- The state once the host has moved on from what it drives now. -/
def State.pinsPassed (s : State) : State := { s with pins := s.pins.tail }

/-- `cmd_ready`: between commands the block is ready unless `rst_n` is asserted (R40, R41, R150; log entry 6). -/
def State.cmdReady (s : State) : Bool := s.pinsNow.rstN

/-- A command is accepted when `cmd_valid` and `cmd_ready` are both 1 (R41). -/
def State.accepts (s : State) : Bool := s.pinsNow.cmdValid && s.cmdReady

/-- `rsp_valid` (R40). -/
def State.rspValid (s : State) : Bool := s.rsp.isSome

/-- `rsp_status` while `rsp_valid` is 1 (R40, R54). -/
def State.rspStatus (s : State) : Option (BitVec 3) := s.rsp.map fun r => r.status.code

/-- `rsp_data` while `rsp_valid` is 1 (R40, R54). -/
def State.rspData (s : State) : Option Word := s.rsp.map Response.data

/-- Decode and dispatch of an accepted word: `ERR_ILLEGAL` before every other check (R110). -/
def runWord (w : CmdWord) (s : State) : Host.Outcome State Fault Refusal :=
  match decode w with
  | .error _ => raise .illegal s
  | .ok i => exec i s

/-- What the block does with what is on its input ports: power-on reset while `rst_n` is asserted,
the accepted command, or nothing (R40, R41, R136, R150). -/
def runPins (p : HostPins) (s : State) : Host.Outcome State Fault Refusal :=
  if p.rstN then (if p.cmdValid then runWord p.cmdWord s else .next s) else .next (powerOnReset s)

/-- The responses to a list of commands, in order: what a run of the block is (R41, R122). -/
def responses : List CmdWord → State → List Response
  | [], _ => []
  | w :: ws, s =>
    match runWord w s with
    | .next t => t.rsp.toList ++ responses ws t
    | .fault _ => []
    | .refused _ => []

/-- The state after a list of commands. -/
def after : List CmdWord → State → State
  | [], s => s
  | w :: ws, s =>
    match runWord w s with
    | .next t => after ws t
    | .fault _ => s
    | .refused _ => s

end Sys2Proof.Machine
end

