-- ==== Sys2Proof/Machine/Step.lean ====
section
/-! DEFINITION. One step: the block takes what the host drives on its input ports and acts on it (R40, R41). -/

namespace Sys2Proof.Machine

/-- One step of the block (R41; log entry 4). -/
def step (s : State) : Host.Outcome State Fault Refusal := runPins s.pinsNow s.pinsPassed

/-- `s` with a table word offered on the command port in the very next step (log entries 4, 8). -/
def State.withFetchWord (s : State) (nbits w : Nat) : State :=
  { s with pins := offer (BitVec.ofNat 36 (w % 2 ^ nbits)) :: s.pins }

end Sys2Proof.Machine
end

