-- ==== Sys2Proof/Safety.lean ====
section
/-! DEFINITION. The terms claims are made in: what a word stands for (R8), when integer updates are exact (R77, R105), which words are illegal (R53), and the invariants of the registers (R15, R27, R75, R111). -/

namespace Sys2Proof.Machine

/-! ### Values -/

/-- The value of a finite binary32 pattern in units of 2^-149; `none` for infinities and NaNs (R70). -/
def f32Units (b : Word) : Option Int :=
  match f32Unpack b with
  | .nan => none
  | .inf _ => none
  | .fin neg mag => some (signedMag neg mag)

/-- One, in units of 2^-149. -/
def f32One : Int := ((2 ^ 149 : Nat) : Int)

/-- `b` is finite and its value lies between the integers `lo` and `hi`. -/
def f32Within (lo hi : Int) (b : Word) : Prop :=
  ∃ v, f32Units b = some v ∧ lo * f32One ≤ v ∧ v ≤ hi * f32One

/-- `b` is finite. -/
def f32Finite (b : Word) : Prop := ∃ v, f32Units b = some v

/-- The real value an accumulator word stands for (R8, R11); `none` for an infinity or a NaN. -/
def repValue (rep : Rep) (a : Word) : Option ℚ :=
  match rep with
  | .i16 => some ((a.setWidth 16).toInt : ℚ)
  | .q8_8 => some ((a.toInt : ℚ) / 256)
  | .q16_16 => some ((a.toInt : ℚ) / 65536)
  | .f32 => (f32Units a).map fun v => (v : ℚ) / (f32One : ℚ)

/-! ### Exactness: the documented overflow boundary -/

/-- `-2^(N-1) <= v <= 2^(N-1) - 1`: `wrap_N` leaves `v` as it is. -/
def fits (n : Nat) (v : Int) : Prop := -((2 ^ (n - 1) : Nat) : Int) ≤ v ∧ v ≤ ((2 ^ (n - 1) : Nat) : Int) - 1

/-- The rounding addend `b` of R77: 0 for `k = 1`, `2^(k-1)` for `k >= 2`. -/
def addend (k : Nat) : Int := if k = 1 then 0 else ((2 ^ (k - 1) : Nat) : Int)

/-- The condition of R77 under which an integer EMA update is exact. -/
def emaInRange (n : Nat) (y input : Int) (k : Nat) : Prop :=
  -((2 ^ (n - 1) : Nat) : Int) ≤ input - y ∧ input - y + addend k ≤ ((2 ^ (n - 1) : Nat) : Int) - 1

/-- No `wrap_N` in an integer EMA update changes a value (R77): not the difference, not the biased
difference, not the sum. -/
def emaNoWrap {n : Nat} (y input : BitVec n) (k : Nat) : Prop :=
  fits n (input.toInt - y.toInt) ∧ fits n (input.toInt - y.toInt + addend k) ∧
    fits n (y.toInt + (input.toInt - y.toInt + addend k) / ((2 ^ k : Nat) : Int))

/-- The rounded shift of R66 over the integers. -/
def rshrExact (v : Int) (s : Nat) : Int :=
  if s = 0 then v else (v + ((2 ^ (s - 1) : Nat) : Int)) / ((2 ^ s : Nat) : Int)

/-- A biquad step of variant `I16_SHIFT` over the integers: the new (high, band, low) (R100, R101). -/
def biquad16Exact (x band low : Int) (s : Nat) : Int × Int × Int :=
  let h := x - band - low
  let b := band + rshrExact h s
  (h, b, low + rshrExact b s)

/-- The addend of R66 as the exactness conditions of R105 see it. -/
def rshrAddend (s : Nat) : Int := if s = 0 then 0 else ((2 ^ (s - 1) : Nat) : Int)

/-- R105 for variant 0: every intermediate lies in the 16-bit range. -/
def biquad16InRange (x band low : Int) (s : Nat) : Prop :=
  fits 16 (biquad16Exact x band low s).1 ∧ fits 16 ((biquad16Exact x band low s).1 + rshrAddend s) ∧
    fits 16 (biquad16Exact x band low s).2.1 ∧ fits 16 ((biquad16Exact x band low s).2.1 + rshrAddend s) ∧
    fits 16 (biquad16Exact x band low s).2.2

/-- The rounded multiply of R67 over the integers. -/
def mulExact (v : Int) (c : Nat) : Int := (v * (c : Int) + 128) / 256

/-- A biquad step of variant `Q8_8_MUL` over the integers: the new (high, band, low) (R100, R102). -/
def biquad32Exact (x band low : Int) (alpha damp : Nat) : Int × Int × Int :=
  let h := 256 * x - mulExact band damp - low
  let b := band + mulExact h alpha
  (h, b, low + mulExact b alpha)

/-- R105 for variant 1: the three sums lie in the 32-bit range. -/
def biquad32InRange (x band low : Int) (alpha damp : Nat) : Prop :=
  fits 32 (biquad32Exact x band low alpha damp).1 ∧ fits 32 (biquad32Exact x band low alpha damp).2.1 ∧
    fits 32 (biquad32Exact x band low alpha damp).2.2

/-! ### Words and configurations -/

/-- The unassigned opcodes (R43, R53 a). -/
def unassignedOps : List (BitVec 4) := [0x0#4, 0x6#4, 0x7#4, 0xC#4, 0xD#4, 0xE#4, 0xF#4]

/-- The reserved bits of the format of an assigned opcode, as a mask over the command word (R44 to R51). -/
def reservedMask (op : BitVec 4) : CmdWord :=
  match op.toNat with
  | 0x1 => 0x0FFFF0000#36
  | 0x2 => 0x0FFFFFFFF#36
  | 0x3 => 0x0E0000000#36
  | 0x4 => 0x0FFFFFFE0#36
  | 0x5 => 0x0FFFFFFFF#36
  | 0x8 => 0x0FFFFF000#36
  | 0x9 => 0x0FFFFFF00#36
  | 0xA => 0x0FFFFE000#36
  | 0xB => 0x0FC000000#36
  | _ => 0#36

/-- The illegal words, by the three cases of R53. -/
def illegalWord (w : CmdWord) : Prop :=
  opOf w ∈ unassignedOps ∨ w &&& reservedMask (opOf w) ≠ 0#36 ∨
    (opOf w = 0x8#4 ∧ 6 ≤ (w.extractLsb' 0 3).toNat)

/-- Two register files with the same configuration and the same selection mask. -/
def sameConfig (r q : Regs) : Prop := r.ch = q.ch ∧ r.hp = q.hp ∧ r.bp = q.bp ∧ r.bq = q.bq ∧ r.sel = q.sel

/-- Two register files that differ at most in the selection mask. -/
def sameButSel (r q : Regs) : Prop := r = { q with sel := r.sel }

/-- The outcome is a next state whose response has this status and data 0 and whose registers are
the old ones: what `raise` gives (R7, R131). -/
def raisedBy (e : Status) (o : Host.Outcome State Fault Refusal) (s : State) : Prop :=
  o = .next { s with rsp := some ⟨e, 0#32⟩ }

/-- An integer updater converges: with the input held, after some `m` updates, at most as many as the
distance, it is at rest inside the stall band; every iterate up to there lies between the start and the
input, and each of those updates brings it strictly nearer (R77, R87 a). -/
def emaConverges {n : Nat} (upd : BitVec n → BitVec n → Nat → BitVec n) : Prop :=
  ∀ (y input : BitVec n) (k : Nat), k ∈ Config.legalK → emaInRange n y.toInt input.toInt k →
    ∃ m, m ≤ (input.toInt - y.toInt).natAbs ∧
      upd ((fun v => upd v input k)^[m] y) input k = (fun v => upd v input k)^[m] y ∧
      -addend k ≤ input.toInt - ((fun v => upd v input k)^[m] y).toInt ∧
      input.toInt - ((fun v => upd v input k)^[m] y).toInt < ((2 ^ k : Nat) : Int) - addend k ∧
      (∀ j, j ≤ m → min y.toInt input.toInt ≤ ((fun v => upd v input k)^[j] y).toInt ∧
        ((fun v => upd v input k)^[j] y).toInt ≤ max y.toInt input.toInt) ∧
      (∀ j, j < m → (input.toInt - ((fun v => upd v input k)^[j + 1] y).toInt).natAbs <
        (input.toInt - ((fun v => upd v input k)^[j] y).toInt).natAbs)

/-- What R77 says of an integer updater: exact exactly in range, and then between the old value and
the input, at rest exactly in the stall band. -/
def emaExactness {n : Nat} (upd : BitVec n → BitVec n → Nat → BitVec n) : Prop :=
  ∀ (y input : BitVec n) (k : Nat), k ∈ Config.legalK →
    (emaNoWrap y input k ↔ emaInRange n y.toInt input.toInt k) ∧
    (emaInRange n y.toInt input.toInt k →
      (upd y input k).toInt = y.toInt + (input.toInt - y.toInt + addend k) / ((2 ^ k : Nat) : Int) ∧
      min y.toInt input.toInt ≤ (upd y input k).toInt ∧ (upd y input k).toInt ≤ max y.toInt input.toInt ∧
      (upd y input k = y ↔
        -addend k ≤ input.toInt - y.toInt ∧ input.toInt - y.toInt < ((2 ^ k : Nat) : Int) - addend k))

/-- What R81 to R83 compute, over the integers with `wrap_N` as the residue in `-2^(N-1) .. 2^(N-1) - 1`.
The rules define it for the exponents of `LEGAL_K`; at every other k >= 2 it is the model's (log entry 7). -/
def emaLaw {n : Nat} (upd : BitVec n → BitVec n → Nat → BitVec n) : Prop :=
  ∀ (y input : BitVec n) (k : Nat),
    let d := Int.bmod (input.toInt - y.toInt) (2 ^ n)
    (upd y input 1).toInt = Int.bmod (y.toInt + d / 2) (2 ^ n) ∧
    (2 ≤ k → (upd y input k).toInt =
      Int.bmod (y.toInt + Int.bmod (d + ((2 ^ (k - 1) : Nat) : Int)) (2 ^ n) / ((2 ^ k : Nat) : Int)) (2 ^ n))

/-- `r` units is the value of `b`, and no finite value is nearer to the exact `num / den` units; when
another is as near, `b` has an even significand (R72, R73: round to nearest, ties to even). -/
def f32Nearest (num den : Int) (b : Word) (r : Int) : Prop :=
  f32Units b = some r ∧ ∀ (c : Word) (v : Int), f32Units c = some v →
    |num - r * den| ≤ |num - v * den| ∧
      (|num - r * den| = |num - v * den| → v ≠ r → b.getLsbD 0 = false)

/-! ### Invariants of the registers -/

/-- Every accumulator of an `I16` channel lies between `lo` and `hi` (R77). -/
def Regs.i16Within (lo hi : Int) (r : Regs) : Prop :=
  ∀ (c : Fin 6) (s : Fin 3), (r.readCh c).rep = .i16 → lo ≤ (r.readAcc c s).toInt ∧ (r.readAcc c s).toInt ≤ hi

/-- Every accumulator of a `Q16_16` channel stands for a value between `lo` and `hi` (R77). -/
def Regs.q16Within (lo hi : Int) (r : Regs) : Prop :=
  ∀ (c : Fin 6) (s : Fin 3), (r.readCh c).rep = .q16_16 →
    65536 * lo ≤ (r.readAcc c s).toInt ∧ (r.readAcc c s).toInt ≤ 65536 * hi

/-- All accumulators and latches are 0, their value after either reset (R25). -/
def Regs.historyZero (r : Regs) : Prop :=
  (∀ (c : Fin 6) (s : Fin 3), r.readAcc c s = 0#32) ∧ r.bqLow = 0#32 ∧ r.bqBand = 0#32 ∧ r.bqHigh = 0#32 ∧
    (∀ h : Fin 4, (r.readHpout h) = 0#32) ∧ (∀ b : Fin 2, (r.readBpout b) = 0#32) ∧ (∀ b : Fin 2, (r.readBrout b) = 0#32)

/-- The flags tell the history: `STALE` only after a `STEP`, and nothing but zeros before one (R15, R25, R116). -/
def Regs.historyInv (r : Regs) : Prop :=
  (r.stale = true → r.stepped = true) ∧ (r.stepped = false → r.historyZero)

/-- A word holds `sext_32` of a 16-bit value: bits 31:16 are copies of bit 15 (R11, R27). -/
def fits16 (w : Word) : Prop := w = sext32 (w.setWidth 16)

/-- The typing invariant (R27). -/
def Regs.typed (r : Regs) : Prop :=
  r.stale = false →
    (∀ (c : Fin 6) (s : Fin 3), (r.readCh c).rep = .i16 → fits16 (r.readAcc c s)) ∧
    (r.bq.variant = .i16Shift → fits16 r.bqLow ∧ fits16 r.bqBand ∧ fits16 r.bqHigh)

/-- Registers of disabled units keep their reset value 0 (R111). -/
def Regs.idleZero (r : Regs) : Prop :=
  r.stale = false →
    (∀ (c : Fin 6) (s : Fin 3), r.stageEnabled c s = false → r.readAcc c s = 0#32) ∧
    (∀ h : Fin 4, (r.readHp h).en = false → (r.readHpout h) = 0#32) ∧
    (∀ b : Fin 2, (r.readBp b).en = false → (r.readBpout b) = 0#32) ∧
    (∀ b : Fin 2, (r.readBp b).brEn = false → (r.readBrout b) = 0#32) ∧
    (r.bq.en = false → r.bqLow = 0#32 ∧ r.bqBand = 0#32 ∧ r.bqHigh = 0#32)

/-- While results may be read, the configuration is valid (R114). -/
def Regs.readableValid (r : Regs) : Prop := r.stale = false → r.stepped = true → r.cfgValid = true

/-- Every `Q8_8` accumulator stays in the range of the widened samples, so its updates are exact (R77). -/
def Regs.q8InRange (r : Regs) : Prop :=
  r.stale = false → ∀ (c : Fin 6) (s : Fin 3), (r.readCh c).rep = .q8_8 →
    -8388608 ≤ (r.readAcc c s).toInt ∧ (r.readAcc c s).toInt ≤ 8388352

/-- Every `F32` accumulator is finite and within the sample range, and every `FLOAT`-class latch is
finite (R75). -/
def Regs.floatsFinite (r : Regs) : Prop :=
  r.stale = false →
    (∀ (c : Fin 6) (s : Fin 3), (r.readCh c).rep = .f32 → f32Within (-32768) 32767 (r.readAcc c s)) ∧
    (∀ (h : Fin 4) (t : Tap), tapOfId (r.readHp h).src = some t → r.tapClass t = .float → f32Finite (r.readHpout h)) ∧
    (∀ (b : Fin 2) (t : Tap), tapOfId (r.readBp b).fast = some t → r.tapClass t = .float →
      f32Finite (r.readBpout b) ∧ f32Finite (r.readBrout b))

end Sys2Proof.Machine
end

