-- ==== Sys2Proof/Certificates/Slice0/Obligations.lean ====
section
/-! DEFINITION. The statements for the provers, from the numbered rules of spec/: encoding, ports and responses, each command's result, completion and frame, the arithmetic, the whole-machine rules and the invariants. -/

open Sys2Proof Sys2Proof.Machine

/-! ### Encoding -/

/-- Words written out from the formats (R44 to R51; the words of 95_test_vectors.md V-C1) decode to the
commands they stand for. -/
def Obligations.SpecWordsDecodeToTheirCommands : Prop :=
  decode 0x10000FFCE#36 = .ok (.step (BitVec.ofInt 16 (-50))) ∧
  decode 0x200000000#36 = .ok .reset ∧
  decode 0x300040001#36 = .ok (.select 0x00040001#29) ∧
  decode 0x400000012#36 = .ok (.getval 18#5) ∧
  decode 0x500000000#36 = .ok .getsel ∧
  decode 0x8000005BD#36 = .ok (.cfgch 5#3 true .f32 2#2 5#4) ∧
  decode 0x90000007F#36 = .ok (.cfghp 3#2 true 15#5) ∧
  decode 0xA0000061E#36 = .ok (.cfgbp 0#1 true true 3#5 6#5) ∧
  decode 0xB03100040#36 = .ok (.cfgbq true .q8Mul 64#12 256#12)

/-- Decoding an encoded well-formed command gives it back (R43 to R51). -/
def Obligations.DecodeInvertsEncode : Prop :=
  ∀ i : Instr, i.wellFormed = true → decode (encode i) = .ok i

/-- A word that decodes is the encoding of what it decodes to, and that is well formed: every word has
at most one meaning (R53). -/
def Obligations.EncodeInvertsDecode : Prop :=
  ∀ (w : CmdWord) (i : Instr), decode w = .ok i → encode i = w ∧ i.wellFormed = true

/-- R53: a word is answered with `ERR_ILLEGAL`, data 0 and no change of state, exactly when its opcode is
unassigned, a reserved bit of its format is 1, or it is `CFGCH` with channel 6 or 7. -/
def Obligations.IllegalWordsExactly : Prop :=
  ∀ (w : CmdWord) (s : State), illegalWord w ↔ raisedBy .illegal (runWord w s) s

/-- The opcode table: a word decodes exactly when it is in a row of the table, for `CFGCH` with a channel
0 to 5; then it is in exactly one row, the row of the command it decodes to. -/
def Obligations.LegalWordsAreTheTableRows : Prop :=
  (∀ (w : CmdWord) (row : TableRow), row ∈ opcodeTable → w &&& row.mask = row.matchBits →
    (row.mnemonic = "CFGCH" → (w.extractLsb' 0 3).toNat < 6) → ∃ i, decode w = .ok i ∧ i.tableRow = row) ∧
  (∀ (w : CmdWord) (i : Instr), decode w = .ok i →
    i.tableRow ∈ opcodeTable ∧ w &&& i.tableRow.mask = i.tableRow.matchBits ∧
    ∀ row ∈ opcodeTable, w &&& row.mask = row.matchBits → row = i.tableRow)

/-! ### Ports, reset, responses -/

/-- R150, R25: after power-on every register is 0, and while `rst_n` is asserted a step gives that state
from any state, with no command accepted, whatever is offered. -/
def Obligations.PowerOnResetZeroesEverything : Prop :=
  Regs.powerOn.historyZero ∧ Regs.powerOn.stepped = false ∧ Regs.powerOn.stale = false ∧
  (∀ c, Regs.powerOn.readCh c = ⟨false, .i16, 0#2, 0#4⟩) ∧ (∀ h, Regs.powerOn.readHp h = ⟨false, 0#5⟩) ∧
  (∀ b, Regs.powerOn.readBp b = ⟨false, false, 0#5, 0#5⟩) ∧
  Regs.powerOn.bq = ⟨false, .i16Shift, 0#12, 0#12⟩ ∧ Regs.powerOn.sel = 0#29 ∧
  State.reset.regs = Regs.powerOn ∧ Regs.powerOn.cfgValid = true ∧
  ∀ (s : State) (v : Bool) (w : CmdWord) (rest : List HostPins), s.pins = ⟨false, v, w⟩ :: rest →
    s.cmdReady = false ∧ s.accepts = false ∧ ∃ t, step s = .next t ∧ t.regs = Regs.powerOn ∧ t.pins = rest

/-- R110, R41, R136: a step with a legal word on the command port is that command's `exec` at the state whose
ports have moved on; an illegal word is refused; with no command offered no register changes. That the ports are
a list which moves on, and an empty list is idle, is the model's (log entry 4); so are the response held through
an idle step (log entry 5) and the command executed whole in one step (log entry 6). -/
def Obligations.StepRunsTheDecodedCommand : Prop :=
  (∀ (s : State) (w : CmdWord) (i : Instr) (rest : List HostPins), s.pins = offer w :: rest →
    decode w = .ok i → s.cmdReady = true ∧ s.accepts = true ∧ step s = exec i { s with pins := rest }) ∧
  (∀ (s : State) (w : CmdWord) (e : Illegal) (rest : List HostPins), s.pins = offer w :: rest →
    decode w = .error e → raisedBy .illegal (step s) { s with pins := rest }) ∧
  (∀ (s : State) (w : CmdWord) (rest : List HostPins), s.pins = ⟨true, false, w⟩ :: rest →
    step s = .next { s with pins := rest }) ∧
  (∀ s : State, s.pins = [] → step s = .next s)

/-- R160, R41: every accepted command is answered, exactly once, whatever the word and the state; a step
never faults and is never refused by the model. -/
def Obligations.EveryCommandIsAnswered : Prop :=
  (∀ (w : CmdWord) (s : State), ∃ t p, runWord w s = .next t ∧ t.rsp = some p ∧ t.pins = s.pins) ∧
  (∀ (ws : List CmdWord) (s : State), (responses ws s).length = ws.length) ∧
  (∀ s : State, ∃ t, step s = .next t)

/-- R131: a command that raises ends with data 0 and every register as before, and the next command is
decoded and executed as if it had not been issued. -/
def Obligations.RefusedCommandChangesNothing : Prop :=
  ∀ (w : CmdWord) (s t : State) (p : Response), runWord w s = .next t → t.rsp = some p → p.status ≠ .ok →
    p.data = 0#32 ∧ t.regs = s.regs ∧ t.pins = s.pins ∧
    ∀ (w' : CmdWord), runWord w' t = runWord w' s

/-- R130: the codes of the errors, which command raises which of them, and exactly why. -/
def Obligations.StatusHasItsExactCause : Prop :=
  (Status.illegal.code = 1#3 ∧ Status.config.code = 2#3 ∧ Status.stale.code = 3#3 ∧ Status.notReady.code = 4#3 ∧
    Status.disabled.code = 5#3) ∧
  ∀ (w : CmdWord) (s t : State) (d : Word) (e : Status), runWord w s = .next t → t.rsp = some ⟨e, d⟩ →
    (e = .illegal ↔ illegalWord w) ∧
    (e = .config → ∃ x, decode w = .ok (.step x) ∧ s.regs.cfgValid = false) ∧
    (e = .stale → s.regs.stale = true ∧ ((∃ x, decode w = .ok (.step x)) ∨ ∃ id, decode w = .ok (.getval id))) ∧
    (e = .notReady → ∃ id, decode w = .ok (.getval id) ∧ s.regs.stepped = false) ∧
    (e = .disabled → ∃ id, decode w = .ok (.getval id) ∧ s.regs.idEnabled id = false)

/-- R132: the priority of the causes, highest first. -/
def Obligations.RefusalPriority : Prop :=
  (∀ (w : CmdWord) (s : State), illegalWord w → raisedBy .illegal (runWord w s) s) ∧
  (∀ (x : Sample) (s : State), s.regs.stale = true → raisedBy .stale (exec (.step x) s) s) ∧
  (∀ (x : Sample) (s : State), s.regs.stale = false → s.regs.cfgValid = false →
    raisedBy .config (exec (.step x) s) s) ∧
  (∀ (id : BitVec 5) (s : State), s.regs.stale = true → raisedBy .stale (exec (.getval id) s) s) ∧
  (∀ (id : BitVec 5) (s : State), s.regs.stale = false → s.regs.stepped = false →
    raisedBy .notReady (exec (.getval id) s) s) ∧
  (∀ (id : BitVec 5) (s : State), s.regs.stale = false → s.regs.stepped = true →
    s.regs.idEnabled id = false → raisedBy .disabled (exec (.getval id) s) s)

/-- R54, R40: `OK` is code 0 and no error has it, codes 6 and 7 are never produced, and `rsp_data` is 0 for every
command except a `GETVAL` or `GETSEL` that ends with `OK`. After a step that accepts a command, `rsp_valid` is 1 and
`rsp_status` and `rsp_data` show its response. (The response held in State and the pins are the model's, log
entries 4, 5.) -/
def Obligations.DataOnlyFromReads : Prop :=
  Status.ok.code = 0#3 ∧
  (∀ (w : CmdWord) (s t : State) (p : Response), runWord w s = .next t → t.rsp = some p →
    (p.status.code = 0#3 ↔ p.status = .ok) ∧ p.status.code ≠ 6#3 ∧ p.status.code ≠ 7#3 ∧
    (p.data ≠ 0#32 → p.status = .ok ∧ (decode w = .ok .getsel ∨ ∃ id, decode w = .ok (.getval id)))) ∧
  (∀ s t : State, s.accepts = true → step s = .next t →
    s.cmdReady = true ∧ t.rspValid = true ∧
    ∃ (d : Word) (e : Status) (u : State), runWord s.pinsNow.cmdWord s.pinsPassed = .next u ∧
      u.rsp = some ⟨e, d⟩ ∧ t.rspStatus = some e.code ∧ t.rspData = some d)

/-! ### Predicates over the configuration -/

/-- R21, R22, R31: `tap_enabled` and `id_enabled` by the id map. -/
def Obligations.EnabledByTheIdMap : Prop :=
  ∀ (r : Regs) (i : BitVec 5),
    (r.tapEnabled i = true ↔ ∃ (c : Fin 6) (s : Fin 3), i.toNat = 3 * c.val + s.val ∧
      (r.readCh c).en = true ∧ s.val + 1 ≤ (r.readCh c).order.toNat) ∧
    (i.toNat ≤ 17 → r.idEnabled i = r.tapEnabled i) ∧
    (∀ h : Fin 4, i.toNat = 18 + h.val → r.idEnabled i = (r.readHp h).en) ∧
    (∀ b : Fin 2, i.toNat = 22 + b.val → r.idEnabled i = (r.readBp b).en) ∧
    (∀ b : Fin 2, i.toNat = 24 + b.val → r.idEnabled i = (r.readBp b).brEn) ∧
    (26 ≤ i.toNat → i.toNat ≤ 28 → r.idEnabled i = r.bq.en) ∧
    (29 ≤ i.toNat → r.idEnabled i = false)

/-- R23: `cfg_valid` is true exactly when its six clauses hold; it is true with everything disabled. -/
def Obligations.CfgValidIsTheSixClauses : Prop :=
  Regs.powerOn.cfgValid = true ∧ ∀ r : Regs, r.cfgValid = true ↔
    (∀ c, (r.readCh c).en = true →
      ((r.readCh c).order.toNat = 1 ∨ (r.readCh c).order.toNat = 2 ∨ (r.readCh c).order.toNat = 3) ∧
      ((r.readCh c).k.toNat = 1 ∨ (r.readCh c).k.toNat = 2 ∨ (r.readCh c).k.toNat = 3 ∨
        (r.readCh c).k.toNat = 4 ∨ (r.readCh c).k.toNat = 5 ∨ (r.readCh c).k.toNat = 8)) ∧
    (∀ h, (r.readHp h).en = true → r.tapEnabled (r.readHp h).src = true) ∧
    (∀ b, (r.readBp b).en = true →
      r.tapEnabled (r.readBp b).fast = true ∧ r.tapEnabled (r.readBp b).slow = true ∧
      ∀ f s : Tap, tapOfId (r.readBp b).fast = some f → tapOfId (r.readBp b).slow = some s →
        r.tapClass f = r.tapClass s ∧ r.tapK f < r.tapK s) ∧
    (∀ b, (r.readBp b).brEn = true → (r.readBp b).en = true) ∧
    (r.bq.en = true → r.bq.variant = .i16Shift → r.bq.alpha.toNat ≤ 15 ∧ r.bq.damp.toNat = 256) ∧
    (r.bq.en = true → r.bq.variant = .q8Mul → r.bq.alpha.toNat ≤ 256 ∧ r.bq.damp.toNat ≤ 256)

/-! ### STEP -/

/-- R91, R111: an accepted `STEP` answers `OK` and updates every enabled stage once, stage 1 from the
sample, each later stage from the NEW value of the stage before it; stages above the order are not written. -/
def Obligations.StepUpdatesTheCascades : Prop :=
  ∀ (x : Sample) (s : State), s.regs.stale = false → s.regs.cfgValid = true →
    ∃ t, exec (.step x) s = .next t ∧ t.rsp = some ⟨.ok, 0#32⟩ ∧ t.regs.stepped = true ∧
    ∀ c : Fin 6,
      ((s.regs.readCh c).en = true →
        t.regs.readAcc c 0 = ema (s.regs.readCh c).rep (s.regs.readAcc c 0)
          (stageInput (s.regs.readCh c).rep x) (s.regs.readCh c).k.toNat) ∧
      ((s.regs.readCh c).en = true → 2 ≤ (s.regs.readCh c).order.toNat →
        t.regs.readAcc c 1 = ema (s.regs.readCh c).rep (s.regs.readAcc c 1) (t.regs.readAcc c 0)
          (s.regs.readCh c).k.toNat) ∧
      ((s.regs.readCh c).en = true → 3 ≤ (s.regs.readCh c).order.toNat →
        t.regs.readAcc c 2 = ema (s.regs.readCh c).rep (s.regs.readAcc c 2) (t.regs.readAcc c 1)
          (s.regs.readCh c).k.toNat) ∧
      (∀ g : Fin 3, ((s.regs.readCh c).en = false ∨ (s.regs.readCh c).order.toNat < g.val + 1) →
        t.regs.readAcc c g = s.regs.readAcc c g)

/-- R96: every enabled high-pass latch becomes the sample less the visible value its tap has AFTER the
update, in the tap's numeric class; a disabled one keeps its value. -/
def Obligations.StepComputesHighPass : Prop :=
  ∀ (x : Sample) (s : State), s.regs.stale = false → s.regs.cfgValid = true →
    ∃ t, exec (.step x) s = .next t ∧ t.rsp = some ⟨.ok, 0#32⟩ ∧
    ∀ h : Fin 4,
      ((s.regs.readHp h).en = true → ∃ p : Tap, tapOfId (s.regs.readHp h).src = some p ∧
        (s.regs.tapClass p = .int →
          t.regs.readHpout h = wrap 32 (x.toInt - (t.regs.tapVal p).toInt)) ∧
        (s.regs.tapClass p = .float →
          t.regs.readHpout h = f32Sub (f32OfI16 x) (t.regs.readAcc p.ch p.stage))) ∧
      ((s.regs.readHp h).en = false → t.regs.readHpout h = s.regs.readHpout h)

/-- R97, R98: every enabled band-pass latch becomes the fast tap less the slow tap, both after the update,
and every enabled band-reject latch the sample less the NEW band-pass value; disabled ones keep theirs. -/
def Obligations.StepComputesBandPassAndReject : Prop :=
  ∀ (x : Sample) (s : State), s.regs.stale = false → s.regs.cfgValid = true →
    ∃ t, exec (.step x) s = .next t ∧ t.rsp = some ⟨.ok, 0#32⟩ ∧
    ∀ b : Fin 2,
      ((s.regs.readBp b).en = true → ∃ f g : Tap,
        tapOfId (s.regs.readBp b).fast = some f ∧ tapOfId (s.regs.readBp b).slow = some g ∧
        (s.regs.tapClass f = .int →
          t.regs.readBpout b = wrap 32 ((t.regs.tapVal f).toInt - (t.regs.tapVal g).toInt)) ∧
        (s.regs.tapClass f = .float →
          t.regs.readBpout b = f32Sub (t.regs.readAcc f.ch f.stage) (t.regs.readAcc g.ch g.stage))) ∧
      ((s.regs.readBp b).en = false → t.regs.readBpout b = s.regs.readBpout b) ∧
      ((s.regs.readBp b).brEn = true → ∃ f : Tap, tapOfId (s.regs.readBp b).fast = some f ∧
        (s.regs.tapClass f = .int →
          t.regs.readBrout b = wrap 32 (x.toInt - (t.regs.readBpout b).toInt)) ∧
        (s.regs.tapClass f = .float →
          t.regs.readBrout b = f32Sub (f32OfI16 x) (t.regs.readBpout b))) ∧
      ((s.regs.readBp b).brEn = false → t.regs.readBrout b = s.regs.readBrout b)

/-- R101, R102: one biquad update in each variant, the three lines in order; a disabled biquad keeps its
three registers. -/
def Obligations.StepUpdatesTheBiquad : Prop :=
  ∀ (x : Sample) (s : State), s.regs.stale = false → s.regs.cfgValid = true →
    ∃ t, exec (.step x) s = .next t ∧ t.rsp = some ⟨.ok, 0#32⟩ ∧
    (s.regs.bq.en = true → s.regs.bq.variant = .i16Shift →
      ∃ h b l : BitVec 16,
        h = wrap 16 (x.toInt - (s.regs.bqBand.setWidth 16).toInt - (s.regs.bqLow.setWidth 16).toInt) ∧
        b = wrap 16 ((s.regs.bqBand.setWidth 16).toInt + (rshr h s.regs.bq.alpha.toNat).toInt) ∧
        l = wrap 16 ((s.regs.bqLow.setWidth 16).toInt + (rshr b s.regs.bq.alpha.toNat).toInt) ∧
        t.regs.bqHigh = sext32 h ∧ t.regs.bqBand = sext32 b ∧ t.regs.bqLow = sext32 l) ∧
    (s.regs.bq.en = true → s.regs.bq.variant = .q8Mul →
      t.regs.bqHigh = wrap 32 (256 * x.toInt - (mulrs8 s.regs.bqBand s.regs.bq.damp.toNat).toInt
        - s.regs.bqLow.toInt) ∧
      t.regs.bqBand = wrap 32 (s.regs.bqBand.toInt + (mulrs8 t.regs.bqHigh s.regs.bq.alpha.toNat).toInt) ∧
      t.regs.bqLow = wrap 32 (s.regs.bqLow.toInt + (mulrs8 t.regs.bqBand s.regs.bq.alpha.toNat).toInt)) ∧
    (s.regs.bq.en = false → t.regs.bqHigh = s.regs.bqHigh ∧ t.regs.bqBand = s.regs.bqBand ∧
      t.regs.bqLow = s.regs.bqLow)

/-- The frame of an accepted `STEP` (R24, R111): configuration, `SEL`, `STALE` and the ports unchanged, and
every accumulator and latch of a disabled unit or stage unchanged; `STEPPED` becomes 1. -/
def Obligations.StepFrame : Prop :=
  ∀ (x : Sample) (s : State), s.regs.stale = false → s.regs.cfgValid = true →
    ∃ t, exec (.step x) s = .next t ∧ sameConfig t.regs s.regs ∧ t.pins = s.pins ∧
    t.regs.stale = false ∧ t.regs.stepped = true ∧
    (∀ (c : Fin 6) (g : Fin 3), s.regs.stageEnabled c g = false → t.regs.readAcc c g = s.regs.readAcc c g) ∧
    (∀ h, (s.regs.readHp h).en = false → t.regs.readHpout h = s.regs.readHpout h) ∧
    (∀ b, (s.regs.readBp b).en = false → t.regs.readBpout b = s.regs.readBpout b) ∧
    (∀ b, (s.regs.readBp b).brEn = false → t.regs.readBrout b = s.regs.readBrout b) ∧
    (s.regs.bq.en = false → t.regs.bqHigh = s.regs.bqHigh ∧ t.regs.bqBand = s.regs.bqBand ∧
      t.regs.bqLow = s.regs.bqLow)

/-- R99: after an accepted `STEP`, in class `INT`, each high-pass plus its tap and each band-reject plus its
band-pass give the sample exactly, as integers. -/
def Obligations.IntegerReconstruction : Prop :=
  ∀ (x : Sample) (s t : State), s.regs.stale = false → s.regs.cfgValid = true →
    exec (.step x) s = .next t →
    (∀ (h : Fin 4) (p : Tap), (s.regs.readHp h).en = true → tapOfId (s.regs.readHp h).src = some p →
      s.regs.tapClass p = .int → (t.regs.readHpout h).toInt + (t.regs.tapVal p).toInt = x.toInt) ∧
    (∀ (b : Fin 2) (f : Tap), (s.regs.readBp b).brEn = true → tapOfId (s.regs.readBp b).fast = some f →
      s.regs.tapClass f = .int → (t.regs.readBrout b).toInt + (t.regs.readBpout b).toInt = x.toInt)

/-- R102 corner cases: full damping is the recurrence without a damping multiplier, zero damping removes the
band-pass feedback, and zero alpha freezes band and low while the high-pass is still recomputed. -/
def Obligations.BiquadDampingCorners : Prop :=
  ∀ (x : Sample) (s : State), s.regs.stale = false → s.regs.cfgValid = true →
    s.regs.bq.en = true → s.regs.bq.variant = .q8Mul →
    ∃ t, exec (.step x) s = .next t ∧
    (s.regs.bq.damp = 256#12 →
      t.regs.bqHigh.toInt = Int.bmod (256 * x.toInt - s.regs.bqBand.toInt - s.regs.bqLow.toInt) (2 ^ 32)) ∧
    (s.regs.bq.damp = 0#12 →
      t.regs.bqHigh.toInt = Int.bmod (256 * x.toInt - s.regs.bqLow.toInt) (2 ^ 32)) ∧
    (s.regs.bq.alpha = 0#12 → t.regs.bqBand = s.regs.bqBand ∧ t.regs.bqLow = s.regs.bqLow) ∧
    (s.regs.bq.alpha = 256#12 →
      t.regs.bqBand = s.regs.bqBand + t.regs.bqHigh ∧ t.regs.bqLow = s.regs.bqLow + t.regs.bqBand)

/-- R105: a biquad step whose intermediates stay in range is exact in both variants: the registers hold the
recurrence over the integers. -/
def Obligations.BiquadExactInRange : Prop :=
  ∀ (x : Sample) (s : State), s.regs.stale = false → s.regs.cfgValid = true → s.regs.bq.en = true →
    ∃ t, exec (.step x) s = .next t ∧
    (s.regs.bq.variant = .i16Shift →
      biquad16InRange x.toInt (s.regs.bqBand.setWidth 16).toInt (s.regs.bqLow.setWidth 16).toInt
        s.regs.bq.alpha.toNat →
      (t.regs.bqHigh.toInt, t.regs.bqBand.toInt, t.regs.bqLow.toInt) =
        biquad16Exact x.toInt (s.regs.bqBand.setWidth 16).toInt (s.regs.bqLow.setWidth 16).toInt
          s.regs.bq.alpha.toNat) ∧
    (s.regs.bq.variant = .q8Mul →
      biquad32InRange x.toInt s.regs.bqBand.toInt s.regs.bqLow.toInt s.regs.bq.alpha.toNat
        s.regs.bq.damp.toNat →
      (t.regs.bqHigh.toInt, t.regs.bqBand.toInt, t.regs.bqLow.toInt) =
        biquad32Exact x.toInt s.regs.bqBand.toInt s.regs.bqLow.toInt s.regs.bq.alpha.toNat
          s.regs.bq.damp.toNat)

/-! ### RESET, SELECT, GETVAL, GETSEL -/

/-- R112: `RESET` completes in every state with `OK`, zeroes accumulators, latches and flags, and keeps
configuration and `SEL`; a second `RESET` changes no register. -/
def Obligations.ResetZeroesHistoryKeepsConfig : Prop :=
  ∀ s : State, ∃ t, exec .reset s = .next t ∧ t.rsp = some ⟨.ok, 0#32⟩ ∧ t.pins = s.pins ∧
    t.regs.historyZero ∧ t.regs.stepped = false ∧ t.regs.stale = false ∧ sameConfig t.regs s.regs ∧
    ∃ u, exec .reset t = .next u ∧ u.regs = t.regs

/-- R151: after `RESET` the registers are those of power-on but for the configuration and `SEL`. -/
def Obligations.TheTwoResetsDifferOnlyInConfig : Prop :=
  ∀ s t : State, exec .reset s = .next t →
    t.regs = { Regs.powerOn with
      ch := s.regs.ch, hp := s.regs.hp, bp := s.regs.bp, bq := s.regs.bq, sel := s.regs.sel }

/-- R113: `SELECT` completes in every state, stores the mask and changes nothing else, not `STALE`. -/
def Obligations.SelectStoresOnlyTheMask : Prop :=
  ∀ (mask : BitVec 29) (s : State),
    exec (.select mask) s = .next { s with regs := { s.regs with sel := mask }, rsp := some ⟨.ok, 0#32⟩ }

/-- R114: an accepted `GETVAL` of an enabled id answers `OK` with the value of the table of R114, and changes
no register. -/
def Obligations.GetvalReturnsTheVisibleValue : Prop :=
  ∀ (id : BitVec 5) (s : State), s.regs.stale = false → s.regs.stepped = true → s.regs.idEnabled id = true →
    ∃ v : Word, exec (.getval id) s = .next { s with rsp := some ⟨.ok, v⟩ } ∧
    (∀ (c : Fin 6) (g : Fin 3), id.toNat = 3 * c.val + g.val →
      ((s.regs.readCh c).rep = .i16 → v = s.regs.readAcc c g) ∧
      ((s.regs.readCh c).rep = .q8_8 → v.toInt = (s.regs.readAcc c g).toInt / 256) ∧
      ((s.regs.readCh c).rep = .q16_16 → v.toInt = (s.regs.readAcc c g).toInt / 65536) ∧
      ((s.regs.readCh c).rep = .f32 → v = s.regs.readAcc c g)) ∧
    (∀ h : Fin 4, id.toNat = 18 + h.val → v = s.regs.readHpout h) ∧
    (∀ b : Fin 2, id.toNat = 22 + b.val → v = s.regs.readBpout b) ∧
    (∀ b : Fin 2, id.toNat = 24 + b.val → v = s.regs.readBrout b) ∧
    (s.regs.bq.variant = .i16Shift → (id.toNat = 26 → v = s.regs.bqLow) ∧
      (id.toNat = 27 → v = s.regs.bqBand) ∧ (id.toNat = 28 → v = s.regs.bqHigh)) ∧
    (s.regs.bq.variant = .q8Mul → (id.toNat = 26 → v.toInt = s.regs.bqLow.toInt / 256) ∧
      (id.toNat = 27 → v.toInt = s.regs.bqBand.toInt / 256) ∧
      (id.toNat = 28 → v.toInt = s.regs.bqHigh.toInt / 256))

/-- R115: `GETSEL` completes in every state with the zero-extended mask and changes no register. -/
def Obligations.GetselReturnsTheMask : Prop :=
  ∀ s : State, ∃ v : Word, exec .getsel s = .next { s with rsp := some ⟨.ok, v⟩ } ∧ v.toNat = s.regs.sel.toNat

/-! ### Configuration commands -/

/-- R117, R116: `CFGCH` on channels 0 to 5 completes in every state, stores its fields verbatim in that
channel's configuration and changes nothing else but `STALE`. That the TERM with channel 6 or 7, which no word decodes to, raises `ERR_ILLEGAL`
is the model's (log entry 10). -/
def Obligations.CfgchStoresItsFields : Prop :=
  ∀ (c : BitVec 3) (en : Bool) (rep : Rep) (order : BitVec 2) (k : BitVec 4) (s : State),
    (6 ≤ c.toNat → raisedBy .illegal (exec (.cfgch c en rep order k) s) s) ∧
    ∀ i : Fin 6, c.toNat = i.val →
      ∃ t, exec (.cfgch c en rep order k) s = .next t ∧ t.rsp = some ⟨.ok, 0#32⟩ ∧ t.pins = s.pins ∧
      t.regs.readCh i = ⟨en, rep, order, k⟩ ∧ (∀ j : Fin 6, j ≠ i → t.regs.readCh j = s.regs.readCh j) ∧
      t.regs.stale = (s.regs.stale || s.regs.stepped) ∧
      t.regs = { s.regs with ch := t.regs.ch, stale := t.regs.stale }

/-- R118, R116: `CFGHP` completes in every state, stores its fields in that combiner's configuration and
changes nothing else but `STALE`. -/
def Obligations.CfghpStoresItsFields : Prop :=
  ∀ (h : BitVec 2) (en : Bool) (src : BitVec 5) (s : State) (i : Fin 4), h.toNat = i.val →
    ∃ t, exec (.cfghp h en src) s = .next t ∧ t.rsp = some ⟨.ok, 0#32⟩ ∧ t.pins = s.pins ∧
    t.regs.readHp i = ⟨en, src⟩ ∧ (∀ j : Fin 4, j ≠ i → t.regs.readHp j = s.regs.readHp j) ∧
    t.regs.stale = (s.regs.stale || s.regs.stepped) ∧
    t.regs = { s.regs with hp := t.regs.hp, stale := t.regs.stale }

/-- R119, R116: `CFGBP` completes in every state, stores its fields in that combiner's configuration and
changes nothing else but `STALE`. -/
def Obligations.CfgbpStoresItsFields : Prop :=
  ∀ (b : BitVec 1) (en brEn : Bool) (fast slow : BitVec 5) (s : State) (i : Fin 2), b.toNat = i.val →
    ∃ t, exec (.cfgbp b en brEn fast slow) s = .next t ∧ t.rsp = some ⟨.ok, 0#32⟩ ∧ t.pins = s.pins ∧
    t.regs.readBp i = ⟨en, brEn, fast, slow⟩ ∧ (∀ j : Fin 2, j ≠ i → t.regs.readBp j = s.regs.readBp j) ∧
    t.regs.stale = (s.regs.stale || s.regs.stepped) ∧
    t.regs = { s.regs with bp := t.regs.bp, stale := t.regs.stale }

/-- R120, R116: `CFGBQ` completes in every state, stores its fields and changes nothing else but `STALE`. -/
def Obligations.CfgbqStoresItsFields : Prop :=
  ∀ (en : Bool) (variant : Variant) (alpha damp : BitVec 12) (s : State),
    ∃ t, exec (.cfgbq en variant alpha damp) s = .next t ∧ t.rsp = some ⟨.ok, 0#32⟩ ∧ t.pins = s.pins ∧
    t.regs = { s.regs with
      bq := ⟨en, variant, alpha, damp⟩, stale := s.regs.stale || s.regs.stepped }

/-! ### Arithmetic -/

/-- R62, R63: widening a sample into the fixed-point formats is exact for every sample. -/
def Obligations.WideningIsExact : Prop :=
  ∀ x : Sample, (q8OfI16 x).toInt = 256 * x.toInt ∧ (q16OfI16 x).toInt = 65536 * x.toInt

/-- R64, R8: the visible value of an integer-class word is the floor of the real value it stands for. -/
def Obligations.VisibleValueIsTheFloor : Prop :=
  ∀ (rep : Rep) (a : Word) (q : ℚ), classOf rep = .int → (rep = .i16 → fits16 a) → repValue rep a = some q →
    (visible rep a).toInt = ⌊q⌋

/-- R65: `rinc_N` is `floor(d / 2)` for `k = 1` and `floor(d / 2^k + 1/2)` for `k >= 2` when the addend does
not wrap, and what the wrapped sum gives when it does; with `EMA_K1_BIAS` true, `k = 1` has the addend 1. -/
def Obligations.RoundedIncrement : Prop :=
  ∀ (n k : Nat), (n = 16 ∨ n = 32) → k ∈ Config.legalK → ∀ d : BitVec n,
    (rinc d 1).toInt = d.toInt / 2 ∧
    (2 ≤ k → fits n (d.toInt + ((2 ^ (k - 1) : Nat) : Int)) →
      (rinc d k).toInt = (2 * d.toInt + ((2 ^ k : Nat) : Int)) / ((2 ^ (k + 1) : Nat) : Int)) ∧
    (2 ≤ k → ¬ fits n (d.toInt + ((2 ^ (k - 1) : Nat) : Int)) →
      (rinc d k).toInt =
        (d.toInt + ((2 ^ (k - 1) : Nat) : Int) - ((2 ^ n : Nat) : Int)) / ((2 ^ k : Nat) : Int)) ∧
    (rincWith true d 1).toInt = Int.bmod (d.toInt + 1) (2 ^ n) / 2

/-- R66: `rshr_N` is the identity for shift 0, keeps the addend for every shift from 1 on, and rounds half up
when the addend does not wrap. -/
def Obligations.RoundedShift : Prop :=
  ∀ (s : Nat) (v : BitVec 16), s ≤ 15 →
    rshr v 0 = v ∧
    (1 ≤ s → fits 16 (v.toInt + ((2 ^ (s - 1) : Nat) : Int)) →
      (rshr v s).toInt = (2 * v.toInt + ((2 ^ s : Nat) : Int)) / ((2 ^ (s + 1) : Nat) : Int)) ∧
    (1 ≤ s → ¬ fits 16 (v.toInt + ((2 ^ (s - 1) : Nat) : Int)) →
      (rshr v s).toInt = (v.toInt + ((2 ^ (s - 1) : Nat) : Int) - 65536) / ((2 ^ s : Nat) : Int))

/-- R67: `mulrs8` for coefficients 0 to 256: the rounded quotient always fits 32 bits; 256 is the identity and
0 gives 0. -/
def Obligations.RoundedMultiply : Prop :=
  ∀ (v : Word) (c : Nat), c ≤ 256 →
    (mulrs8 v c).toInt = (v.toInt * (c : Int) + 128) / 256 ∧ mulrs8 v 256 = v ∧ mulrs8 v 0 = 0#32

/-- R68, R69: the auxiliary converters, which no command uses. -/
def Obligations.AuxiliaryConverters : Prop :=
  (∀ y : Word, (q16OfQ8 y).toInt = Int.bmod (256 * y.toInt) (2 ^ 32) ∧ (q8OfQ16 y).toInt = y.toInt / 256) ∧
  (∀ b : Word, f32Unpack b = .nan → i16OfF32 b = 0#16) ∧
  (∀ b : Word, f32Unpack b = .inf false → (i16OfF32 b).toInt = 32767) ∧
  (∀ b : Word, f32Unpack b = .inf true → (i16OfF32 b).toInt = -32768) ∧
  (∀ (b : Word) (v : Int), f32Units b = some v →
    (32767 * f32One ≤ v → (i16OfF32 b).toInt = 32767) ∧
    (v ≤ -32768 * f32One → (i16OfF32 b).toInt = -32768) ∧
    (-32768 * f32One < v → v < 32767 * f32One →
      2 * |v - (i16OfF32 b).toInt * f32One| ≤ f32One ∧
      (2 * |v - (i16OfF32 b).toInt * f32One| = f32One → (i16OfF32 b).toInt % 2 = 0)))

/-- R71: `f32_of_i16` is exact for every sample, and 0 gives `+0.0`. -/
def Obligations.SampleToFloatIsExact : Prop :=
  (∀ x : Sample, f32Units (f32OfI16 x) = some (x.toInt * f32One)) ∧ f32OfI16 0#16 = 0#32

/-- R72: sums and differences of finite values are correctly rounded, to nearest with ties to even, finite
exactly below the overflow threshold, and an exact zero of opposite effective signs is `+0.0`. -/
def Obligations.FloatSumsRoundToNearest : Prop :=
  ∀ (a b : Word) (u v : Int), f32Units a = some u → f32Units b = some v →
    (|u + v| < (2 ^ 25 - 1) * 2 ^ 252 → ∃ r, f32Nearest (u + v) 1 (f32Add a b) r) ∧
    ((2 ^ 25 - 1) * 2 ^ 252 ≤ |u + v| → f32Unpack (f32Add a b) = .inf (decide (u + v < 0))) ∧
    (u + v = 0 → a.msb ≠ b.msb → f32Add a b = 0#32) ∧
    (|u - v| < (2 ^ 25 - 1) * 2 ^ 252 → ∃ r, f32Nearest (u - v) 1 (f32Sub a b) r) ∧
    ((2 ^ 25 - 1) * 2 ^ 252 ≤ |u - v| → f32Unpack (f32Sub a b) = .inf (decide (u - v < 0))) ∧
    (u - v = 0 → a.msb = b.msb → f32Sub a b = 0#32)

/-- R73: dividing a finite value by `2^k` rounds to nearest, ties to even, and is exact unless the quotient
falls in the subnormal range. -/
def Obligations.FloatQuotientByPowerOfTwo : Prop :=
  ∀ (a : Word) (u : Int) (k : Nat), f32Units a = some u → k ∈ Config.legalK →
    ∃ r, f32Nearest u ((2 ^ k : Nat) : Int) (f32Div a (f32Pow2 k)) r ∧
      (((2 ^ (23 + k) : Nat) : Int) ≤ |u| → u = r * ((2 ^ k : Nat) : Int))

/-- R74: an operation with a NaN operand returns a quiet NaN. (Its sign and payload are free values; nothing
here depends on them.) -/
def Obligations.NanOperandGivesQuietNan : Prop :=
  ∀ a b : Word, (f32Unpack a = .nan ∨ f32Unpack b = .nan) →
    ∀ r ∈ [f32Add a b, f32Sub a b, f32Div a b], f32Unpack r = .nan ∧ r.getLsbD 22 = true

/-! ### The EMA updaters -/

/-- R85, R84: the stage-1 input of each representation stands for the sample exactly, and the `F32` updater is a
subtraction, a division by `2^k` and an addition, each rounded once. -/
def Obligations.StageOneInputsAndTheFloatLaw : Prop :=
  (∀ x : Sample, (stageInput .i16 x).toInt = x.toInt ∧ (stageInput .q8_8 x).toInt = 256 * x.toInt ∧
    (stageInput .q16_16 x).toInt = 65536 * x.toInt ∧ f32Units (stageInput .f32 x) = some (x.toInt * f32One)) ∧
  ∀ (y input : Word) (k : Nat), ema .f32 y input k = f32Add y (f32Div (f32Sub input y) (f32Pow2 k))

/-- R81, R82, R83: the three integer updaters compute the EMA law at their path widths, every sum and
difference reduced to a two's complement residue, and they are what `STEP` runs for their representations, the
old accumulator first and the input second; `I16` on bits 15:0 (log entry 11), its result sign-extended. The
rules give the exponents of `LEGAL_K`; that the same law holds at every other k >= 2, which no `STEP` uses, is
the model's (log entry 7). -/
def Obligations.IntegerEmaLaw : Prop :=
  emaLaw emaI16 ∧ emaLaw emaQ8 ∧ emaLaw emaQ16 ∧
  ∀ (y input : Word) (k : Nat),
    ema .i16 y input k = sext32 (emaI16 (y.setWidth 16) (input.setWidth 16) k) ∧
    ema .q8_8 y input k = emaQ8 y input k ∧ ema .q16_16 y input k = emaQ16 y input k

/-- R77: the documented overflow boundary of the three integer updaters: exact exactly in range, then never
past the input, and at rest exactly in the stall band. -/
def Obligations.IntegerEmaExactness : Prop := emaExactness emaI16 ∧ emaExactness emaQ8 ∧ emaExactness emaQ16

/-- R87 (a): with the input held and in range, each integer updater comes to rest inside the stall band in at
most as many updates as its distance; no update on the way passes the input, and each brings it nearer. -/
def Obligations.IntegerEmaConverges : Prop := emaConverges emaI16 ∧ emaConverges emaQ8 ∧ emaConverges emaQ16

/-- R77: with every sample in an interval that contains 0 and spans at most 32639, `I16` accumulators stay in
it and no `I16` update of any stage wraps, a later stage reading the new accumulator of the stage below; with a
span of at most 32767 the same holds of `Q16_16`. -/
def Obligations.BoundedSamplesKeepAccumulatorsBounded : Prop :=
  ∀ (lo hi : Int) (x : Sample) (s t : State), -32768 ≤ lo → lo ≤ 0 → 0 ≤ hi → hi ≤ 32767 → lo ≤ x.toInt →
    x.toInt ≤ hi → exec (.step x) s = .next t →
    (hi - lo ≤ 32639 → s.regs.i16Within lo hi → t.regs.i16Within lo hi ∧
      ∀ c, (s.regs.readCh c).en = true → (s.regs.readCh c).rep = .i16 → s.regs.cfgValid = true →
        emaNoWrap ((s.regs.readAcc c 0).setWidth 16) x (s.regs.readCh c).k.toNat ∧
        (s.regs.stageEnabled c 1 = true → emaNoWrap ((s.regs.readAcc c 1).setWidth 16)
          ((t.regs.readAcc c 0).setWidth 16) (s.regs.readCh c).k.toNat) ∧
        (s.regs.stageEnabled c 2 = true → emaNoWrap ((s.regs.readAcc c 2).setWidth 16)
          ((t.regs.readAcc c 1).setWidth 16) (s.regs.readCh c).k.toNat)) ∧
    (hi - lo ≤ 32767 → s.regs.q16Within lo hi → t.regs.q16Within lo hi ∧
      ∀ c, (s.regs.readCh c).en = true → (s.regs.readCh c).rep = .q16_16 → s.regs.cfgValid = true →
        emaNoWrap (s.regs.readAcc c 0) (q16OfI16 x) (s.regs.readCh c).k.toNat ∧
        (s.regs.stageEnabled c 1 = true →
          emaNoWrap (s.regs.readAcc c 1) (t.regs.readAcc c 0) (s.regs.readCh c).k.toNat) ∧
        (s.regs.stageEnabled c 2 = true →
          emaNoWrap (s.regs.readAcc c 2) (t.regs.readAcc c 1) (s.regs.readCh c).k.toNat))

/-- R75, R84: the float updater on values within the sample range never passes its input and stays finite. -/
def Obligations.FloatEmaStaysBetween : Prop :=
  ∀ (y input : Word) (u v : Int) (k : Nat), k ∈ Config.legalK →
    f32Within (-32768) 32767 y → f32Within (-32768) 32767 input → f32Units y = some u → f32Units input = some v →
    ∃ w, f32Units (emaF32 y input k) = some w ∧ min u v ≤ w ∧ w ≤ max u v

/-! ### Whole-machine rules -/

/-- R24: write rights. A command with an error status writes nothing; which commands may change which register,
and to what the flags may change. -/
def Obligations.WriteRights : Prop :=
  ∀ (i : Instr) (s t : State), exec i s = .next t →
    (∀ p, t.rsp = some p → p.status ≠ .ok → t.regs = s.regs) ∧
    (∀ (c : Fin 6) (g : Fin 3), t.regs.readAcc c g ≠ s.regs.readAcc c g →
      i = .reset ∨ ∃ x, i = .step x ∧ s.regs.stageEnabled c g = true) ∧
    (∀ h, t.regs.readHpout h ≠ s.regs.readHpout h → i = .reset ∨ ∃ x, i = .step x ∧ (s.regs.readHp h).en = true) ∧
    (∀ b, t.regs.readBpout b ≠ s.regs.readBpout b → i = .reset ∨ ∃ x, i = .step x ∧ (s.regs.readBp b).en = true) ∧
    (∀ b, t.regs.readBrout b ≠ s.regs.readBrout b →
      i = .reset ∨ ∃ x, i = .step x ∧ (s.regs.readBp b).brEn = true) ∧
    ((t.regs.bqLow ≠ s.regs.bqLow ∨ t.regs.bqBand ≠ s.regs.bqBand ∨ t.regs.bqHigh ≠ s.regs.bqHigh) →
      i = .reset ∨ ∃ x, i = .step x ∧ s.regs.bq.en = true) ∧
    (t.regs.stepped ≠ s.regs.stepped →
      (i = .reset ∧ t.regs.stepped = false) ∨ ∃ x, i = .step x ∧ t.regs.stepped = true) ∧
    (t.regs.stale ≠ s.regs.stale →
      (i = .reset ∧ t.regs.stale = false) ∨ (i.isConfig = true ∧ s.regs.stepped = true ∧ t.regs.stale = true)) ∧
    (∀ c : Fin 6, t.regs.readCh c ≠ s.regs.readCh c →
      ∃ n en rep order k, i = .cfgch n en rep order k ∧ n.toNat = c.val) ∧
    (∀ h : Fin 4, t.regs.readHp h ≠ s.regs.readHp h → ∃ n en src, i = .cfghp n en src ∧ n.toNat = h.val) ∧
    (∀ b : Fin 2, t.regs.readBp b ≠ s.regs.readBp b →
      ∃ n en brEn fast slow, i = .cfgbp n en brEn fast slow ∧ n.toNat = b.val) ∧
    (t.regs.bq ≠ s.regs.bq → ∃ en v a d, i = .cfgbq en v a d) ∧
    (t.regs.sel ≠ s.regs.sel → ∃ m, i = .select m)

/-- R20, R159: the selection mask is advisory. Two instances that differ at most in `SEL` give, to the same
command list, the same response at every position whose word is not a `GETSEL`. -/
def Obligations.SelectionMaskIsAdvisory : Prop :=
  ∀ (ws : List CmdWord) (s t : State), sameButSel s.regs t.regs →
    ∀ (n : Nat) (w : CmdWord), ws[n]? = some w → decode w ≠ .ok .getsel →
      ∃ p, (responses ws s)[n]? = some p ∧ (responses ws t)[n]? = some p

/-- R26, R112: `RESET` forgets the history. From any two states with the same configuration and mask, `RESET`
and then the same commands give the same responses. -/
def Obligations.ResetReproducesTheRun : Prop :=
  ∀ (ws : List CmdWord) (s t : State), sameConfig s.regs t.regs →
    responses (encode .reset :: ws) s = responses (encode .reset :: ws) t

/-- R155: a configuration command after a `STEP` makes `STEP` and `GETVAL` answer `ERR_STALE` until a `RESET`
is issued, whatever else is; one when `STEPPED` = 0 needs no reset. -/
def Obligations.StaleUntilReset : Prop :=
  (∀ (i : Instr) (s : State), i.isConfig = true → i.wellFormed = true →
    ∃ t, exec i s = .next t ∧ t.regs.stale = (s.regs.stale || s.regs.stepped)) ∧
  (∀ (ws : List CmdWord) (s : State), s.regs.stale = true → (∀ w ∈ ws, decode w ≠ .ok .reset) →
    (∀ x, raisedBy .stale (exec (.step x) (after ws s)) (after ws s)) ∧
    (∀ id, raisedBy .stale (exec (.getval id) (after ws s)) (after ws s))) ∧
  (∀ s : State, ∃ t, exec .reset s = .next t ∧ t.regs.stale = false)

/-- R152, R153: the boot sequence. After power-on, configuration commands and `SELECT` in any order need no
`RESET`: when the configuration is valid at the end, the first `STEP` answers `OK`; before it every `GETVAL` is
refused with `ERR_NOT_READY`, and after it every enabled id can be read. -/
def Obligations.BootSequenceNeedsNoReset : Prop :=
  ∀ (ws : List CmdWord) (x : Sample),
    (∀ w ∈ ws, ∃ i, decode w = .ok i ∧ (i.isConfig = true ∨ ∃ m, i = .select m)) →
    (∀ id, raisedBy .notReady (exec (.getval id) (after ws State.reset)) (after ws State.reset)) ∧
    ((after ws State.reset).regs.cfgValid = true →
      ∃ t, exec (.step x) (after ws State.reset) = .next t ∧ t.rsp = some ⟨.ok, 0#32⟩ ∧
        ∀ id, t.regs.idEnabled id = true → ∃ u v, exec (.getval id) t = .next u ∧ u.rsp = some ⟨.ok, v⟩)

/-- R55: the expansion of `CONFIGURE` leaves the written configuration and zeroed history, ready to step
whether or not a `STEP` ran before it. -/
def Obligations.ConfigureExpansionIsReady : Prop :=
  ∀ (cfgs : List Instr) (s : State), (∀ i ∈ cfgs, i.isConfig = true ∧ i.wellFormed = true) →
    sameConfig (after ((asmConfigure cfgs).map encode) s).regs (after (cfgs.map encode) s).regs ∧
    (after ((asmConfigure cfgs).map encode) s).regs.historyZero ∧
    (after ((asmConfigure cfgs).map encode) s).regs.stepped = false ∧
    (after ((asmConfigure cfgs).map encode) s).regs.stale = false

/-! ### Invariants of every step -/

/-- The power-on state meets every invariant below. -/
def Obligations.PowerOnMeetsTheInvariants : Prop :=
  State.reset.regs.historyInv ∧ State.reset.regs.typed ∧ State.reset.regs.idleZero ∧
  State.reset.regs.readableValid ∧ State.reset.regs.q8InRange ∧ State.reset.regs.floatsFinite

/-- R15, R25, R116: `STALE` only after a `STEP`, and all-zero accumulators and latches before one, after every step. -/
def Obligations.StepKeepsHistoryInvariant : Prop :=
  ∀ s t : State, s.regs.historyInv → step s = .next t → t.regs.historyInv

/-- R27: the typing invariant, kept by every step. -/
def Obligations.StepKeepsTyping : Prop :=
  ∀ s t : State, s.regs.historyInv → s.regs.typed → step s = .next t → t.regs.typed

/-- R111: the registers of disabled units keep their reset value 0 while results may be read. -/
def Obligations.StepKeepsIdleUnitsZero : Prop :=
  ∀ s t : State, s.regs.historyInv → s.regs.idleZero → step s = .next t → t.regs.idleZero

/-- R114: while `STALE` = 0 and `STEPPED` = 1 the configuration is valid, so `GETVAL` need not check it. -/
def Obligations.StepKeepsReadableConfigValid : Prop :=
  ∀ s t : State, s.regs.historyInv → s.regs.readableValid → step s = .next t → t.regs.readableValid

/-- R77, R156: the `Q8_8` path never wraps on 16-bit samples: its accumulators stay in the range of the widened
samples, and there every update is exact. -/
def Obligations.StepKeepsQ8Exact : Prop :=
  (∀ s t : State, s.regs.historyInv → s.regs.q8InRange → step s = .next t → t.regs.q8InRange) ∧
  (∀ (y input : Word) (k : Nat), k ∈ Config.legalK → -8388608 ≤ y.toInt → y.toInt ≤ 8388352 →
    -8388608 ≤ input.toInt → input.toInt ≤ 8388352 → emaNoWrap y input k)

/-- R75: no NaN and no infinity is ever reached, and every `F32` accumulator stays within the sample range. -/
def Obligations.StepKeepsFloatsFinite : Prop :=
  ∀ s t : State, s.regs.historyInv → s.regs.floatsFinite → step s = .next t → t.regs.floatsFinite
end

