-- ==== Sys2Proof/Laws/State.lean ====
section
/-! SUPPORT. One lemma per register per named update, so that no later proof unfolds a record update; and what the accessors and predicates read. -/

namespace Sys2Proof.Machine

variable (r : Regs)

/-! ### `writeAcc` -/
@[simp] theorem Regs.writeAcc_acc (c : Fin 6) (s : Fin 3) (v : Word) : (r.writeAcc c s v).acc = r.acc.set c (r.acc[c].set s v) := rfl
@[simp] theorem Regs.writeAcc_bqLow (c : Fin 6) (s : Fin 3) (v : Word) : (r.writeAcc c s v).bqLow = r.bqLow := rfl
@[simp] theorem Regs.writeAcc_bqBand (c : Fin 6) (s : Fin 3) (v : Word) : (r.writeAcc c s v).bqBand = r.bqBand := rfl
@[simp] theorem Regs.writeAcc_hpout (c : Fin 6) (s : Fin 3) (v : Word) : (r.writeAcc c s v).hpout = r.hpout := rfl
@[simp] theorem Regs.writeAcc_bpout (c : Fin 6) (s : Fin 3) (v : Word) : (r.writeAcc c s v).bpout = r.bpout := rfl
@[simp] theorem Regs.writeAcc_brout (c : Fin 6) (s : Fin 3) (v : Word) : (r.writeAcc c s v).brout = r.brout := rfl
@[simp] theorem Regs.writeAcc_bqHigh (c : Fin 6) (s : Fin 3) (v : Word) : (r.writeAcc c s v).bqHigh = r.bqHigh := rfl
@[simp] theorem Regs.writeAcc_stepped (c : Fin 6) (s : Fin 3) (v : Word) : (r.writeAcc c s v).stepped = r.stepped := rfl
@[simp] theorem Regs.writeAcc_stale (c : Fin 6) (s : Fin 3) (v : Word) : (r.writeAcc c s v).stale = r.stale := rfl
@[simp] theorem Regs.writeAcc_ch (c : Fin 6) (s : Fin 3) (v : Word) : (r.writeAcc c s v).ch = r.ch := rfl
@[simp] theorem Regs.writeAcc_hp (c : Fin 6) (s : Fin 3) (v : Word) : (r.writeAcc c s v).hp = r.hp := rfl
@[simp] theorem Regs.writeAcc_bp (c : Fin 6) (s : Fin 3) (v : Word) : (r.writeAcc c s v).bp = r.bp := rfl
@[simp] theorem Regs.writeAcc_bq (c : Fin 6) (s : Fin 3) (v : Word) : (r.writeAcc c s v).bq = r.bq := rfl
@[simp] theorem Regs.writeAcc_sel (c : Fin 6) (s : Fin 3) (v : Word) : (r.writeAcc c s v).sel = r.sel := rfl
@[simp] theorem Regs.writeAcc_readHpout (c : Fin 6) (s : Fin 3) (v : Word) (h' : Fin 4) : (r.writeAcc c s v).readHpout h' = r.readHpout h' := rfl
@[simp] theorem Regs.writeAcc_readBpout (c : Fin 6) (s : Fin 3) (v : Word) (b' : Fin 2) : (r.writeAcc c s v).readBpout b' = r.readBpout b' := rfl
@[simp] theorem Regs.writeAcc_readBrout (c : Fin 6) (s : Fin 3) (v : Word) (b' : Fin 2) : (r.writeAcc c s v).readBrout b' = r.readBrout b' := rfl
@[simp] theorem Regs.writeAcc_readCh (c : Fin 6) (s : Fin 3) (v : Word) (c' : Fin 6) : (r.writeAcc c s v).readCh c' = r.readCh c' := rfl
@[simp] theorem Regs.writeAcc_readHp (c : Fin 6) (s : Fin 3) (v : Word) (h' : Fin 4) : (r.writeAcc c s v).readHp h' = r.readHp h' := rfl
@[simp] theorem Regs.writeAcc_readBp (c : Fin 6) (s : Fin 3) (v : Word) (b' : Fin 2) : (r.writeAcc c s v).readBp b' = r.readBp b' := rfl
@[simp] theorem Regs.writeAcc_stageEnabled (c : Fin 6) (s : Fin 3) (v : Word) (c' : Fin 6) (s' : Fin 3) : (r.writeAcc c s v).stageEnabled c' s' = r.stageEnabled c' s' := rfl
@[simp] theorem Regs.writeAcc_tapRep (c : Fin 6) (s : Fin 3) (v : Word) (t : Tap) : (r.writeAcc c s v).tapRep t = r.tapRep t := rfl
@[simp] theorem Regs.writeAcc_tapClass (c : Fin 6) (s : Fin 3) (v : Word) (t : Tap) : (r.writeAcc c s v).tapClass t = r.tapClass t := rfl
@[simp] theorem Regs.writeAcc_cfgValid (c : Fin 6) (s : Fin 3) (v : Word) : (r.writeAcc c s v).cfgValid = r.cfgValid := rfl

/-! ### `writeHpout` -/
@[simp] theorem Regs.writeHpout_acc (h : Fin 4) (v : Word) : (r.writeHpout h v).acc = r.acc := rfl
@[simp] theorem Regs.writeHpout_bqLow (h : Fin 4) (v : Word) : (r.writeHpout h v).bqLow = r.bqLow := rfl
@[simp] theorem Regs.writeHpout_bqBand (h : Fin 4) (v : Word) : (r.writeHpout h v).bqBand = r.bqBand := rfl
@[simp] theorem Regs.writeHpout_hpout (h : Fin 4) (v : Word) : (r.writeHpout h v).hpout = r.hpout.set h v := rfl
@[simp] theorem Regs.writeHpout_bpout (h : Fin 4) (v : Word) : (r.writeHpout h v).bpout = r.bpout := rfl
@[simp] theorem Regs.writeHpout_brout (h : Fin 4) (v : Word) : (r.writeHpout h v).brout = r.brout := rfl
@[simp] theorem Regs.writeHpout_bqHigh (h : Fin 4) (v : Word) : (r.writeHpout h v).bqHigh = r.bqHigh := rfl
@[simp] theorem Regs.writeHpout_stepped (h : Fin 4) (v : Word) : (r.writeHpout h v).stepped = r.stepped := rfl
@[simp] theorem Regs.writeHpout_stale (h : Fin 4) (v : Word) : (r.writeHpout h v).stale = r.stale := rfl
@[simp] theorem Regs.writeHpout_ch (h : Fin 4) (v : Word) : (r.writeHpout h v).ch = r.ch := rfl
@[simp] theorem Regs.writeHpout_hp (h : Fin 4) (v : Word) : (r.writeHpout h v).hp = r.hp := rfl
@[simp] theorem Regs.writeHpout_bp (h : Fin 4) (v : Word) : (r.writeHpout h v).bp = r.bp := rfl
@[simp] theorem Regs.writeHpout_bq (h : Fin 4) (v : Word) : (r.writeHpout h v).bq = r.bq := rfl
@[simp] theorem Regs.writeHpout_sel (h : Fin 4) (v : Word) : (r.writeHpout h v).sel = r.sel := rfl
@[simp] theorem Regs.writeHpout_readAcc (h : Fin 4) (v : Word) (c' : Fin 6) (s' : Fin 3) : (r.writeHpout h v).readAcc c' s' = r.readAcc c' s' := rfl
@[simp] theorem Regs.writeHpout_readBpout (h : Fin 4) (v : Word) (b' : Fin 2) : (r.writeHpout h v).readBpout b' = r.readBpout b' := rfl
@[simp] theorem Regs.writeHpout_readBrout (h : Fin 4) (v : Word) (b' : Fin 2) : (r.writeHpout h v).readBrout b' = r.readBrout b' := rfl
@[simp] theorem Regs.writeHpout_readCh (h : Fin 4) (v : Word) (c' : Fin 6) : (r.writeHpout h v).readCh c' = r.readCh c' := rfl
@[simp] theorem Regs.writeHpout_readHp (h : Fin 4) (v : Word) (h' : Fin 4) : (r.writeHpout h v).readHp h' = r.readHp h' := rfl
@[simp] theorem Regs.writeHpout_readBp (h : Fin 4) (v : Word) (b' : Fin 2) : (r.writeHpout h v).readBp b' = r.readBp b' := rfl
@[simp] theorem Regs.writeHpout_stageEnabled (h : Fin 4) (v : Word) (c' : Fin 6) (s' : Fin 3) : (r.writeHpout h v).stageEnabled c' s' = r.stageEnabled c' s' := rfl
@[simp] theorem Regs.writeHpout_tapRep (h : Fin 4) (v : Word) (t : Tap) : (r.writeHpout h v).tapRep t = r.tapRep t := rfl
@[simp] theorem Regs.writeHpout_tapClass (h : Fin 4) (v : Word) (t : Tap) : (r.writeHpout h v).tapClass t = r.tapClass t := rfl
@[simp] theorem Regs.writeHpout_tapVal (h : Fin 4) (v : Word) (t : Tap) : (r.writeHpout h v).tapVal t = r.tapVal t := rfl
@[simp] theorem Regs.writeHpout_cfgValid (h : Fin 4) (v : Word) : (r.writeHpout h v).cfgValid = r.cfgValid := rfl

/-! ### `writeBpout` -/
@[simp] theorem Regs.writeBpout_acc (b : Fin 2) (v : Word) : (r.writeBpout b v).acc = r.acc := rfl
@[simp] theorem Regs.writeBpout_bqLow (b : Fin 2) (v : Word) : (r.writeBpout b v).bqLow = r.bqLow := rfl
@[simp] theorem Regs.writeBpout_bqBand (b : Fin 2) (v : Word) : (r.writeBpout b v).bqBand = r.bqBand := rfl
@[simp] theorem Regs.writeBpout_hpout (b : Fin 2) (v : Word) : (r.writeBpout b v).hpout = r.hpout := rfl
@[simp] theorem Regs.writeBpout_bpout (b : Fin 2) (v : Word) : (r.writeBpout b v).bpout = r.bpout.set b v := rfl
@[simp] theorem Regs.writeBpout_brout (b : Fin 2) (v : Word) : (r.writeBpout b v).brout = r.brout := rfl
@[simp] theorem Regs.writeBpout_bqHigh (b : Fin 2) (v : Word) : (r.writeBpout b v).bqHigh = r.bqHigh := rfl
@[simp] theorem Regs.writeBpout_stepped (b : Fin 2) (v : Word) : (r.writeBpout b v).stepped = r.stepped := rfl
@[simp] theorem Regs.writeBpout_stale (b : Fin 2) (v : Word) : (r.writeBpout b v).stale = r.stale := rfl
@[simp] theorem Regs.writeBpout_ch (b : Fin 2) (v : Word) : (r.writeBpout b v).ch = r.ch := rfl
@[simp] theorem Regs.writeBpout_hp (b : Fin 2) (v : Word) : (r.writeBpout b v).hp = r.hp := rfl
@[simp] theorem Regs.writeBpout_bp (b : Fin 2) (v : Word) : (r.writeBpout b v).bp = r.bp := rfl
@[simp] theorem Regs.writeBpout_bq (b : Fin 2) (v : Word) : (r.writeBpout b v).bq = r.bq := rfl
@[simp] theorem Regs.writeBpout_sel (b : Fin 2) (v : Word) : (r.writeBpout b v).sel = r.sel := rfl
@[simp] theorem Regs.writeBpout_readAcc (b : Fin 2) (v : Word) (c' : Fin 6) (s' : Fin 3) : (r.writeBpout b v).readAcc c' s' = r.readAcc c' s' := rfl
@[simp] theorem Regs.writeBpout_readHpout (b : Fin 2) (v : Word) (h' : Fin 4) : (r.writeBpout b v).readHpout h' = r.readHpout h' := rfl
@[simp] theorem Regs.writeBpout_readBrout (b : Fin 2) (v : Word) (b' : Fin 2) : (r.writeBpout b v).readBrout b' = r.readBrout b' := rfl
@[simp] theorem Regs.writeBpout_readCh (b : Fin 2) (v : Word) (c' : Fin 6) : (r.writeBpout b v).readCh c' = r.readCh c' := rfl
@[simp] theorem Regs.writeBpout_readHp (b : Fin 2) (v : Word) (h' : Fin 4) : (r.writeBpout b v).readHp h' = r.readHp h' := rfl
@[simp] theorem Regs.writeBpout_readBp (b : Fin 2) (v : Word) (b' : Fin 2) : (r.writeBpout b v).readBp b' = r.readBp b' := rfl
@[simp] theorem Regs.writeBpout_stageEnabled (b : Fin 2) (v : Word) (c' : Fin 6) (s' : Fin 3) : (r.writeBpout b v).stageEnabled c' s' = r.stageEnabled c' s' := rfl
@[simp] theorem Regs.writeBpout_tapRep (b : Fin 2) (v : Word) (t : Tap) : (r.writeBpout b v).tapRep t = r.tapRep t := rfl
@[simp] theorem Regs.writeBpout_tapClass (b : Fin 2) (v : Word) (t : Tap) : (r.writeBpout b v).tapClass t = r.tapClass t := rfl
@[simp] theorem Regs.writeBpout_tapVal (b : Fin 2) (v : Word) (t : Tap) : (r.writeBpout b v).tapVal t = r.tapVal t := rfl
@[simp] theorem Regs.writeBpout_cfgValid (b : Fin 2) (v : Word) : (r.writeBpout b v).cfgValid = r.cfgValid := rfl

/-! ### `writeBrout` -/
@[simp] theorem Regs.writeBrout_acc (b : Fin 2) (v : Word) : (r.writeBrout b v).acc = r.acc := rfl
@[simp] theorem Regs.writeBrout_bqLow (b : Fin 2) (v : Word) : (r.writeBrout b v).bqLow = r.bqLow := rfl
@[simp] theorem Regs.writeBrout_bqBand (b : Fin 2) (v : Word) : (r.writeBrout b v).bqBand = r.bqBand := rfl
@[simp] theorem Regs.writeBrout_hpout (b : Fin 2) (v : Word) : (r.writeBrout b v).hpout = r.hpout := rfl
@[simp] theorem Regs.writeBrout_bpout (b : Fin 2) (v : Word) : (r.writeBrout b v).bpout = r.bpout := rfl
@[simp] theorem Regs.writeBrout_brout (b : Fin 2) (v : Word) : (r.writeBrout b v).brout = r.brout.set b v := rfl
@[simp] theorem Regs.writeBrout_bqHigh (b : Fin 2) (v : Word) : (r.writeBrout b v).bqHigh = r.bqHigh := rfl
@[simp] theorem Regs.writeBrout_stepped (b : Fin 2) (v : Word) : (r.writeBrout b v).stepped = r.stepped := rfl
@[simp] theorem Regs.writeBrout_stale (b : Fin 2) (v : Word) : (r.writeBrout b v).stale = r.stale := rfl
@[simp] theorem Regs.writeBrout_ch (b : Fin 2) (v : Word) : (r.writeBrout b v).ch = r.ch := rfl
@[simp] theorem Regs.writeBrout_hp (b : Fin 2) (v : Word) : (r.writeBrout b v).hp = r.hp := rfl
@[simp] theorem Regs.writeBrout_bp (b : Fin 2) (v : Word) : (r.writeBrout b v).bp = r.bp := rfl
@[simp] theorem Regs.writeBrout_bq (b : Fin 2) (v : Word) : (r.writeBrout b v).bq = r.bq := rfl
@[simp] theorem Regs.writeBrout_sel (b : Fin 2) (v : Word) : (r.writeBrout b v).sel = r.sel := rfl
@[simp] theorem Regs.writeBrout_readAcc (b : Fin 2) (v : Word) (c' : Fin 6) (s' : Fin 3) : (r.writeBrout b v).readAcc c' s' = r.readAcc c' s' := rfl
@[simp] theorem Regs.writeBrout_readHpout (b : Fin 2) (v : Word) (h' : Fin 4) : (r.writeBrout b v).readHpout h' = r.readHpout h' := rfl
@[simp] theorem Regs.writeBrout_readBpout (b : Fin 2) (v : Word) (b' : Fin 2) : (r.writeBrout b v).readBpout b' = r.readBpout b' := rfl
@[simp] theorem Regs.writeBrout_readCh (b : Fin 2) (v : Word) (c' : Fin 6) : (r.writeBrout b v).readCh c' = r.readCh c' := rfl
@[simp] theorem Regs.writeBrout_readHp (b : Fin 2) (v : Word) (h' : Fin 4) : (r.writeBrout b v).readHp h' = r.readHp h' := rfl
@[simp] theorem Regs.writeBrout_readBp (b : Fin 2) (v : Word) (b' : Fin 2) : (r.writeBrout b v).readBp b' = r.readBp b' := rfl
@[simp] theorem Regs.writeBrout_stageEnabled (b : Fin 2) (v : Word) (c' : Fin 6) (s' : Fin 3) : (r.writeBrout b v).stageEnabled c' s' = r.stageEnabled c' s' := rfl
@[simp] theorem Regs.writeBrout_tapRep (b : Fin 2) (v : Word) (t : Tap) : (r.writeBrout b v).tapRep t = r.tapRep t := rfl
@[simp] theorem Regs.writeBrout_tapClass (b : Fin 2) (v : Word) (t : Tap) : (r.writeBrout b v).tapClass t = r.tapClass t := rfl
@[simp] theorem Regs.writeBrout_tapVal (b : Fin 2) (v : Word) (t : Tap) : (r.writeBrout b v).tapVal t = r.tapVal t := rfl
@[simp] theorem Regs.writeBrout_cfgValid (b : Fin 2) (v : Word) : (r.writeBrout b v).cfgValid = r.cfgValid := rfl

/-! ### `writeBiquad` -/
@[simp] theorem Regs.writeBiquad_acc (high band low : Word) : (r.writeBiquad high band low).acc = r.acc := rfl
@[simp] theorem Regs.writeBiquad_bqLow (high band low : Word) : (r.writeBiquad high band low).bqLow = low := rfl
@[simp] theorem Regs.writeBiquad_bqBand (high band low : Word) : (r.writeBiquad high band low).bqBand = band := rfl
@[simp] theorem Regs.writeBiquad_hpout (high band low : Word) : (r.writeBiquad high band low).hpout = r.hpout := rfl
@[simp] theorem Regs.writeBiquad_bpout (high band low : Word) : (r.writeBiquad high band low).bpout = r.bpout := rfl
@[simp] theorem Regs.writeBiquad_brout (high band low : Word) : (r.writeBiquad high band low).brout = r.brout := rfl
@[simp] theorem Regs.writeBiquad_bqHigh (high band low : Word) : (r.writeBiquad high band low).bqHigh = high := rfl
@[simp] theorem Regs.writeBiquad_stepped (high band low : Word) : (r.writeBiquad high band low).stepped = r.stepped := rfl
@[simp] theorem Regs.writeBiquad_stale (high band low : Word) : (r.writeBiquad high band low).stale = r.stale := rfl
@[simp] theorem Regs.writeBiquad_ch (high band low : Word) : (r.writeBiquad high band low).ch = r.ch := rfl
@[simp] theorem Regs.writeBiquad_hp (high band low : Word) : (r.writeBiquad high band low).hp = r.hp := rfl
@[simp] theorem Regs.writeBiquad_bp (high band low : Word) : (r.writeBiquad high band low).bp = r.bp := rfl
@[simp] theorem Regs.writeBiquad_bq (high band low : Word) : (r.writeBiquad high band low).bq = r.bq := rfl
@[simp] theorem Regs.writeBiquad_sel (high band low : Word) : (r.writeBiquad high band low).sel = r.sel := rfl
@[simp] theorem Regs.writeBiquad_readAcc (high band low : Word) (c' : Fin 6) (s' : Fin 3) : (r.writeBiquad high band low).readAcc c' s' = r.readAcc c' s' := rfl
@[simp] theorem Regs.writeBiquad_readHpout (high band low : Word) (h' : Fin 4) : (r.writeBiquad high band low).readHpout h' = r.readHpout h' := rfl
@[simp] theorem Regs.writeBiquad_readBpout (high band low : Word) (b' : Fin 2) : (r.writeBiquad high band low).readBpout b' = r.readBpout b' := rfl
@[simp] theorem Regs.writeBiquad_readBrout (high band low : Word) (b' : Fin 2) : (r.writeBiquad high band low).readBrout b' = r.readBrout b' := rfl
@[simp] theorem Regs.writeBiquad_readCh (high band low : Word) (c' : Fin 6) : (r.writeBiquad high band low).readCh c' = r.readCh c' := rfl
@[simp] theorem Regs.writeBiquad_readHp (high band low : Word) (h' : Fin 4) : (r.writeBiquad high band low).readHp h' = r.readHp h' := rfl
@[simp] theorem Regs.writeBiquad_readBp (high band low : Word) (b' : Fin 2) : (r.writeBiquad high band low).readBp b' = r.readBp b' := rfl
@[simp] theorem Regs.writeBiquad_stageEnabled (high band low : Word) (c' : Fin 6) (s' : Fin 3) : (r.writeBiquad high band low).stageEnabled c' s' = r.stageEnabled c' s' := rfl
@[simp] theorem Regs.writeBiquad_tapRep (high band low : Word) (t : Tap) : (r.writeBiquad high band low).tapRep t = r.tapRep t := rfl
@[simp] theorem Regs.writeBiquad_tapClass (high band low : Word) (t : Tap) : (r.writeBiquad high band low).tapClass t = r.tapClass t := rfl
@[simp] theorem Regs.writeBiquad_tapVal (high band low : Word) (t : Tap) : (r.writeBiquad high band low).tapVal t = r.tapVal t := rfl
@[simp] theorem Regs.writeBiquad_cfgValid (high band low : Word) : (r.writeBiquad high band low).cfgValid = r.cfgValid := rfl

/-! ### `writeCh` -/
@[simp] theorem Regs.writeCh_acc (c : Fin 6) (v : ChCfg) : (r.writeCh c v).acc = r.acc := rfl
@[simp] theorem Regs.writeCh_bqLow (c : Fin 6) (v : ChCfg) : (r.writeCh c v).bqLow = r.bqLow := rfl
@[simp] theorem Regs.writeCh_bqBand (c : Fin 6) (v : ChCfg) : (r.writeCh c v).bqBand = r.bqBand := rfl
@[simp] theorem Regs.writeCh_hpout (c : Fin 6) (v : ChCfg) : (r.writeCh c v).hpout = r.hpout := rfl
@[simp] theorem Regs.writeCh_bpout (c : Fin 6) (v : ChCfg) : (r.writeCh c v).bpout = r.bpout := rfl
@[simp] theorem Regs.writeCh_brout (c : Fin 6) (v : ChCfg) : (r.writeCh c v).brout = r.brout := rfl
@[simp] theorem Regs.writeCh_bqHigh (c : Fin 6) (v : ChCfg) : (r.writeCh c v).bqHigh = r.bqHigh := rfl
@[simp] theorem Regs.writeCh_stepped (c : Fin 6) (v : ChCfg) : (r.writeCh c v).stepped = r.stepped := rfl
@[simp] theorem Regs.writeCh_stale (c : Fin 6) (v : ChCfg) : (r.writeCh c v).stale = r.stale := rfl
@[simp] theorem Regs.writeCh_ch (c : Fin 6) (v : ChCfg) : (r.writeCh c v).ch = r.ch.set c v := rfl
@[simp] theorem Regs.writeCh_hp (c : Fin 6) (v : ChCfg) : (r.writeCh c v).hp = r.hp := rfl
@[simp] theorem Regs.writeCh_bp (c : Fin 6) (v : ChCfg) : (r.writeCh c v).bp = r.bp := rfl
@[simp] theorem Regs.writeCh_bq (c : Fin 6) (v : ChCfg) : (r.writeCh c v).bq = r.bq := rfl
@[simp] theorem Regs.writeCh_sel (c : Fin 6) (v : ChCfg) : (r.writeCh c v).sel = r.sel := rfl
@[simp] theorem Regs.writeCh_readAcc (c : Fin 6) (v : ChCfg) (c' : Fin 6) (s' : Fin 3) : (r.writeCh c v).readAcc c' s' = r.readAcc c' s' := rfl
@[simp] theorem Regs.writeCh_readHpout (c : Fin 6) (v : ChCfg) (h' : Fin 4) : (r.writeCh c v).readHpout h' = r.readHpout h' := rfl
@[simp] theorem Regs.writeCh_readBpout (c : Fin 6) (v : ChCfg) (b' : Fin 2) : (r.writeCh c v).readBpout b' = r.readBpout b' := rfl
@[simp] theorem Regs.writeCh_readBrout (c : Fin 6) (v : ChCfg) (b' : Fin 2) : (r.writeCh c v).readBrout b' = r.readBrout b' := rfl
@[simp] theorem Regs.writeCh_readHp (c : Fin 6) (v : ChCfg) (h' : Fin 4) : (r.writeCh c v).readHp h' = r.readHp h' := rfl
@[simp] theorem Regs.writeCh_readBp (c : Fin 6) (v : ChCfg) (b' : Fin 2) : (r.writeCh c v).readBp b' = r.readBp b' := rfl

/-! ### `writeHp` -/
@[simp] theorem Regs.writeHp_acc (h : Fin 4) (v : HpCfg) : (r.writeHp h v).acc = r.acc := rfl
@[simp] theorem Regs.writeHp_bqLow (h : Fin 4) (v : HpCfg) : (r.writeHp h v).bqLow = r.bqLow := rfl
@[simp] theorem Regs.writeHp_bqBand (h : Fin 4) (v : HpCfg) : (r.writeHp h v).bqBand = r.bqBand := rfl
@[simp] theorem Regs.writeHp_hpout (h : Fin 4) (v : HpCfg) : (r.writeHp h v).hpout = r.hpout := rfl
@[simp] theorem Regs.writeHp_bpout (h : Fin 4) (v : HpCfg) : (r.writeHp h v).bpout = r.bpout := rfl
@[simp] theorem Regs.writeHp_brout (h : Fin 4) (v : HpCfg) : (r.writeHp h v).brout = r.brout := rfl
@[simp] theorem Regs.writeHp_bqHigh (h : Fin 4) (v : HpCfg) : (r.writeHp h v).bqHigh = r.bqHigh := rfl
@[simp] theorem Regs.writeHp_stepped (h : Fin 4) (v : HpCfg) : (r.writeHp h v).stepped = r.stepped := rfl
@[simp] theorem Regs.writeHp_stale (h : Fin 4) (v : HpCfg) : (r.writeHp h v).stale = r.stale := rfl
@[simp] theorem Regs.writeHp_ch (h : Fin 4) (v : HpCfg) : (r.writeHp h v).ch = r.ch := rfl
@[simp] theorem Regs.writeHp_hp (h : Fin 4) (v : HpCfg) : (r.writeHp h v).hp = r.hp.set h v := rfl
@[simp] theorem Regs.writeHp_bp (h : Fin 4) (v : HpCfg) : (r.writeHp h v).bp = r.bp := rfl
@[simp] theorem Regs.writeHp_bq (h : Fin 4) (v : HpCfg) : (r.writeHp h v).bq = r.bq := rfl
@[simp] theorem Regs.writeHp_sel (h : Fin 4) (v : HpCfg) : (r.writeHp h v).sel = r.sel := rfl
@[simp] theorem Regs.writeHp_readAcc (h : Fin 4) (v : HpCfg) (c' : Fin 6) (s' : Fin 3) : (r.writeHp h v).readAcc c' s' = r.readAcc c' s' := rfl
@[simp] theorem Regs.writeHp_readHpout (h : Fin 4) (v : HpCfg) (h' : Fin 4) : (r.writeHp h v).readHpout h' = r.readHpout h' := rfl
@[simp] theorem Regs.writeHp_readBpout (h : Fin 4) (v : HpCfg) (b' : Fin 2) : (r.writeHp h v).readBpout b' = r.readBpout b' := rfl
@[simp] theorem Regs.writeHp_readBrout (h : Fin 4) (v : HpCfg) (b' : Fin 2) : (r.writeHp h v).readBrout b' = r.readBrout b' := rfl
@[simp] theorem Regs.writeHp_readCh (h : Fin 4) (v : HpCfg) (c' : Fin 6) : (r.writeHp h v).readCh c' = r.readCh c' := rfl
@[simp] theorem Regs.writeHp_readBp (h : Fin 4) (v : HpCfg) (b' : Fin 2) : (r.writeHp h v).readBp b' = r.readBp b' := rfl
@[simp] theorem Regs.writeHp_stageEnabled (h : Fin 4) (v : HpCfg) (c' : Fin 6) (s' : Fin 3) : (r.writeHp h v).stageEnabled c' s' = r.stageEnabled c' s' := rfl
@[simp] theorem Regs.writeHp_tapRep (h : Fin 4) (v : HpCfg) (t : Tap) : (r.writeHp h v).tapRep t = r.tapRep t := rfl
@[simp] theorem Regs.writeHp_tapClass (h : Fin 4) (v : HpCfg) (t : Tap) : (r.writeHp h v).tapClass t = r.tapClass t := rfl
@[simp] theorem Regs.writeHp_tapVal (h : Fin 4) (v : HpCfg) (t : Tap) : (r.writeHp h v).tapVal t = r.tapVal t := rfl

/-! ### `writeBp` -/
@[simp] theorem Regs.writeBp_acc (b : Fin 2) (v : BpCfg) : (r.writeBp b v).acc = r.acc := rfl
@[simp] theorem Regs.writeBp_bqLow (b : Fin 2) (v : BpCfg) : (r.writeBp b v).bqLow = r.bqLow := rfl
@[simp] theorem Regs.writeBp_bqBand (b : Fin 2) (v : BpCfg) : (r.writeBp b v).bqBand = r.bqBand := rfl
@[simp] theorem Regs.writeBp_hpout (b : Fin 2) (v : BpCfg) : (r.writeBp b v).hpout = r.hpout := rfl
@[simp] theorem Regs.writeBp_bpout (b : Fin 2) (v : BpCfg) : (r.writeBp b v).bpout = r.bpout := rfl
@[simp] theorem Regs.writeBp_brout (b : Fin 2) (v : BpCfg) : (r.writeBp b v).brout = r.brout := rfl
@[simp] theorem Regs.writeBp_bqHigh (b : Fin 2) (v : BpCfg) : (r.writeBp b v).bqHigh = r.bqHigh := rfl
@[simp] theorem Regs.writeBp_stepped (b : Fin 2) (v : BpCfg) : (r.writeBp b v).stepped = r.stepped := rfl
@[simp] theorem Regs.writeBp_stale (b : Fin 2) (v : BpCfg) : (r.writeBp b v).stale = r.stale := rfl
@[simp] theorem Regs.writeBp_ch (b : Fin 2) (v : BpCfg) : (r.writeBp b v).ch = r.ch := rfl
@[simp] theorem Regs.writeBp_hp (b : Fin 2) (v : BpCfg) : (r.writeBp b v).hp = r.hp := rfl
@[simp] theorem Regs.writeBp_bp (b : Fin 2) (v : BpCfg) : (r.writeBp b v).bp = r.bp.set b v := rfl
@[simp] theorem Regs.writeBp_bq (b : Fin 2) (v : BpCfg) : (r.writeBp b v).bq = r.bq := rfl
@[simp] theorem Regs.writeBp_sel (b : Fin 2) (v : BpCfg) : (r.writeBp b v).sel = r.sel := rfl
@[simp] theorem Regs.writeBp_readAcc (b : Fin 2) (v : BpCfg) (c' : Fin 6) (s' : Fin 3) : (r.writeBp b v).readAcc c' s' = r.readAcc c' s' := rfl
@[simp] theorem Regs.writeBp_readHpout (b : Fin 2) (v : BpCfg) (h' : Fin 4) : (r.writeBp b v).readHpout h' = r.readHpout h' := rfl
@[simp] theorem Regs.writeBp_readBpout (b : Fin 2) (v : BpCfg) (b' : Fin 2) : (r.writeBp b v).readBpout b' = r.readBpout b' := rfl
@[simp] theorem Regs.writeBp_readBrout (b : Fin 2) (v : BpCfg) (b' : Fin 2) : (r.writeBp b v).readBrout b' = r.readBrout b' := rfl
@[simp] theorem Regs.writeBp_readCh (b : Fin 2) (v : BpCfg) (c' : Fin 6) : (r.writeBp b v).readCh c' = r.readCh c' := rfl
@[simp] theorem Regs.writeBp_readHp (b : Fin 2) (v : BpCfg) (h' : Fin 4) : (r.writeBp b v).readHp h' = r.readHp h' := rfl
@[simp] theorem Regs.writeBp_stageEnabled (b : Fin 2) (v : BpCfg) (c' : Fin 6) (s' : Fin 3) : (r.writeBp b v).stageEnabled c' s' = r.stageEnabled c' s' := rfl
@[simp] theorem Regs.writeBp_tapRep (b : Fin 2) (v : BpCfg) (t : Tap) : (r.writeBp b v).tapRep t = r.tapRep t := rfl
@[simp] theorem Regs.writeBp_tapClass (b : Fin 2) (v : BpCfg) (t : Tap) : (r.writeBp b v).tapClass t = r.tapClass t := rfl
@[simp] theorem Regs.writeBp_tapVal (b : Fin 2) (v : BpCfg) (t : Tap) : (r.writeBp b v).tapVal t = r.tapVal t := rfl

/-! ### `writeBq` -/
@[simp] theorem Regs.writeBq_acc (v : BqCfg) : (r.writeBq v).acc = r.acc := rfl
@[simp] theorem Regs.writeBq_bqLow (v : BqCfg) : (r.writeBq v).bqLow = r.bqLow := rfl
@[simp] theorem Regs.writeBq_bqBand (v : BqCfg) : (r.writeBq v).bqBand = r.bqBand := rfl
@[simp] theorem Regs.writeBq_hpout (v : BqCfg) : (r.writeBq v).hpout = r.hpout := rfl
@[simp] theorem Regs.writeBq_bpout (v : BqCfg) : (r.writeBq v).bpout = r.bpout := rfl
@[simp] theorem Regs.writeBq_brout (v : BqCfg) : (r.writeBq v).brout = r.brout := rfl
@[simp] theorem Regs.writeBq_bqHigh (v : BqCfg) : (r.writeBq v).bqHigh = r.bqHigh := rfl
@[simp] theorem Regs.writeBq_stepped (v : BqCfg) : (r.writeBq v).stepped = r.stepped := rfl
@[simp] theorem Regs.writeBq_stale (v : BqCfg) : (r.writeBq v).stale = r.stale := rfl
@[simp] theorem Regs.writeBq_ch (v : BqCfg) : (r.writeBq v).ch = r.ch := rfl
@[simp] theorem Regs.writeBq_hp (v : BqCfg) : (r.writeBq v).hp = r.hp := rfl
@[simp] theorem Regs.writeBq_bp (v : BqCfg) : (r.writeBq v).bp = r.bp := rfl
@[simp] theorem Regs.writeBq_bq (v : BqCfg) : (r.writeBq v).bq = v := rfl
@[simp] theorem Regs.writeBq_sel (v : BqCfg) : (r.writeBq v).sel = r.sel := rfl
@[simp] theorem Regs.writeBq_readAcc (v : BqCfg) (c' : Fin 6) (s' : Fin 3) : (r.writeBq v).readAcc c' s' = r.readAcc c' s' := rfl
@[simp] theorem Regs.writeBq_readHpout (v : BqCfg) (h' : Fin 4) : (r.writeBq v).readHpout h' = r.readHpout h' := rfl
@[simp] theorem Regs.writeBq_readBpout (v : BqCfg) (b' : Fin 2) : (r.writeBq v).readBpout b' = r.readBpout b' := rfl
@[simp] theorem Regs.writeBq_readBrout (v : BqCfg) (b' : Fin 2) : (r.writeBq v).readBrout b' = r.readBrout b' := rfl
@[simp] theorem Regs.writeBq_readCh (v : BqCfg) (c' : Fin 6) : (r.writeBq v).readCh c' = r.readCh c' := rfl
@[simp] theorem Regs.writeBq_readHp (v : BqCfg) (h' : Fin 4) : (r.writeBq v).readHp h' = r.readHp h' := rfl
@[simp] theorem Regs.writeBq_readBp (v : BqCfg) (b' : Fin 2) : (r.writeBq v).readBp b' = r.readBp b' := rfl
@[simp] theorem Regs.writeBq_stageEnabled (v : BqCfg) (c' : Fin 6) (s' : Fin 3) : (r.writeBq v).stageEnabled c' s' = r.stageEnabled c' s' := rfl
@[simp] theorem Regs.writeBq_tapRep (v : BqCfg) (t : Tap) : (r.writeBq v).tapRep t = r.tapRep t := rfl
@[simp] theorem Regs.writeBq_tapClass (v : BqCfg) (t : Tap) : (r.writeBq v).tapClass t = r.tapClass t := rfl
@[simp] theorem Regs.writeBq_tapVal (v : BqCfg) (t : Tap) : (r.writeBq v).tapVal t = r.tapVal t := rfl

/-! ### `writeSel` -/
@[simp] theorem Regs.writeSel_acc (mask : BitVec 29) : (r.writeSel mask).acc = r.acc := rfl
@[simp] theorem Regs.writeSel_bqLow (mask : BitVec 29) : (r.writeSel mask).bqLow = r.bqLow := rfl
@[simp] theorem Regs.writeSel_bqBand (mask : BitVec 29) : (r.writeSel mask).bqBand = r.bqBand := rfl
@[simp] theorem Regs.writeSel_hpout (mask : BitVec 29) : (r.writeSel mask).hpout = r.hpout := rfl
@[simp] theorem Regs.writeSel_bpout (mask : BitVec 29) : (r.writeSel mask).bpout = r.bpout := rfl
@[simp] theorem Regs.writeSel_brout (mask : BitVec 29) : (r.writeSel mask).brout = r.brout := rfl
@[simp] theorem Regs.writeSel_bqHigh (mask : BitVec 29) : (r.writeSel mask).bqHigh = r.bqHigh := rfl
@[simp] theorem Regs.writeSel_stepped (mask : BitVec 29) : (r.writeSel mask).stepped = r.stepped := rfl
@[simp] theorem Regs.writeSel_stale (mask : BitVec 29) : (r.writeSel mask).stale = r.stale := rfl
@[simp] theorem Regs.writeSel_ch (mask : BitVec 29) : (r.writeSel mask).ch = r.ch := rfl
@[simp] theorem Regs.writeSel_hp (mask : BitVec 29) : (r.writeSel mask).hp = r.hp := rfl
@[simp] theorem Regs.writeSel_bp (mask : BitVec 29) : (r.writeSel mask).bp = r.bp := rfl
@[simp] theorem Regs.writeSel_bq (mask : BitVec 29) : (r.writeSel mask).bq = r.bq := rfl
@[simp] theorem Regs.writeSel_sel (mask : BitVec 29) : (r.writeSel mask).sel = mask := rfl
@[simp] theorem Regs.writeSel_readAcc (mask : BitVec 29) (c' : Fin 6) (s' : Fin 3) : (r.writeSel mask).readAcc c' s' = r.readAcc c' s' := rfl
@[simp] theorem Regs.writeSel_readHpout (mask : BitVec 29) (h' : Fin 4) : (r.writeSel mask).readHpout h' = r.readHpout h' := rfl
@[simp] theorem Regs.writeSel_readBpout (mask : BitVec 29) (b' : Fin 2) : (r.writeSel mask).readBpout b' = r.readBpout b' := rfl
@[simp] theorem Regs.writeSel_readBrout (mask : BitVec 29) (b' : Fin 2) : (r.writeSel mask).readBrout b' = r.readBrout b' := rfl
@[simp] theorem Regs.writeSel_readCh (mask : BitVec 29) (c' : Fin 6) : (r.writeSel mask).readCh c' = r.readCh c' := rfl
@[simp] theorem Regs.writeSel_readHp (mask : BitVec 29) (h' : Fin 4) : (r.writeSel mask).readHp h' = r.readHp h' := rfl
@[simp] theorem Regs.writeSel_readBp (mask : BitVec 29) (b' : Fin 2) : (r.writeSel mask).readBp b' = r.readBp b' := rfl
@[simp] theorem Regs.writeSel_stageEnabled (mask : BitVec 29) (c' : Fin 6) (s' : Fin 3) : (r.writeSel mask).stageEnabled c' s' = r.stageEnabled c' s' := rfl
@[simp] theorem Regs.writeSel_tapRep (mask : BitVec 29) (t : Tap) : (r.writeSel mask).tapRep t = r.tapRep t := rfl
@[simp] theorem Regs.writeSel_tapClass (mask : BitVec 29) (t : Tap) : (r.writeSel mask).tapClass t = r.tapClass t := rfl
@[simp] theorem Regs.writeSel_tapVal (mask : BitVec 29) (t : Tap) : (r.writeSel mask).tapVal t = r.tapVal t := rfl
@[simp] theorem Regs.writeSel_cfgValid (mask : BitVec 29) : (r.writeSel mask).cfgValid = r.cfgValid := rfl

/-! ### `zeroHistory` -/
@[simp] theorem Regs.zeroHistory_acc : r.zeroHistory.acc = Regs.powerOn.acc := rfl
@[simp] theorem Regs.zeroHistory_bqLow : r.zeroHistory.bqLow = 0#32 := rfl
@[simp] theorem Regs.zeroHistory_bqBand : r.zeroHistory.bqBand = 0#32 := rfl
@[simp] theorem Regs.zeroHistory_hpout : r.zeroHistory.hpout = Regs.powerOn.hpout := rfl
@[simp] theorem Regs.zeroHistory_bpout : r.zeroHistory.bpout = Regs.powerOn.bpout := rfl
@[simp] theorem Regs.zeroHistory_brout : r.zeroHistory.brout = Regs.powerOn.brout := rfl
@[simp] theorem Regs.zeroHistory_bqHigh : r.zeroHistory.bqHigh = 0#32 := rfl
@[simp] theorem Regs.zeroHistory_stepped : r.zeroHistory.stepped = r.stepped := rfl
@[simp] theorem Regs.zeroHistory_stale : r.zeroHistory.stale = r.stale := rfl
@[simp] theorem Regs.zeroHistory_ch : r.zeroHistory.ch = r.ch := rfl
@[simp] theorem Regs.zeroHistory_hp : r.zeroHistory.hp = r.hp := rfl
@[simp] theorem Regs.zeroHistory_bp : r.zeroHistory.bp = r.bp := rfl
@[simp] theorem Regs.zeroHistory_bq : r.zeroHistory.bq = r.bq := rfl
@[simp] theorem Regs.zeroHistory_sel : r.zeroHistory.sel = r.sel := rfl
@[simp] theorem Regs.zeroHistory_readCh (c' : Fin 6) : r.zeroHistory.readCh c' = r.readCh c' := rfl
@[simp] theorem Regs.zeroHistory_readHp (h' : Fin 4) : r.zeroHistory.readHp h' = r.readHp h' := rfl
@[simp] theorem Regs.zeroHistory_readBp (b' : Fin 2) : r.zeroHistory.readBp b' = r.readBp b' := rfl
@[simp] theorem Regs.zeroHistory_stageEnabled (c' : Fin 6) (s' : Fin 3) : r.zeroHistory.stageEnabled c' s' = r.stageEnabled c' s' := rfl
@[simp] theorem Regs.zeroHistory_tapRep (t : Tap) : r.zeroHistory.tapRep t = r.tapRep t := rfl
@[simp] theorem Regs.zeroHistory_tapClass (t : Tap) : r.zeroHistory.tapClass t = r.tapClass t := rfl
@[simp] theorem Regs.zeroHistory_cfgValid : r.zeroHistory.cfgValid = r.cfgValid := rfl

/-! ### `setStepped` -/
@[simp] theorem Regs.setStepped_acc : r.setStepped.acc = r.acc := rfl
@[simp] theorem Regs.setStepped_bqLow : r.setStepped.bqLow = r.bqLow := rfl
@[simp] theorem Regs.setStepped_bqBand : r.setStepped.bqBand = r.bqBand := rfl
@[simp] theorem Regs.setStepped_hpout : r.setStepped.hpout = r.hpout := rfl
@[simp] theorem Regs.setStepped_bpout : r.setStepped.bpout = r.bpout := rfl
@[simp] theorem Regs.setStepped_brout : r.setStepped.brout = r.brout := rfl
@[simp] theorem Regs.setStepped_bqHigh : r.setStepped.bqHigh = r.bqHigh := rfl
@[simp] theorem Regs.setStepped_stepped : r.setStepped.stepped = true := rfl
@[simp] theorem Regs.setStepped_stale : r.setStepped.stale = r.stale := rfl
@[simp] theorem Regs.setStepped_ch : r.setStepped.ch = r.ch := rfl
@[simp] theorem Regs.setStepped_hp : r.setStepped.hp = r.hp := rfl
@[simp] theorem Regs.setStepped_bp : r.setStepped.bp = r.bp := rfl
@[simp] theorem Regs.setStepped_bq : r.setStepped.bq = r.bq := rfl
@[simp] theorem Regs.setStepped_sel : r.setStepped.sel = r.sel := rfl
@[simp] theorem Regs.setStepped_readAcc (c' : Fin 6) (s' : Fin 3) : r.setStepped.readAcc c' s' = r.readAcc c' s' := rfl
@[simp] theorem Regs.setStepped_readHpout (h' : Fin 4) : r.setStepped.readHpout h' = r.readHpout h' := rfl
@[simp] theorem Regs.setStepped_readBpout (b' : Fin 2) : r.setStepped.readBpout b' = r.readBpout b' := rfl
@[simp] theorem Regs.setStepped_readBrout (b' : Fin 2) : r.setStepped.readBrout b' = r.readBrout b' := rfl
@[simp] theorem Regs.setStepped_readCh (c' : Fin 6) : r.setStepped.readCh c' = r.readCh c' := rfl
@[simp] theorem Regs.setStepped_readHp (h' : Fin 4) : r.setStepped.readHp h' = r.readHp h' := rfl
@[simp] theorem Regs.setStepped_readBp (b' : Fin 2) : r.setStepped.readBp b' = r.readBp b' := rfl
@[simp] theorem Regs.setStepped_stageEnabled (c' : Fin 6) (s' : Fin 3) : r.setStepped.stageEnabled c' s' = r.stageEnabled c' s' := rfl
@[simp] theorem Regs.setStepped_tapRep (t : Tap) : r.setStepped.tapRep t = r.tapRep t := rfl
@[simp] theorem Regs.setStepped_tapClass (t : Tap) : r.setStepped.tapClass t = r.tapClass t := rfl
@[simp] theorem Regs.setStepped_tapVal (t : Tap) : r.setStepped.tapVal t = r.tapVal t := rfl
@[simp] theorem Regs.setStepped_cfgValid : r.setStepped.cfgValid = r.cfgValid := rfl

/-! ### `clearFlags` -/
@[simp] theorem Regs.clearFlags_acc : r.clearFlags.acc = r.acc := rfl
@[simp] theorem Regs.clearFlags_bqLow : r.clearFlags.bqLow = r.bqLow := rfl
@[simp] theorem Regs.clearFlags_bqBand : r.clearFlags.bqBand = r.bqBand := rfl
@[simp] theorem Regs.clearFlags_hpout : r.clearFlags.hpout = r.hpout := rfl
@[simp] theorem Regs.clearFlags_bpout : r.clearFlags.bpout = r.bpout := rfl
@[simp] theorem Regs.clearFlags_brout : r.clearFlags.brout = r.brout := rfl
@[simp] theorem Regs.clearFlags_bqHigh : r.clearFlags.bqHigh = r.bqHigh := rfl
@[simp] theorem Regs.clearFlags_stepped : r.clearFlags.stepped = false := rfl
@[simp] theorem Regs.clearFlags_stale : r.clearFlags.stale = false := rfl
@[simp] theorem Regs.clearFlags_ch : r.clearFlags.ch = r.ch := rfl
@[simp] theorem Regs.clearFlags_hp : r.clearFlags.hp = r.hp := rfl
@[simp] theorem Regs.clearFlags_bp : r.clearFlags.bp = r.bp := rfl
@[simp] theorem Regs.clearFlags_bq : r.clearFlags.bq = r.bq := rfl
@[simp] theorem Regs.clearFlags_sel : r.clearFlags.sel = r.sel := rfl
@[simp] theorem Regs.clearFlags_readAcc (c' : Fin 6) (s' : Fin 3) : r.clearFlags.readAcc c' s' = r.readAcc c' s' := rfl
@[simp] theorem Regs.clearFlags_readHpout (h' : Fin 4) : r.clearFlags.readHpout h' = r.readHpout h' := rfl
@[simp] theorem Regs.clearFlags_readBpout (b' : Fin 2) : r.clearFlags.readBpout b' = r.readBpout b' := rfl
@[simp] theorem Regs.clearFlags_readBrout (b' : Fin 2) : r.clearFlags.readBrout b' = r.readBrout b' := rfl
@[simp] theorem Regs.clearFlags_readCh (c' : Fin 6) : r.clearFlags.readCh c' = r.readCh c' := rfl
@[simp] theorem Regs.clearFlags_readHp (h' : Fin 4) : r.clearFlags.readHp h' = r.readHp h' := rfl
@[simp] theorem Regs.clearFlags_readBp (b' : Fin 2) : r.clearFlags.readBp b' = r.readBp b' := rfl
@[simp] theorem Regs.clearFlags_stageEnabled (c' : Fin 6) (s' : Fin 3) : r.clearFlags.stageEnabled c' s' = r.stageEnabled c' s' := rfl
@[simp] theorem Regs.clearFlags_tapRep (t : Tap) : r.clearFlags.tapRep t = r.tapRep t := rfl
@[simp] theorem Regs.clearFlags_tapClass (t : Tap) : r.clearFlags.tapClass t = r.tapClass t := rfl
@[simp] theorem Regs.clearFlags_tapVal (t : Tap) : r.clearFlags.tapVal t = r.tapVal t := rfl
@[simp] theorem Regs.clearFlags_cfgValid : r.clearFlags.cfgValid = r.cfgValid := rfl

/-! ### `markStale` -/
@[simp] theorem Regs.markStale_acc : r.markStale.acc = r.acc := rfl
@[simp] theorem Regs.markStale_bqLow : r.markStale.bqLow = r.bqLow := rfl
@[simp] theorem Regs.markStale_bqBand : r.markStale.bqBand = r.bqBand := rfl
@[simp] theorem Regs.markStale_hpout : r.markStale.hpout = r.hpout := rfl
@[simp] theorem Regs.markStale_bpout : r.markStale.bpout = r.bpout := rfl
@[simp] theorem Regs.markStale_brout : r.markStale.brout = r.brout := rfl
@[simp] theorem Regs.markStale_bqHigh : r.markStale.bqHigh = r.bqHigh := rfl
@[simp] theorem Regs.markStale_stepped : r.markStale.stepped = r.stepped := rfl
@[simp] theorem Regs.markStale_stale : r.markStale.stale = (r.stale || r.stepped) := rfl
@[simp] theorem Regs.markStale_ch : r.markStale.ch = r.ch := rfl
@[simp] theorem Regs.markStale_hp : r.markStale.hp = r.hp := rfl
@[simp] theorem Regs.markStale_bp : r.markStale.bp = r.bp := rfl
@[simp] theorem Regs.markStale_bq : r.markStale.bq = r.bq := rfl
@[simp] theorem Regs.markStale_sel : r.markStale.sel = r.sel := rfl
@[simp] theorem Regs.markStale_readAcc (c' : Fin 6) (s' : Fin 3) : r.markStale.readAcc c' s' = r.readAcc c' s' := rfl
@[simp] theorem Regs.markStale_readHpout (h' : Fin 4) : r.markStale.readHpout h' = r.readHpout h' := rfl
@[simp] theorem Regs.markStale_readBpout (b' : Fin 2) : r.markStale.readBpout b' = r.readBpout b' := rfl
@[simp] theorem Regs.markStale_readBrout (b' : Fin 2) : r.markStale.readBrout b' = r.readBrout b' := rfl
@[simp] theorem Regs.markStale_readCh (c' : Fin 6) : r.markStale.readCh c' = r.readCh c' := rfl
@[simp] theorem Regs.markStale_readHp (h' : Fin 4) : r.markStale.readHp h' = r.readHp h' := rfl
@[simp] theorem Regs.markStale_readBp (b' : Fin 2) : r.markStale.readBp b' = r.readBp b' := rfl
@[simp] theorem Regs.markStale_stageEnabled (c' : Fin 6) (s' : Fin 3) : r.markStale.stageEnabled c' s' = r.stageEnabled c' s' := rfl
@[simp] theorem Regs.markStale_tapRep (t : Tap) : r.markStale.tapRep t = r.tapRep t := rfl
@[simp] theorem Regs.markStale_tapClass (t : Tap) : r.markStale.tapClass t = r.tapClass t := rfl
@[simp] theorem Regs.markStale_tapVal (t : Tap) : r.markStale.tapVal t = r.tapVal t := rfl
@[simp] theorem Regs.markStale_cfgValid : r.markStale.cfgValid = r.cfgValid := rfl

/-! ### Reading what was written -/

/-- One entry of a bank after a write to one entry. -/
theorem getElem_set_fin {α : Type} {n : Nat} (v : Vector α n) (i j : Fin n) (x : α) :
    (v.set i x)[j] = if j = i then x else v[j] := by
  simp only [Fin.getElem_fin, Vector.getElem_set]
  by_cases h : i = j
  · subst h; simp
  · have h1 : ¬ i.val = j.val := fun e => h (Fin.ext e)
    have h2 : ¬ j = i := fun e => h e.symm
    simp [h1, h2]

/-- An accumulator read after a write: the value written at that place, the old value elsewhere. -/
theorem Regs.readAcc_writeAcc (c c' : Fin 6) (s s' : Fin 3) (v : Word) :
    (r.writeAcc c s v).readAcc c' s' = if c' = c ∧ s' = s then v else r.readAcc c' s' := by
  rw [Regs.readAcc, Regs.writeAcc_acc, getElem_set_fin]
  by_cases hc : c' = c
  · subst hc
    rw [if_pos rfl, getElem_set_fin]
    by_cases hs : s' = s
    · rw [if_pos hs, if_pos ⟨rfl, hs⟩]
    · rw [if_neg hs, if_neg (fun h => hs h.2)]; rfl
  · rw [if_neg hc, if_neg (fun h => hc h.1)]; rfl

@[simp] theorem Regs.readAcc_writeAcc_same (c : Fin 6) (s : Fin 3) (v : Word) :
    (r.writeAcc c s v).readAcc c s = v := by
  rw [Regs.readAcc_writeAcc, if_pos ⟨rfl, rfl⟩]

theorem Regs.readHpout_writeHpout (h h' : Fin 4) (v : Word) :
    (r.writeHpout h v).readHpout h' = if h' = h then v else r.readHpout h' := getElem_set_fin _ _ _ _

theorem Regs.readBpout_writeBpout (b b' : Fin 2) (v : Word) :
    (r.writeBpout b v).readBpout b' = if b' = b then v else r.readBpout b' := getElem_set_fin _ _ _ _

theorem Regs.readBrout_writeBrout (b b' : Fin 2) (v : Word) :
    (r.writeBrout b v).readBrout b' = if b' = b then v else r.readBrout b' := getElem_set_fin _ _ _ _

theorem Regs.readCh_writeCh (c c' : Fin 6) (v : ChCfg) :
    (r.writeCh c v).readCh c' = if c' = c then v else r.readCh c' := getElem_set_fin _ _ _ _

theorem Regs.readHp_writeHp (h h' : Fin 4) (v : HpCfg) :
    (r.writeHp h v).readHp h' = if h' = h then v else r.readHp h' := getElem_set_fin _ _ _ _

theorem Regs.readBp_writeBp (b b' : Fin 2) (v : BpCfg) :
    (r.writeBp b v).readBp b' = if b' = b then v else r.readBp b' := getElem_set_fin _ _ _ _

@[simp] theorem Regs.writeHpout_readHpout_self (h : Fin 4) : r.writeHpout h (r.readHpout h) = r := by
  simp [Regs.writeHpout, Regs.readHpout]

@[simp] theorem Regs.writeBpout_readBpout_self (b : Fin 2) : r.writeBpout b (r.readBpout b) = r := by
  simp [Regs.writeBpout, Regs.readBpout]

@[simp] theorem Regs.writeBrout_readBrout_self (b : Fin 2) : r.writeBrout b (r.readBrout b) = r := by
  simp [Regs.writeBrout, Regs.readBrout]

/-- The accumulator bank is the same when every accumulator reads the same. -/
theorem acc_ext {a b : Vector (Vector Word 3) 6} (h : ∀ (c : Fin 6) (s : Fin 3), a[c][s] = b[c][s]) : a = b := by
  ext i hi j hj : 2
  exact h ⟨i, hi⟩ ⟨j, hj⟩

/-! ### The state around the registers -/

@[simp] theorem State.pinsPassed_regs (s : State) : s.pinsPassed.regs = s.regs := rfl
@[simp] theorem State.pinsPassed_rsp (s : State) : s.pinsPassed.rsp = s.rsp := rfl
@[simp] theorem State.pinsPassed_pins (s : State) : s.pinsPassed.pins = s.pins.tail := rfl
@[simp] theorem powerOnReset_regs (s : State) : (powerOnReset s).regs = Regs.powerOn := rfl
@[simp] theorem powerOnReset_rsp (s : State) : (powerOnReset s).rsp = none := rfl
@[simp] theorem powerOnReset_pins (s : State) : (powerOnReset s).pins = s.pins := rfl

/-- The zeroed history is the history of the power-on state. -/
theorem Regs.zeroHistory_historyZero : r.zeroHistory.historyZero := by
  refine ⟨fun c s => ?_, rfl, rfl, rfl, fun h => ?_, fun b => ?_, fun b => ?_⟩
  · simp [Regs.readAcc, Regs.zeroHistory, Regs.powerOn]
  · simp [Regs.readHpout, Regs.powerOn]
  · simp [Regs.readBpout, Regs.powerOn]
  · simp [Regs.readBrout, Regs.powerOn]

end Sys2Proof.Machine
end

