-- ==== Sys2Proof/Laws/Bank.lean ====
section
/-! SUPPORT. What one `STEP` does to the registers, said once: the loops of R111 read pointwise, each phase's effect and its frame. -/

namespace Sys2Proof.Machine

/-! ### Loops over the units of one kind -/

/-- A loop whose body at `c` changes only what `view` shows at `c` leaves the rest alone. -/
theorem foldl_view_of_not_mem {ι α β : Type} (f : β → ι → β) (view : β → ι → α)
    (hother : ∀ r c c', c' ≠ c → view (f r c) c' = view r c') (l : List ι) :
    ∀ (r : β) (c : ι), c ∉ l → view (l.foldl f r) c = view r c := by
  induction l with
  | nil => intro r c _; rfl
  | cons a l ih =>
    intro r c hc
    rw [List.mem_cons, not_or] at hc
    rw [List.foldl_cons, ih _ _ hc.2, hother _ _ _ hc.1]

/-- A loop whose body at `c` writes `g` at `c` and changes nothing that `g` reads elsewhere ends with `g` everywhere. -/
theorem foldl_view_of_mem {ι α β : Type} (f : β → ι → β) (view g : β → ι → α)
    (hsame : ∀ r c, view (f r c) c = g r c)
    (hother : ∀ r c c', c' ≠ c → view (f r c) c' = view r c')
    (hg : ∀ r c c', c' ≠ c → g (f r c) c' = g r c') (l : List ι) :
    ∀ (r : β) (c : ι), l.Nodup → c ∈ l → view (l.foldl f r) c = g r c := by
  induction l with
  | nil => intro r c _ hc; cases hc
  | cons a l ih =>
    intro r c hl hc
    rw [List.nodup_cons] at hl
    rw [List.foldl_cons]
    by_cases h : c = a
    · subst h
      rw [foldl_view_of_not_mem f view hother l _ _ hl.1, hsame]
    · have hc' : c ∈ l := (List.mem_cons.mp hc).resolve_left h
      rw [ih _ _ hl.2 hc', hg _ _ _ h]

/-- A loop keeps what its body keeps. -/
theorem foldl_keeps {ι α β : Type} (f : β → ι → β) (part : β → α) (h : ∀ r c, part (f r c) = part r)
    (l : List ι) : ∀ r : β, part (l.foldl f r) = part r := by
  induction l with
  | nil => intro r; rfl
  | cons a l ih => intro r; rw [List.foldl_cons, ih, h]

/-- The loop over all `n` units, in index order, ends with `g` at every unit. -/
theorem foldl_finRange_view {α β : Type} {n : Nat} (f : β → Fin n → β) (view g : β → Fin n → α)
    (hsame : ∀ r c, view (f r c) c = g r c)
    (hother : ∀ r c c', c' ≠ c → view (f r c) c' = view r c')
    (hg : ∀ r c c', c' ≠ c → g (f r c) c' = g r c') (r : β) (c : Fin n) :
    view ((List.finRange n).foldl f r) c = g r c :=
  foldl_view_of_mem f view g hsame hother hg _ r c (List.nodup_finRange n) (List.mem_finRange c)

/-! ### Phases 1 and 2: the accumulators -/

/-- Everything but the accumulators. -/
def Regs.besideAcc (r : Regs) : Regs := { r with acc := Regs.powerOn.acc }

theorem Regs.besideAcc_writeAcc (r : Regs) (c : Fin 6) (s : Fin 3) (v : Word) :
    (r.writeAcc c s v).besideAcc = r.besideAcc := rfl

theorem Regs.readCh_of_besideAcc {r q : Regs} (h : r.besideAcc = q.besideAcc) (c : Fin 6) :
    r.readCh c = q.readCh c :=
  (congrArg (fun p : Regs => p.readCh c) h :)

theorem Regs.singleStage_besideAcc (x : Sample) (r : Regs) (c : Fin 6) :
    (Regs.singleStage x r c).besideAcc = r.besideAcc := by
  simp only [Regs.singleStage]; split <;> rfl

theorem Regs.laterStage_besideAcc (r : Regs) (c : Fin 6) (b s : Fin 3) :
    (r.laterStage c b s).besideAcc = r.besideAcc := by
  simp only [Regs.laterStage]; split <;> rfl

theorem Regs.cascadeStages_besideAcc (r : Regs) (c : Fin 6) : (r.cascadeStages c).besideAcc = r.besideAcc := by
  rw [Regs.cascadeStages, Regs.laterStage_besideAcc, Regs.laterStage_besideAcc]

theorem Regs.phase1_besideAcc (r : Regs) (x : Sample) : (r.phase1 x).besideAcc = r.besideAcc :=
  foldl_keeps _ Regs.besideAcc (Regs.singleStage_besideAcc x) _ r

theorem Regs.phase2_besideAcc (r : Regs) : r.phase2.besideAcc = r.besideAcc :=
  foldl_keeps _ Regs.besideAcc Regs.cascadeStages_besideAcc _ r

/-- Phase 1 at one channel: stage 1 updated from the sample when the channel is enabled (R91). -/
theorem Regs.singleStage_readAcc (x : Sample) (r : Regs) (c c' : Fin 6) (s : Fin 3) :
    (Regs.singleStage x r c).readAcc c' s =
      if c' = c ∧ s = 0 ∧ (r.readCh c).en = true then
        ema (r.readCh c).rep (r.readAcc c 0) (stageInput (r.readCh c).rep x) (r.readCh c).k.toNat
      else r.readAcc c' s := by
  simp only [Regs.singleStage]
  by_cases he : (r.readCh c).en = true
  · rw [if_pos he, Regs.readAcc_writeAcc]; simp [he]
  · rw [if_neg he]; simp [he]

/-- A later stage of one channel: updated from the stage below as it stands (R91). -/
theorem Regs.laterStage_readAcc (r : Regs) (c c' : Fin 6) (b s s' : Fin 3) :
    (r.laterStage c b s).readAcc c' s' =
      if c' = c ∧ s' = s ∧ r.stageEnabled c s = true then
        ema (r.readCh c).rep (r.readAcc c s) (r.readAcc c b) (r.readCh c).k.toNat
      else r.readAcc c' s' := by
  simp only [Regs.laterStage]
  by_cases he : r.stageEnabled c s = true
  · rw [if_pos he, Regs.readAcc_writeAcc]; simp [he]
  · rw [if_neg he]; simp [he]

/-- What phase 1 leaves in a channel. -/
theorem Regs.phase1_readAcc (r : Regs) (x : Sample) (c : Fin 6) (s : Fin 3) :
    (r.phase1 x).readAcc c s =
      if s = 0 ∧ (r.readCh c).en = true then
        ema (r.readCh c).rep (r.readAcc c 0) (stageInput (r.readCh c).rep x) (r.readCh c).k.toNat
      else r.readAcc c s := by
  refine foldl_finRange_view (Regs.singleStage x) (fun q c => q.readAcc c s)
    (fun q c => if s = 0 ∧ (q.readCh c).en = true then
        ema (q.readCh c).rep (q.readAcc c 0) (stageInput (q.readCh c).rep x) (q.readCh c).k.toNat
      else q.readAcc c s) ?_ ?_ ?_ r c
  · intro q c; simp [Regs.singleStage_readAcc]
  · intro q c c' h; simp [Regs.singleStage_readAcc, h]
  · intro q c c' h
    simp only [Regs.singleStage_readAcc, Regs.readCh_of_besideAcc (Regs.singleStage_besideAcc x q c), h, false_and,
      if_false]

/-- The new stage 2 of a channel in phase 2. -/
def Regs.stage2 (r : Regs) (c : Fin 6) : Word :=
  if r.stageEnabled c 1 = true then ema (r.readCh c).rep (r.readAcc c 1) (r.readAcc c 0) (r.readCh c).k.toNat
  else r.readAcc c 1

/-- The new stage 3 of a channel in phase 2, from the new stage 2. -/
def Regs.stage3 (r : Regs) (c : Fin 6) : Word :=
  if r.stageEnabled c 2 = true then ema (r.readCh c).rep (r.readAcc c 2) (r.stage2 c) (r.readCh c).k.toNat
  else r.readAcc c 2

theorem Regs.stageEnabled_of_besideAcc {r q : Regs} (h : r.besideAcc = q.besideAcc) (c : Fin 6) (s : Fin 3) :
    r.stageEnabled c s = q.stageEnabled c s :=
  (congrArg (fun p : Regs => p.stageEnabled c s) h :)

/-- Phase 2 at one channel. -/
theorem Regs.cascadeStages_readAcc (r : Regs) (c c' : Fin 6) (s : Fin 3) :
    (r.cascadeStages c).readAcc c' s =
      if c' = c then (if s = 1 then r.stage2 c else if s = 2 then r.stage3 c else r.readAcc c s)
      else r.readAcc c' s := by
  have hb := Regs.laterStage_besideAcc r c 0 1
  simp only [Regs.cascadeStages, Regs.laterStage_readAcc, Regs.readCh_of_besideAcc hb,
    Regs.stageEnabled_of_besideAcc hb]
  by_cases hc : c' = c
  · subst hc
    fin_cases s <;> simp [Regs.stage2, Regs.stage3]
  · simp [hc]

/-- What phase 2 leaves in a channel. -/
theorem Regs.phase2_readAcc (r : Regs) (c : Fin 6) (s : Fin 3) :
    r.phase2.readAcc c s = if s = 1 then r.stage2 c else if s = 2 then r.stage3 c else r.readAcc c s := by
  refine foldl_finRange_view Regs.cascadeStages (fun q c => q.readAcc c s)
    (fun q c => if s = 1 then q.stage2 c else if s = 2 then q.stage3 c else q.readAcc c s) ?_ ?_ ?_ r c
  · intro q c; simp [Regs.cascadeStages_readAcc]
  · intro q c c' h; simp [Regs.cascadeStages_readAcc, h]
  · intro q c c' h
    have hb := Regs.cascadeStages_besideAcc q c
    simp only [Regs.stage3, Regs.stage2, Regs.stageEnabled_of_besideAcc hb,
      Regs.readCh_of_besideAcc hb, Regs.cascadeStages_readAcc, h, if_false]

/-! ### Phase 3: the combiners -/

/-- What the high-pass combiner `h` puts in its latch (R96). -/
def Regs.newHpout (r : Regs) (x : Sample) (h : Fin 4) : Word :=
  if (r.readHp h).en then
    match tapOfId (r.readHp h).src with
    | some t => combine (r.tapClass t) (sampleIn (r.tapClass t) x) (r.tapVal t)
    | none => (r.readHpout h)
  else (r.readHpout h)

/-- What the band-pass combiner `b` puts in its latch (R97). -/
def Regs.newBpout (r : Regs) (b : Fin 2) : Word :=
  if (r.readBp b).en then
    match tapOfId (r.readBp b).fast, tapOfId (r.readBp b).slow with
    | some f, some s => combine (r.tapClass f) (r.tapVal f) (r.tapVal s)
    | _, _ => (r.readBpout b)
  else (r.readBpout b)

/-- What the band-reject combiner `b` puts in its latch (R98). -/
def Regs.newBrout (r : Regs) (x : Sample) (b : Fin 2) : Word :=
  if (r.readBp b).brEn then
    match tapOfId (r.readBp b).fast with
    | some f => combine (r.tapClass f) (sampleIn (r.tapClass f) x) (r.readBpout b)
    | none => (r.readBrout b)
  else (r.readBrout b)

theorem Regs.newHpout_congr {q p : Regs} (x : Sample) (h : Fin 4) (ha : q.acc = p.acc) (hc : q.ch = p.ch)
    (hh : q.hp = p.hp) (ho : q.hpout = p.hpout) : q.newHpout x h = p.newHpout x h := by
  cases q; cases p; simp only at ha hc hh ho; subst ha hc hh ho; rfl

theorem Regs.newBpout_congr {q p : Regs} (b : Fin 2) (ha : q.acc = p.acc) (hc : q.ch = p.ch)
    (hb : q.bp = p.bp) (ho : q.bpout = p.bpout) : q.newBpout b = p.newBpout b := by
  cases q; cases p; simp only at ha hc hb ho; subst ha hc hb ho; rfl

theorem Regs.newBrout_congr {q p : Regs} (x : Sample) (b : Fin 2) (ha : q.acc = p.acc) (hc : q.ch = p.ch)
    (hb : q.bp = p.bp) (ho : q.bpout = p.bpout) (hr : q.brout = p.brout) : q.newBrout x b = p.newBrout x b := by
  cases q; cases p; simp only at ha hc hb ho hr; subst ha hc hb ho hr; rfl

/-- Everything but the combiners' latches. -/
def Regs.besideLatches (r : Regs) : Regs :=
  { r with hpout := Regs.powerOn.hpout, bpout := Regs.powerOn.bpout, brout := Regs.powerOn.brout }

theorem Regs.highPass_eq (x : Sample) (r : Regs) (h : Fin 4) :
    Regs.highPass x r h = r.writeHpout h (r.newHpout x h) := by
  unfold Regs.highPass Regs.newHpout
  cases tapOfId (r.readHp h).src <;> split <;> simp

theorem Regs.bandPass_eq (r : Regs) (b : Fin 2) : r.bandPass b = r.writeBpout b (r.newBpout b) := by
  unfold Regs.bandPass Regs.newBpout
  cases tapOfId (r.readBp b).fast <;> cases tapOfId (r.readBp b).slow <;> split <;> simp

theorem Regs.bandReject_eq (x : Sample) (r : Regs) (b : Fin 2) :
    Regs.bandReject x r b = r.writeBrout b (r.newBrout x b) := by
  unfold Regs.bandReject Regs.newBrout
  cases tapOfId (r.readBp b).fast <;> split <;> simp

/-- The high-pass loop: what each latch holds, and that nothing else changes. -/
theorem Regs.highPasses_spec (r : Regs) (x : Sample) :
    (∀ h, ((List.finRange 4).foldl (Regs.highPass x) r).readHpout h = r.newHpout x h) ∧
      { (List.finRange 4).foldl (Regs.highPass x) r with hpout := r.hpout } = r := by
  refine ⟨fun h => ?_, ?_⟩
  · refine foldl_finRange_view (Regs.highPass x) (fun q h => (q.readHpout h)) (fun q h => q.newHpout x h) ?_ ?_ ?_ r h
    · intro q c; rw [Regs.highPass_eq, Regs.readHpout_writeHpout, if_pos rfl]
    · intro q c c' h; rw [Regs.highPass_eq, Regs.readHpout_writeHpout, if_neg h]
    · intro q c c' h
      rw [Regs.highPass_eq]
      simp only [Regs.newHpout, Regs.writeHpout_readHp, Regs.writeHpout_tapClass, Regs.writeHpout_tapVal,
        Regs.readHpout_writeHpout, if_neg h]
  · have := foldl_keeps (Regs.highPass x) (fun q : Regs => { q with hpout := r.hpout })
      (fun q c => by rw [Regs.highPass_eq]; rfl) (List.finRange 4) r
    exact this

/-- The band-pass loop. -/
theorem Regs.bandPasses_spec (r : Regs) :
    (∀ b, ((List.finRange 2).foldl Regs.bandPass r).readBpout b = r.newBpout b) ∧
      { (List.finRange 2).foldl Regs.bandPass r with bpout := r.bpout } = r := by
  refine ⟨fun b => ?_, ?_⟩
  · refine foldl_finRange_view Regs.bandPass (fun q b => (q.readBpout b)) (fun q b => q.newBpout b) ?_ ?_ ?_ r b
    · intro q c; rw [Regs.bandPass_eq, Regs.readBpout_writeBpout, if_pos rfl]
    · intro q c c' h; rw [Regs.bandPass_eq, Regs.readBpout_writeBpout, if_neg h]
    · intro q c c' h
      rw [Regs.bandPass_eq]
      simp only [Regs.newBpout, Regs.writeBpout_readBp, Regs.writeBpout_tapClass, Regs.writeBpout_tapVal,
        Regs.readBpout_writeBpout, if_neg h]
  · have := foldl_keeps Regs.bandPass (fun q : Regs => { q with bpout := r.bpout })
      (fun q c => by rw [Regs.bandPass_eq]; rfl) (List.finRange 2) r
    exact this

/-- The band-reject loop. -/
theorem Regs.bandRejects_spec (r : Regs) (x : Sample) :
    (∀ b, ((List.finRange 2).foldl (Regs.bandReject x) r).readBrout b = r.newBrout x b) ∧
      { (List.finRange 2).foldl (Regs.bandReject x) r with brout := r.brout } = r := by
  refine ⟨fun b => ?_, ?_⟩
  · refine foldl_finRange_view (Regs.bandReject x) (fun q b => (q.readBrout b)) (fun q b => q.newBrout x b) ?_ ?_ ?_ r b
    · intro q c; rw [Regs.bandReject_eq, Regs.readBrout_writeBrout, if_pos rfl]
    · intro q c c' h; rw [Regs.bandReject_eq, Regs.readBrout_writeBrout, if_neg h]
    · intro q c c' h
      rw [Regs.bandReject_eq]
      simp only [Regs.newBrout, Regs.writeBrout_readBp, Regs.writeBrout_tapClass, Regs.writeBrout_readBpout,
        Regs.readBrout_writeBrout, if_neg h]
  · have := foldl_keeps (Regs.bandReject x) (fun q : Regs => { q with brout := r.brout })
      (fun q c => by rw [Regs.bandReject_eq]; rfl) (List.finRange 2) r
    exact this

/-! ### Phase 4 and the whole of `STEP` -/

theorem Regs.phase4_eq (r : Regs) (x : Sample) :
    r.phase4 x = r.writeBiquad (r.phase4 x).bqHigh (r.phase4 x).bqBand (r.phase4 x).bqLow := by
  unfold Regs.phase4
  split
  · cases r.bq.variant <;> rfl
  · rfl

/-- Phase 4 reads only the biquad's own registers. -/
theorem Regs.phase4_congr {r q : Regs} (x : Sample) (hl : r.bqLow = q.bqLow) (hb : r.bqBand = q.bqBand)
    (hh : r.bqHigh = q.bqHigh) (hq : r.bq = q.bq) :
    (r.phase4 x).bqHigh = (q.phase4 x).bqHigh ∧ (r.phase4 x).bqBand = (q.phase4 x).bqBand ∧
      (r.phase4 x).bqLow = (q.phase4 x).bqLow := by
  unfold Regs.phase4
  rw [hq]
  split
  · cases q.bq.variant
    · simp only [Regs.biquad16, hl, hb, hq, Regs.writeBiquad_bqHigh, Regs.writeBiquad_bqBand,
        Regs.writeBiquad_bqLow, and_self]
    · simp only [Regs.biquad32, hl, hb, hq, Regs.writeBiquad_bqHigh, Regs.writeBiquad_bqBand,
        Regs.writeBiquad_bqLow, and_self]
  · exact ⟨hh, hb, hl⟩

/-- Phase 3 as three single writes of whole banks. -/
theorem Regs.phase3_spec (r : Regs) (x : Sample) :
    (∀ h, (r.phase3 x).readHpout h = r.newHpout x h) ∧
      (∀ b, (r.phase3 x).readBpout b = r.newBpout b) ∧
      (∀ b, (r.phase3 x).readBrout b = { r with bpout := (r.phase3 x).bpout }.newBrout x b) ∧
      (r.phase3 x).besideLatches = r.besideLatches := by
  obtain ⟨hh, eh⟩ := Regs.highPasses_spec r x
  generalize hq : (List.finRange 4).foldl (Regs.highPass x) r = q at hh eh
  obtain ⟨hb, eb⟩ := Regs.bandPasses_spec q
  generalize hp : (List.finRange 2).foldl Regs.bandPass q = p at hb eb
  obtain ⟨hr, er⟩ := Regs.bandRejects_spec p x
  have h3 : r.phase3 x = (List.finRange 2).foldl (Regs.bandReject x) p := by
    simp only [Regs.phase3, hq, hp]
  rw [h3]
  generalize (List.finRange 2).foldl (Regs.bandReject x) p = o at hr er
  have ho1 : o.hpout = p.hpout := (congrArg Regs.hpout er :)
  have ho2 : o.bpout = p.bpout := (congrArg Regs.bpout er :)
  have hp1 : p.hpout = q.hpout := (congrArg Regs.hpout eb :)
  refine ⟨fun h => ?_, fun b => ?_, fun b => ?_, ?_⟩
  · rw [← hh h]; simp only [Regs.readHpout, ho1, hp1]
  · have : q.newBpout b = r.newBpout b := by rw [← eh]; rfl
    rw [← this, ← hb b]; simp only [Regs.readBpout, ho2]
  · rw [hr b, ho2]
    have : r = { p with hpout := r.hpout, bpout := r.bpout } := by
      rw [← eh, ← eb]
    rw [this]; rfl
  · rw [← eh, ← eb, ← er]; rfl

/-- What one `STEP` leaves in every register, in terms of the registers before and of the new
accumulators and latches it reads (R91, R96 to R98, R101, R102, R111). -/
theorem Regs.advance_spec (r : Regs) (x : Sample) :
    (∀ c, (r.advance x).readAcc c 0 =
        if (r.readCh c).en = true then
          ema (r.readCh c).rep (r.readAcc c 0) (stageInput (r.readCh c).rep x) (r.readCh c).k.toNat
        else r.readAcc c 0) ∧
      (∀ c, (r.advance x).readAcc c 1 =
        if r.stageEnabled c 1 = true then
          ema (r.readCh c).rep (r.readAcc c 1) ((r.advance x).readAcc c 0) (r.readCh c).k.toNat
        else r.readAcc c 1) ∧
      (∀ c, (r.advance x).readAcc c 2 =
        if r.stageEnabled c 2 = true then
          ema (r.readCh c).rep (r.readAcc c 2) ((r.advance x).readAcc c 1) (r.readCh c).k.toNat
        else r.readAcc c 2) ∧
      (∀ h, (r.advance x).readHpout h = { r.advance x with hpout := r.hpout }.newHpout x h) ∧
      (∀ b, (r.advance x).readBpout b = { r.advance x with bpout := r.bpout }.newBpout b) ∧
      (∀ b, (r.advance x).readBrout b = { r.advance x with brout := r.brout }.newBrout x b) ∧
      ((r.advance x).bqHigh = (r.phase4 x).bqHigh ∧ (r.advance x).bqBand = (r.phase4 x).bqBand ∧
        (r.advance x).bqLow = (r.phase4 x).bqLow) ∧
      (r.advance x).zeroHistory = r.zeroHistory := by
  have hadv : r.advance x = (((r.phase1 x).phase2).phase3 x).phase4 x := rfl
  have h1 := Regs.phase1_besideAcc r x
  have a1 := Regs.phase1_readAcc r x
  generalize r.phase1 x = r1 at hadv h1 a1
  have h2 := Regs.phase2_besideAcc r1
  have a2 := Regs.phase2_readAcc r1
  have s2 : ∀ c, r1.phase2.readAcc c 1 = r1.stage2 c := fun c => by rw [a2]; rfl
  generalize r1.phase2 = r2 at hadv h2 a2 s2
  obtain ⟨g1, g2, g3, h3⟩ := Regs.phase3_spec r2 x
  generalize r2.phase3 x = r3 at hadv g1 g2 g3 h3
  have h4 := Regs.phase4_eq r3 x
  have h21 : r2.besideAcc = r.besideAcc := h2.trans h1
  have field : ∀ {α : Type} (f : Regs → α), f r3.besideLatches.besideAcc = f r.besideLatches.besideAcc := by
    intro α f
    rw [h3]
    exact congrArg (fun p : Regs => f p.besideLatches) h21
  have c4 := Regs.phase4_congr (r := r3) (q := r) x (field Regs.bqLow) (field Regs.bqBand)
    (field Regs.bqHigh) (field Regs.bq)
  rw [← hadv] at h4 c4
  generalize r.advance x = t at h4 c4
  have hacc3 : r3.acc = r2.acc := (congrArg Regs.acc h3 :)
  have hacc : t.acc = r2.acc := (congrArg Regs.acc h4).trans hacc3
  have hread : ∀ c s, t.readAcc c s = r2.readAcc c s := fun c s => by simp only [Regs.readAcc, hacc]
  have e1 : ∀ c, r1.readCh c = r.readCh c := fun c => Regs.readCh_of_besideAcc h1 c
  have e2 : ∀ c s, r1.stageEnabled c s = r.stageEnabled c s := fun c s => Regs.stageEnabled_of_besideAcc h1 c s
  have s0 : ∀ c, r2.readAcc c 0 = r1.readAcc c 0 := fun c => by rw [a2]; rfl
  have s3 : ∀ c, r2.readAcc c 2 = r1.stage3 c := fun c => by rw [a2]; rfl
  have hh3 : t.hpout = r3.hpout := (congrArg Regs.hpout h4 :)
  have hb3 : t.bpout = r3.bpout := (congrArg Regs.bpout h4 :)
  have hr3 : t.brout = r3.brout := (congrArg Regs.brout h4 :)
  have et : t.zeroHistory = r.zeroHistory := by
    rw [h4]
    exact (congrArg Regs.zeroHistory h3 :).trans (congrArg Regs.zeroHistory h21 :)
  have keep2 : ∀ {α : Type} (f : Regs → α), f r2.zeroHistory = f t.zeroHistory := by
    intro α f
    rw [et]
    exact (congrArg (fun p : Regs => f p.zeroHistory) h21 :)
  refine ⟨fun c => ?_, fun c => ?_, fun c => ?_, fun h => ?_, fun b => ?_, fun b => ?_, c4, ?_⟩
  · rw [hread, a2, if_neg (by decide), if_neg (by decide), a1]; simp
  · have a : r1.readAcc c 1 = r.readAcc c 1 := by rw [a1, if_neg (fun h => absurd h.1 (by decide))]
    rw [hread, hread, s2, s0]
    simp only [Regs.stage2, e1, e2, a]
  · have a : r1.readAcc c 2 = r.readAcc c 2 := by rw [a1, if_neg (fun h => absurd h.1 (by decide))]
    rw [hread, hread, s2, s3]
    simp only [Regs.stage3, e1, e2, a]
  · have e : t.readHpout h = r3.readHpout h := by simp only [Regs.readHpout, hh3]
    rw [e, g1]
    exact Regs.newHpout_congr x h hacc.symm (keep2 Regs.ch) (keep2 Regs.hp) (congrArg Regs.hpout h21 :)
  · have e : t.readBpout b = r3.readBpout b := by simp only [Regs.readBpout, hb3]
    rw [e, g2]
    exact Regs.newBpout_congr b hacc.symm (keep2 Regs.ch) (keep2 Regs.bp) (congrArg Regs.bpout h21 :)
  · have e : t.readBrout b = r3.readBrout b := by simp only [Regs.readBrout, hr3]
    rw [e, g3]
    exact Regs.newBrout_congr x b hacc.symm (keep2 Regs.ch) (keep2 Regs.bp) hb3.symm (congrArg Regs.brout h21 :)
  · exact et

/-! ### What `STEP` keeps -/

theorem Regs.advance_zeroHistory (r : Regs) (x : Sample) : (r.advance x).zeroHistory = r.zeroHistory :=
  (r.advance_spec x).2.2.2.2.2.2.2

@[simp] theorem Regs.advance_ch (r : Regs) (x : Sample) : (r.advance x).ch = r.ch := by
  have h := congrArg Regs.ch (r.advance_zeroHistory x)
  simpa only [Regs.zeroHistory_ch] using h

@[simp] theorem Regs.advance_hp (r : Regs) (x : Sample) : (r.advance x).hp = r.hp := by
  have h := congrArg Regs.hp (r.advance_zeroHistory x)
  simpa only [Regs.zeroHistory_hp] using h

@[simp] theorem Regs.advance_bp (r : Regs) (x : Sample) : (r.advance x).bp = r.bp := by
  have h := congrArg Regs.bp (r.advance_zeroHistory x)
  simpa only [Regs.zeroHistory_bp] using h

@[simp] theorem Regs.advance_bq (r : Regs) (x : Sample) : (r.advance x).bq = r.bq := by
  have h := congrArg Regs.bq (r.advance_zeroHistory x)
  simpa only [Regs.zeroHistory_bq] using h

@[simp] theorem Regs.advance_sel (r : Regs) (x : Sample) : (r.advance x).sel = r.sel := by
  have h := congrArg Regs.sel (r.advance_zeroHistory x)
  simpa only [Regs.zeroHistory_sel] using h

@[simp] theorem Regs.advance_stepped (r : Regs) (x : Sample) : (r.advance x).stepped = r.stepped := by
  have h := congrArg Regs.stepped (r.advance_zeroHistory x)
  simpa only [Regs.zeroHistory_stepped] using h

@[simp] theorem Regs.advance_stale (r : Regs) (x : Sample) : (r.advance x).stale = r.stale := by
  have h := congrArg Regs.stale (r.advance_zeroHistory x)
  simpa only [Regs.zeroHistory_stale] using h

@[simp] theorem Regs.advance_readCh (r : Regs) (x : Sample) (c : Fin 6) : (r.advance x).readCh c = r.readCh c := by
  simp only [Regs.readCh, Regs.advance_ch]

@[simp] theorem Regs.advance_readHp (r : Regs) (x : Sample) (h : Fin 4) : (r.advance x).readHp h = r.readHp h := by
  simp only [Regs.readHp, Regs.advance_hp]

@[simp] theorem Regs.advance_readBp (r : Regs) (x : Sample) (b : Fin 2) : (r.advance x).readBp b = r.readBp b := by
  simp only [Regs.readBp, Regs.advance_bp]

@[simp] theorem Regs.advance_stageEnabled (r : Regs) (x : Sample) (c : Fin 6) (s : Fin 3) :
    (r.advance x).stageEnabled c s = r.stageEnabled c s := by
  simp only [Regs.stageEnabled, Regs.advance_readCh]

@[simp] theorem Regs.advance_tapRep (r : Regs) (x : Sample) (t : Tap) : (r.advance x).tapRep t = r.tapRep t := by
  simp only [Regs.tapRep, Regs.advance_readCh]

@[simp] theorem Regs.advance_tapClass (r : Regs) (x : Sample) (t : Tap) :
    (r.advance x).tapClass t = r.tapClass t := by
  simp only [Regs.tapClass, Regs.advance_tapRep]

theorem Regs.cfgValid_congr {r q : Regs} (hc : r.ch = q.ch) (hh : r.hp = q.hp) (hb : r.bp = q.bp) (hq : r.bq = q.bq) :
    r.cfgValid = q.cfgValid := by
  cases r; cases q; simp only at hc hh hb hq; subst hc hh hb hq; rfl

@[simp] theorem Regs.advance_cfgValid (r : Regs) (x : Sample) : (r.advance x).cfgValid = r.cfgValid :=
  Regs.cfgValid_congr (r.advance_ch x) (r.advance_hp x) (r.advance_bp x) (r.advance_bq x)

/-- The new latches, in terms of the configuration before and the visible values after (R96 to R98). -/
theorem Regs.advance_readHpout (r : Regs) (x : Sample) (h : Fin 4) :
    (r.advance x).readHpout h =
      if (r.readHp h).en then
        match tapOfId (r.readHp h).src with
        | some t => combine (r.tapClass t) (sampleIn (r.tapClass t) x) ((r.advance x).tapVal t)
        | none => r.readHpout h
      else r.readHpout h := by
  rw [(r.advance_spec x).2.2.2.1 h]
  conv_rhs => rw [← r.advance_readHp x h]
  simp only [← r.advance_tapClass x]
  generalize r.advance x = t
  rfl

theorem Regs.advance_readBpout (r : Regs) (x : Sample) (b : Fin 2) :
    (r.advance x).readBpout b =
      if (r.readBp b).en then
        match tapOfId (r.readBp b).fast, tapOfId (r.readBp b).slow with
        | some f, some g => combine (r.tapClass f) ((r.advance x).tapVal f) ((r.advance x).tapVal g)
        | _, _ => r.readBpout b
      else r.readBpout b := by
  rw [(r.advance_spec x).2.2.2.2.1 b]
  conv_rhs => rw [← r.advance_readBp x b]
  simp only [← r.advance_tapClass x]
  generalize r.advance x = t
  rfl

theorem Regs.advance_readBrout (r : Regs) (x : Sample) (b : Fin 2) :
    (r.advance x).readBrout b =
      if (r.readBp b).brEn then
        match tapOfId (r.readBp b).fast with
        | some f => combine (r.tapClass f) (sampleIn (r.tapClass f) x) ((r.advance x).readBpout b)
        | none => r.readBrout b
      else r.readBrout b := by
  rw [(r.advance_spec x).2.2.2.2.2.1 b]
  conv_rhs => rw [← r.advance_readBp x b]
  simp only [← r.advance_tapClass x]
  generalize r.advance x = t
  rfl

/-- With a valid configuration an enabled channel has stage 1 (R23 clause 1). -/
theorem Regs.stageEnabled_zero {r : Regs} (h : r.cfgValid = true) (c : Fin 6) :
    r.stageEnabled c 0 = (r.readCh c).en := by
  have hc : r.chValid c = true := by
    simp only [Regs.cfgValid, Bool.and_eq_true, decide_eq_true_eq] at h
    exact h.1.1.1.1 c
  simp only [Regs.chValid, Bool.or_eq_true, Bool.not_eq_true', Bool.and_eq_true, decide_eq_true_eq] at hc
  rcases hc with he | ⟨ho, -⟩
  · simp [Regs.stageEnabled, he]
  · have : (r.readCh c).order.toNat ≠ 0 := fun e => ho (BitVec.eq_of_toNat_eq e)
    have h1 : (0 : Fin 3).val + 1 ≤ (r.readCh c).order.toNat := by simp; omega
    simp only [Regs.stageEnabled, h1, decide_true, Bool.and_true]

/-! ### The mask and `STEP` -/

/-- A fold whose every step commutes with an update commutes with it. -/
theorem foldl_commutes {ι β : Type} (f : β → ι → β) (g : β → β) (h : ∀ r c, f (g r) c = g (f r c)) (l : List ι) (r : β) :
    l.foldl f (g r) = g (l.foldl f r) := by
  induction l generalizing r with
  | nil => rfl
  | cons c l ih => rw [List.foldl_cons, List.foldl_cons, h, ih]

theorem Regs.laterStage_writeSel (r : Regs) (m : BitVec 29) (c : Fin 6) (b s : Fin 3) :
    (r.writeSel m).laterStage c b s = (r.laterStage c b s).writeSel m := by
  unfold Regs.laterStage
  rw [show (r.writeSel m).stageEnabled c s = r.stageEnabled c s from rfl]
  split <;> rfl

theorem Regs.phase1_writeSel (r : Regs) (m : BitVec 29) (x : Sample) :
    (r.writeSel m).phase1 x = (r.phase1 x).writeSel m :=
  foldl_commutes (Regs.singleStage x) (fun q => q.writeSel m) (fun q c => by
    unfold Regs.singleStage
    rw [show (q.writeSel m).readCh c = q.readCh c from rfl]
    dsimp only
    split <;> rfl) _ r

theorem Regs.phase2_writeSel (r : Regs) (m : BitVec 29) : (r.writeSel m).phase2 = r.phase2.writeSel m :=
  foldl_commutes Regs.cascadeStages (fun q => q.writeSel m) (fun q c => by
    unfold Regs.cascadeStages
    rw [Regs.laterStage_writeSel, Regs.laterStage_writeSel]) _ r

theorem Regs.phase3_writeSel (r : Regs) (m : BitVec 29) (x : Sample) :
    (r.writeSel m).phase3 x = (r.phase3 x).writeSel m := by
  unfold Regs.phase3
  dsimp only
  rw [foldl_commutes (Regs.highPass x) (fun q => q.writeSel m) (fun q h => by
      unfold Regs.highPass
      rw [show (q.writeSel m).readHp h = q.readHp h from rfl]
      split
      · cases tapOfId (q.readHp h).src <;> rfl
      · rfl),
    foldl_commutes Regs.bandPass (fun q => q.writeSel m) (fun q b => by
      unfold Regs.bandPass
      rw [show (q.writeSel m).readBp b = q.readBp b from rfl]
      split
      · cases tapOfId (q.readBp b).fast <;> cases tapOfId (q.readBp b).slow <;> rfl
      · rfl),
    foldl_commutes (Regs.bandReject x) (fun q => q.writeSel m) (fun q b => by
      unfold Regs.bandReject
      rw [show (q.writeSel m).readBp b = q.readBp b from rfl]
      split
      · cases tapOfId (q.readBp b).fast <;> rfl
      · rfl)]

theorem Regs.phase4_writeSel (r : Regs) (m : BitVec 29) (x : Sample) :
    (r.writeSel m).phase4 x = (r.phase4 x).writeSel m := by
  unfold Regs.phase4
  rw [show (r.writeSel m).bq = r.bq from rfl]
  split
  · cases r.bq.variant <;> rfl
  · rfl

/-- `STEP` never reads `SEL` (R20, R111). -/
theorem Regs.advance_writeSel (r : Regs) (m : BitVec 29) (x : Sample) :
    (r.writeSel m).advance x = (r.advance x).writeSel m := by
  unfold Regs.advance
  rw [Regs.phase1_writeSel, Regs.phase2_writeSel, Regs.phase3_writeSel, Regs.phase4_writeSel]

end Sys2Proof.Machine
end

