-- ==== Sys2Proof/Laws/Encoding.lean ====
section
/-! SUPPORT. Fields of words as arithmetic: what concatenation, extraction and a high mask are over the naturals, and the decoder by opcode. -/

namespace Sys2Proof

theorem toNat_append_add {m n : Nat} (a : BitVec m) (b : BitVec n) :
    (a ++ b).toNat = a.toNat * 2 ^ n + b.toNat := by
  rw [BitVec.toNat_append, Nat.shiftLeft_eq, Nat.mul_comm, Nat.two_pow_add_eq_or_of_lt b.isLt]

theorem toNat_extract {n : Nat} (w : BitVec n) (i l : Nat) :
    (w.extractLsb' i l).toNat = w.toNat / 2 ^ i % 2 ^ l := by
  simp [BitVec.extractLsb'_toNat, Nat.shiftRight_eq_div_pow]

theorem getLsbD_eq_div {n : Nat} (w : BitVec n) (i : Nat) :
    w.getLsbD i = decide (w.toNat / 2 ^ i % 2 = 1) := by
  simp [BitVec.getLsbD, Nat.testBit_eq_decide_div_mod_eq]

theorem toNat_ofBool (b : Bool) : (BitVec.ofBool b).toNat = b.toNat := by cases b <;> rfl

/-- A mask of all bits from `n` up keeps the bits from `n` up. -/
theorem toNat_and_highMask {m : Nat} (w : BitVec m) (n : Nat) :
    (w &&& BitVec.allOnes m <<< n).toNat = w.toNat / 2 ^ n * 2 ^ n := by
  apply Nat.eq_of_testBit_eq
  intro i
  rw [BitVec.toNat_and, Nat.testBit_and, ← Nat.shiftRight_eq_div_pow, ← Nat.shiftLeft_eq, Nat.testBit_shiftLeft,
    Nat.testBit_shiftRight, BitVec.testBit_toNat, BitVec.testBit_toNat, BitVec.getLsbD_shiftLeft,
    BitVec.getLsbD_allOnes]
  by_cases h : n ≤ i
  · rw [show n + (i - n) = i by omega, BitVec.testBit_toNat]
    by_cases hi : i < m
    · have h' : i - n < m := by omega
      have h'' : ¬ i < n := by omega
      simp [h, hi, h', h'']
    · simp [BitVec.getLsbD_of_ge w i (by omega)]
  · simp [h]

@[simp] theorem Rep.ofBits_toBits (r : Rep) : Rep.ofBits r.toBits = r := by cases r <;> rfl

@[simp] theorem Rep.toBits_ofBits (b : BitVec 2) : (Rep.ofBits b).toBits = b := by revert b; decide

@[simp] theorem Variant.ofBit_toBit (v : Variant) : Variant.ofBit v.toBit = v := by cases v <;> rfl

@[simp] theorem Variant.toBit_ofBit (b : Bool) : (Variant.ofBit b).toBit = b := by cases b <;> rfl

/-- A word is its opcode and its argument (R42). -/
theorem toNat_eq_op_arg (w : CmdWord) : w.toNat = (opOf w).toNat * 2 ^ 32 + (argOf w).toNat := by
  have := w.isLt
  simp only [opOf, argOf, toNat_extract]
  omega

theorem ifReservedZero_of_eq {n : Nat} {rest : BitVec n} (h : rest = 0) (i : Instr) : ifReservedZero rest i = .ok i := by
  rw [ifReservedZero, if_pos h]

theorem ifReservedZero_eq_ok {n : Nat} {rest : BitVec n} {i j : Instr} (h : ifReservedZero rest i = .ok j) :
    rest = 0 ∧ i = j := by
  unfold ifReservedZero at h
  split at h
  · exact ⟨‹_›, by cases h; rfl⟩
  · cases h

/-- The decoder by opcode (R43). -/
theorem decode_of_op {w : CmdWord} (n : Nat) : (opOf w).toNat = n → decode w =
    match n with
    | 0x1 => decodeStep (argOf w)
    | 0x2 => decodeReset (argOf w)
    | 0x3 => decodeSelect (argOf w)
    | 0x4 => decodeGetval (argOf w)
    | 0x5 => decodeGetsel (argOf w)
    | 0x8 => decodeCfgch (argOf w)
    | 0x9 => decodeCfghp (argOf w)
    | 0xA => decodeCfgbp (argOf w)
    | 0xB => decodeCfgbq (argOf w)
    | _ => .error .opcode := by
  rintro rfl
  rfl

end Sys2Proof
end

