-- ==== Sys2Proof/Laws/Float.lean ====
section
/-! SUPPORT. binary32 over the integers: what a pattern's low 31 bits are worth, that rounding is to nearest with ties to even, and where it overflows. -/

namespace Sys2Proof.Machine

/-- The magnitude, in units of 2^-149, of the finite pattern with these low 31 bits (R70). -/
def f32Mag (low : Nat) : Nat :=
  if low / 2 ^ 23 = 0 then low % 2 ^ 23 else (2 ^ 23 + low % 2 ^ 23) * 2 ^ (low / 2 ^ 23 - 1)

/-! ### Patterns -/

theorem f32Pack_toNat (neg : Bool) {low : Nat} (h : low < 2 ^ 31) :
    (f32Pack neg low).toNat = neg.toNat * 2 ^ 31 + low := by
  have := Bool.toNat_lt neg
  rw [f32Pack, BitVec.toNat_ofNat]
  omega

theorem f32Pack_msb (neg : Bool) {low : Nat} (h : low < 2 ^ 31) : (f32Pack neg low).msb = neg := by
  rw [BitVec.msb_eq_decide, f32Pack_toNat neg h]
  cases neg
  · simp; omega
  · simp

theorem f32Pack_getLsbD_zero (neg : Bool) {low : Nat} (h : low < 2 ^ 31) :
    (f32Pack neg low).getLsbD 0 = decide (low % 2 = 1) := by
  rw [getLsbD_eq_div, f32Pack_toNat neg h]
  congr 1
  simp only [eq_iff_iff]
  omega

/-- Every pattern is its sign and its low 31 bits. -/
theorem f32Pack_self (b : Word) : f32Pack b.msb (b.toNat % 2 ^ 31) = b := by
  apply BitVec.eq_of_toNat_eq
  rw [f32Pack_toNat _ (Nat.mod_lt _ (by decide)), BitVec.msb_eq_decide]
  have := b.isLt
  by_cases h : 2 ^ (32 - 1) ≤ b.toNat
  · simp only [h, decide_true, Bool.toNat_true]; omega
  · simp only [h, decide_false, Bool.toNat_false]; omega

theorem f32Unpack_pack (neg : Bool) {low : Nat} (h : low < 2 ^ 31) :
    f32Unpack (f32Pack neg low) =
      if low / 2 ^ 23 = 255 then (if low % 2 ^ 23 = 0 then .inf neg else .nan) else .fin neg (f32Mag low) := by
  have e : ((f32Pack neg low).extractLsb' 23 8).toNat = low / 2 ^ 23 := by
    rw [toNat_extract, f32Pack_toNat neg h]
    have := Bool.toNat_lt neg
    omega
  have f : ((f32Pack neg low).extractLsb' 0 23).toNat = low % 2 ^ 23 := by
    rw [toNat_extract, f32Pack_toNat neg h]
    omega
  simp only [f32Unpack, e, f, f32Pack_msb neg h, f32Mag]

/-- The value of a packed finite pattern. -/
theorem f32Units_pack (neg : Bool) {low : Nat} (h : low < f32InfLow) :
    f32Units (f32Pack neg low) = some (signedMag neg (f32Mag low)) := by
  unfold f32InfLow at h
  rw [f32Units, f32Unpack_pack neg (by omega), if_neg (by omega)]

/-- An infinity, packed. -/
theorem f32Unpack_inf (neg : Bool) : f32Unpack (f32Pack neg f32InfLow) = .inf neg := by
  rw [f32Unpack_pack neg (by decide)]; rfl

/-- A finite pattern has a low part below that of infinity, and that is what it is worth. -/
theorem f32Units_eq_some {b : Word} {v : Int} (h : f32Units b = some v) :
    b.toNat % 2 ^ 31 < f32InfLow ∧ v = signedMag b.msb (f32Mag (b.toNat % 2 ^ 31)) := by
  have hl : b.toNat % 2 ^ 31 < 2 ^ 31 := Nat.mod_lt _ (by decide)
  rw [← f32Pack_self b] at h
  generalize b.toNat % 2 ^ 31 = low at *
  rw [f32Units, f32Unpack_pack _ hl] at h
  by_cases h1 : low / 2 ^ 23 = 255
  · rw [if_pos h1] at h
    by_cases h2 : low % 2 ^ 23 = 0
    · rw [if_pos h2] at h; cases h
    · rw [if_neg h2] at h; cases h
  · rw [if_neg h1, Option.some.injEq] at h
    refine ⟨?_, h.symm⟩
    unfold f32InfLow
    omega

theorem f32Unpack_of_units {b : Word} {v : Int} (h : f32Units b = some v) :
    ∃ m, f32Unpack b = .fin b.msb m ∧ v = signedMag b.msb m := by
  obtain ⟨hl, hv⟩ := f32Units_eq_some h
  refine ⟨_, ?_, hv⟩
  have hl' : b.toNat % 2 ^ 31 < 2 ^ 31 := Nat.mod_lt _ (by decide)
  conv_lhs => rw [← f32Pack_self b]
  unfold f32InfLow at hl
  rw [f32Unpack_pack _ hl', if_neg (by omega)]

/-! ### Rounding -/

/-- `roundNearestEven n d` is a nearest integer to `n / d`, and even when another is as near (R72). -/
theorem roundNearestEven_nearest (n : Nat) {d : Nat} (hd : 0 < d) (j : Int) :
    |(n : Int) - roundNearestEven n d * d| ≤ |(n : Int) - j * d| ∧
      (|(n : Int) - roundNearestEven n d * d| = |(n : Int) - j * d| → j ≠ roundNearestEven n d →
        roundNearestEven n d % 2 = 0) := by
  have hn : (n : Int) = (n / d : Nat) * (d : Int) + (n % d : Nat) := by
    have := Nat.div_add_mod n d
    rw [Nat.mul_comm] at this
    exact_mod_cast this.symm
  have hr : n % d < d := Nat.mod_lt _ hd
  unfold roundNearestEven
  generalize n / d = q at *
  generalize n % d = r at *
  rw [hn]
  -- the distance of `j`, by where `j` lies
  have far : (j = q ∧ (q : Int) * d + r - j * d = r) ∨ (j = q + 1 ∧ (q : Int) * d + r - j * d = r - d) ∨
      (d + r : Int) ≤ (q : Int) * d + r - j * d ∨ (q : Int) * d + r - j * d ≤ r - 2 * d := by
    rcases lt_trichotomy j (q : Int) with h | rfl | h
    · right; right; left; nlinarith
    · left; constructor; rfl; ring
    · by_cases h1 : j = q + 1
      · right; left; subst h1; constructor; rfl; ring
      · right; right; right; nlinarith [show (q : Int) + 2 ≤ j by omega]
  generalize hX : (q : Int) * d + r - j * d = X at far
  have near0 : (q : Int) * d + r - (q : Int) * d = r := by ring
  have near1 : (q : Int) * d + r - ((q + 1 : Nat) : Int) * d = r - d := by push_cast; ring
  split
  · rw [near0]
    rcases far with ⟨rfl, h⟩ | ⟨rfl, h⟩ | h | h <;> constructor <;> intros <;> simp only [abs] at * <;> omega
  · split
    · rw [near1]
      rcases far with ⟨rfl, h⟩ | ⟨rfl, h⟩ | h | h <;> constructor <;> intros <;> simp only [abs] at * <;> omega
    · split
      · rw [near0]
        rcases far with ⟨rfl, h⟩ | ⟨rfl, h⟩ | h | h <;> constructor <;> intros <;> simp only [abs] at * <;> omega
      · rw [near1]
        rcases far with ⟨rfl, h⟩ | ⟨rfl, h⟩ | h | h <;> constructor <;> intros <;> simp only [abs] at * <;> omega

theorem roundNearestEven_bounds (n d : Nat) :
    n / d ≤ roundNearestEven n d ∧ roundNearestEven n d ≤ n / d + 1 := by
  unfold roundNearestEven
  split
  · omega
  · split
    · omega
    · split <;> omega

/-- The low 31 bits before clipping to infinity. -/
def f32RoundRaw (n d : Nat) : Nat := f32Shift n d * 2 ^ 23 + roundNearestEven n (d * 2 ^ f32Shift n d)

theorem f32RoundLow_eq (n d : Nat) : f32RoundLow n d = min (f32RoundRaw n d) f32InfLow := rfl

/-- The significand the shift leaves: below 2^24, and at least 2^23 unless nothing was shifted out. -/
theorem f32Shift_spec (n : Nat) {d : Nat} (hd : 0 < d) :
    n / (d * 2 ^ f32Shift n d) < 2 ^ 24 ∧ (f32Shift n d = 0 ∨ 2 ^ 23 ≤ n / (d * 2 ^ f32Shift n d)) := by
  have _ := hd
  rw [← Nat.div_div_eq_div_mul]
  unfold f32Shift
  generalize n / d = q
  by_cases h0 : q = 0
  · subst h0; simp
  · have h1 : 2 ^ Nat.log2 q ≤ q := Nat.log2_self_le h0
    have h2 : q < 2 ^ (Nat.log2 q + 1) := Nat.lt_log2_self
    by_cases hs : Nat.log2 q + 1 - 24 = 0
    · refine ⟨?_, .inl hs⟩
      rw [hs]
      have : 2 ^ (Nat.log2 q + 1) ≤ 2 ^ 24 := Nat.pow_le_pow_right (by decide) (by omega)
      omega
    · obtain ⟨t, ht⟩ : ∃ t, Nat.log2 q = 23 + t := ⟨Nat.log2 q - 23, by omega⟩
      have e : Nat.log2 q + 1 - 24 = t := by omega
      rw [e]
      rw [ht] at h1 h2
      have hp : 0 < 2 ^ t := Nat.two_pow_pos t
      refine ⟨(Nat.div_lt_iff_lt_mul hp).2 ?_, .inr ((Nat.le_div_iff_mul_le hp).2 ?_)⟩
      · rw [← Nat.pow_add]; rwa [show 24 + t = 23 + t + 1 by omega]
      · rwa [← Nat.pow_add]

/-- What the unclipped low part is worth: the rounded significand, shifted back. -/
theorem f32Mag_roundRaw (n : Nat) {d : Nat} (hd : 0 < d) :
    f32Mag (f32RoundRaw n d) = roundNearestEven n (d * 2 ^ f32Shift n d) * 2 ^ f32Shift n d := by
  obtain ⟨h1, h2⟩ := f32Shift_spec n hd
  obtain ⟨b1, b2⟩ := roundNearestEven_bounds n (d * 2 ^ f32Shift n d)
  unfold f32RoundRaw
  generalize roundNearestEven n (d * 2 ^ f32Shift n d) = m at *
  generalize n / (d * 2 ^ f32Shift n d) = q at *
  generalize f32Shift n d = s at *
  have hm : m ≤ 2 ^ 24 := by omega
  unfold f32Mag
  by_cases hlo : m < 2 ^ 23
  · have hs : s = 0 := by rcases h2 with h | h; exact h; omega
    subst hs
    rw [if_pos (by omega)]
    omega
  · rw [if_neg (by omega)]
    by_cases hhi : m = 2 ^ 24
    · subst hhi
      rw [show (s * 2 ^ 23 + 2 ^ 24) % 2 ^ 23 = 0 by omega, show (s * 2 ^ 23 + 2 ^ 24) / 2 ^ 23 - 1 = s + 1 by omega,
        Nat.pow_succ]
      ring
    · rw [show 2 ^ 23 + (s * 2 ^ 23 + m) % 2 ^ 23 = m by omega, show (s * 2 ^ 23 + m) / 2 ^ 23 - 1 = s by omega]

/-- A magnitude at least 2^23 times a power of two is a multiple of that power. -/
theorem f32Mag_dvd {low s : Nat} (h : 2 ^ 23 * 2 ^ s ≤ f32Mag low) : 2 ^ s ∣ f32Mag low := by
  unfold f32Mag at *
  split at h
  · have h1 : low % 2 ^ 23 < 2 ^ 23 := Nat.mod_lt _ (by decide)
    have h2 : 1 ≤ 2 ^ s := Nat.one_le_two_pow
    have : 2 ^ 23 * 1 ≤ 2 ^ 23 * 2 ^ s := Nat.mul_le_mul_left _ h2
    omega
  · rename_i he
    rw [if_neg he]
    have h1 : low % 2 ^ 23 < 2 ^ 23 := Nat.mod_lt _ (by decide)
    generalize low / 2 ^ 23 - 1 = e at *
    have : s ≤ e := by
      by_contra hc
      have : 2 ^ (e + 1) ≤ 2 ^ s := Nat.pow_le_pow_right (by decide) (by omega)
      rw [Nat.pow_succ] at this
      have h3 : 0 < 2 ^ e := Nat.two_pow_pos e
      nlinarith
    exact Nat.dvd_mul_left_of_dvd (Nat.pow_dvd_pow 2 this) _

/-- Rounding to nearest, ties to even, among all magnitudes (R72, R73). -/
theorem f32RoundRaw_nearest (n : Nat) {d : Nat} (hd : 0 < d) (low : Nat) :
    |(n : Int) - f32Mag (f32RoundRaw n d) * d| ≤ |(n : Int) - f32Mag low * d| ∧
      (|(n : Int) - f32Mag (f32RoundRaw n d) * d| = |(n : Int) - f32Mag low * d| →
        f32Mag low ≠ f32Mag (f32RoundRaw n d) → f32RoundRaw n d % 2 = 0) := by
  obtain ⟨h1, h2⟩ := f32Shift_spec n hd
  have hmag := f32Mag_roundRaw n hd
  have hpar : f32RoundRaw n d % 2 = roundNearestEven n (d * 2 ^ f32Shift n d) % 2 := by unfold f32RoundRaw; omega
  rw [hmag, hpar]
  have hP : 0 < 2 ^ f32Shift n d := Nat.two_pow_pos _
  have hD : 0 < d * 2 ^ f32Shift n d := Nat.mul_pos hd hP
  have near := roundNearestEven_nearest n hD
  have reorder : ∀ m : Int, m * ((d * 2 ^ f32Shift n d : Nat) : Int) = m * ((2 ^ f32Shift n d : Nat) : Int) * d := by
    intro m; push_cast; ring
  by_cases hv : 2 ^ 23 * 2 ^ f32Shift n d ≤ f32Mag low ∨ f32Shift n d = 0
  · have hdv : 2 ^ f32Shift n d ∣ f32Mag low := by
      rcases hv with hv | hv
      · exact f32Mag_dvd hv
      · rw [hv]; exact Nat.one_dvd _
    obtain ⟨j, hj⟩ := hdv
    have := near (j : Int)
    rw [reorder, reorder] at this
    have ej : ((f32Mag low : Nat) : Int) = (j : Int) * ((2 ^ f32Shift n d : Nat) : Int) := by
      rw [hj]; push_cast; ring
    rw [ej]
    push_cast at this ⊢
    refine ⟨this.1, fun he hne => this.2 he fun hjm => hne ?_⟩
    have : j = roundNearestEven n (d * 2 ^ f32Shift n d) := by exact_mod_cast hjm
    rw [hj, this, Nat.mul_comm]
  · -- a magnitude below the smallest with this exponent is farther than that smallest one
    have hlt : f32Mag low < 2 ^ 23 * 2 ^ f32Shift n d := by omega
    have hs : 2 ^ 23 ≤ n / (d * 2 ^ f32Shift n d) := by
      rcases h2 with h | h
      · exact absurd (.inr h) hv
      · exact h
    have hn : 2 ^ 23 * (d * 2 ^ f32Shift n d) ≤ n := (Nat.le_div_iff_mul_le hD).1 hs
    have := near ((2 ^ 23 : Nat) : Int)
    rw [reorder, reorder] at this
    have hb : ((2 ^ 23 : Nat) : Int) * ((2 ^ f32Shift n d : Nat) : Int) * d ≤ n := by
      have : ((2 ^ 23 * (d * 2 ^ f32Shift n d) : Nat) : Int) ≤ (n : Int) := by exact_mod_cast hn
      push_cast at this ⊢
      linarith
    have hc : ((f32Mag low : Nat) : Int) * d < ((2 ^ 23 : Nat) : Int) * ((2 ^ f32Shift n d : Nat) : Int) * d := by
      have : f32Mag low * d < 2 ^ 23 * 2 ^ f32Shift n d * d := Nat.mul_lt_mul_of_pos_right hlt hd
      exact_mod_cast this
    have key : |(n : Int) - ((2 ^ 23 : Nat) : Int) * ((2 ^ f32Shift n d : Nat) : Int) * d| < |(n : Int) - f32Mag low * d| := by
      rw [abs_of_nonneg (by linarith), abs_of_nonneg (by linarith)]
      linarith
    have lt := lt_of_le_of_lt this.1 key
    push_cast at lt ⊢
    exact ⟨le_of_lt lt, fun he => absurd he (ne_of_lt lt)⟩

theorem roundNearestEven_up (n D : Nat) :
    roundNearestEven n D = n / D + 1 ↔ D < 2 * (n % D) ∨ (2 * (n % D) = D ∧ n / D % 2 = 1) := by
  unfold roundNearestEven
  generalize n / D = q
  generalize n % D = r
  split
  · omega
  · split
    · omega
    · split <;> omega

/-- With an odd largest significand `T`, rounding goes past it exactly from `T + 1/2` on. -/
theorem roundNearestEven_le_odd {n D T : Nat} (hD : 0 < D) (hT : T % 2 = 1) (h1 : n / D ≤ T) :
    roundNearestEven n D ≤ T ↔ 2 * n < 2 * (D * T) + D := by
  have hq := Nat.div_add_mod n D
  have hr := Nat.mod_lt n hD
  have hb := roundNearestEven_bounds n D
  have hup := roundNearestEven_up n D
  generalize roundNearestEven n D = m at *
  generalize n / D = q at *
  generalize n % D = r at *
  rcases Nat.lt_or_eq_of_le h1 with h | rfl
  · have hle : D * q + D ≤ D * T := by rw [← Nat.mul_succ]; exact Nat.mul_le_mul_left _ h
    generalize D * q = P at *
    generalize D * T = Q at *
    omega
  · generalize D * q = P at *
    omega

/-- The overflow threshold: the result is finite exactly below `(2^25 - 1) * 2^252` units (R72). -/
theorem f32RoundRaw_lt_inf (n : Nat) {d : Nat} (hd : 0 < d) :
    f32RoundRaw n d < f32InfLow ↔ n < (2 ^ 25 - 1) * 2 ^ 252 * d := by
  obtain ⟨h1, h2⟩ := f32Shift_spec n hd
  obtain ⟨b1, b2⟩ := roundNearestEven_bounds n (d * 2 ^ f32Shift n d)
  have hD : 0 < d * 2 ^ f32Shift n d := Nat.mul_pos hd (Nat.two_pow_pos _)
  unfold f32RoundRaw f32InfLow
  generalize f32Shift n d = s at *
  rcases Nat.lt_trichotomy s 253 with hs | rfl | hs
  · have hn : n < 2 ^ 24 * (d * 2 ^ s) := (Nat.div_lt_iff_lt_mul hD).1 h1
    have hp : d * 2 ^ s ≤ d * 2 ^ 252 := Nat.mul_le_mul_left _ (Nat.pow_le_pow_right (by decide) (by omega))
    constructor <;> intro _ <;> omega
  · have top := roundNearestEven_le_odd (T := 2 ^ 24 - 1) hD (by decide) (Nat.le_pred_of_lt h1)
    have e : 2 * (d * 2 ^ 253 * (2 ^ 24 - 1)) + d * 2 ^ 253 = 2 * ((2 ^ 25 - 1) * 2 ^ 252 * d) := by ring
    rw [e, Nat.mul_lt_mul_left (by decide)] at top
    rw [← top]
    generalize roundNearestEven n (d * 2 ^ 253) = m
    omega
  · have hs0 : 2 ^ 23 ≤ n / (d * 2 ^ s) := by
      rcases h2 with h | h
      · omega
      · exact h
    have hn : 2 ^ 23 * (d * 2 ^ s) ≤ n := (Nat.le_div_iff_mul_le hD).1 hs0
    have hp : d * 2 ^ 254 ≤ d * 2 ^ s := Nat.mul_le_mul_left _ (Nat.pow_le_pow_right (by decide) (by omega))
    constructor <;> intro _ <;> omega

theorem f32RoundLow_of_overflow {n d : Nat} (hd : 0 < d) (h : (2 ^ 25 - 1) * 2 ^ 252 * d ≤ n) :
    f32RoundLow n d = f32InfLow := by
  have := (f32RoundRaw_lt_inf n hd).not.2 (by omega)
  rw [f32RoundLow_eq]; omega

theorem f32RoundLow_of_lt {n d : Nat} (hd : 0 < d) (h : n < (2 ^ 25 - 1) * 2 ^ 252 * d) :
    f32RoundLow n d = f32RoundRaw n d := by
  have := (f32RoundRaw_lt_inf n hd).2 h
  rw [f32RoundLow_eq]; omega

@[simp] theorem signedMag_natAbs (neg : Bool) (m : Nat) : (signedMag neg m).natAbs = m := by
  cases neg <;> simp [signedMag]

/-- The packed rounding of `n / d` units with a sign is the nearest finite value, ties to even (R72, R73). -/
theorem f32RoundLow_nearest (neg : Bool) {n d : Nat} (hd : 0 < d) (h : n < (2 ^ 25 - 1) * 2 ^ 252 * d) :
    f32Nearest (signedMag neg n) d (f32Pack neg (f32RoundLow n d)) (signedMag neg (f32Mag (f32RoundRaw n d))) := by
  have hl := (f32RoundRaw_lt_inf n hd).2 h
  rw [f32RoundLow_of_lt hd h]
  refine ⟨f32Units_pack neg hl, fun c v hc => ?_⟩
  obtain ⟨-, hv⟩ := f32Units_eq_some hc
  have hb : (f32Pack neg (f32RoundRaw n d)).getLsbD 0 = decide (f32RoundRaw n d % 2 = 1) :=
    f32Pack_getLsbD_zero neg (by unfold f32InfLow at hl; omega)
  rw [hb]
  obtain ⟨k1, k2⟩ := f32RoundRaw_nearest n hd (c.toNat % 2 ^ 31)
  obtain ⟨z1, -⟩ := f32RoundRaw_nearest n hd 0
  have hz : f32Mag 0 = 0 := rfl
  rw [hz] at z1
  have flip : ∀ m : Nat, |signedMag neg n - signedMag neg m * d| = |(n : Int) - m * d| := by
    intro m
    cases neg
    · rfl
    · simp only [signedMag, if_true]
      rw [← abs_neg]; congr 1; ring
  generalize f32Mag (c.toNat % 2 ^ 31) = w at *
  generalize hR : f32Mag (f32RoundRaw n d) = R at *
  rw [flip R]
  by_cases hsame : c.msb = neg ∨ w = 0
  · have hvw : v = signedMag neg w := by
      rcases hsame with h | h
      · rw [hv, h]
      · subst h; rw [hv]; cases c.msb <;> cases neg <;> rfl
    rw [hvw, flip w]
    refine ⟨k1, fun he hne => ?_⟩
    have : w ≠ R := fun hw => hne (by rw [hw])
    simp [k2 he this]
  · -- the other sign is farther than zero is
    have hw : 0 < w := by omega
    have hms : c.msb = !neg := by
      cases hc : c.msb <;> cases neg <;> simp_all
    have hfar : |signedMag neg n - v * d| = (n : Int) + w * d := by
      rw [hv, hms]
      have hp : (0 : Int) ≤ (n : Int) + w * d := by positivity
      cases neg
      · simp only [signedMag, Bool.not_false, if_true]
        rw [← abs_of_nonneg hp]; congr 1; simp
      · simp only [signedMag, Bool.not_true, if_true]
        rw [← abs_of_nonneg hp, ← abs_neg]; congr 1; simp; ring
    have hpos : (0 : Int) < (w : Int) * d := by positivity
    have hn : |(n : Int) - (0 : Nat) * d| = n := by simp
    rw [hn] at z1
    have lt : |(n : Int) - R * d| < |signedMag neg n - v * d| := by rw [hfar]; omega
    exact ⟨le_of_lt lt, fun he => absurd he (ne_of_lt lt)⟩

end Sys2Proof.Machine
end

