-- ==== Sys2Proof/Laws/Numerics.lean ====
section
/-! SUPPORT. The integer primitives over the integers: `wrap_N` as a residue and where it changes nothing, the shifts, and sign extension. -/

namespace Sys2Proof.Machine

/-- `wrap_N` is the residue in the signed N-bit range (R7). -/
theorem wrap_toInt (n : Nat) (v : Int) : (wrap n v).toInt = Int.bmod v (2 ^ n) := by simp [wrap]

/-- Where a value already fits, `wrap_N` leaves it (R7, R77). -/
theorem wrap_toInt_of_fits {n : Nat} {v : Int} (hn : 0 < n) (h : fits n v) : (wrap n v).toInt = v := by
  obtain ⟨m, rfl⟩ : ∃ m, n = m + 1 := ⟨n - 1, by omega⟩
  rw [wrap_toInt]
  unfold fits at h
  simp only [Nat.add_sub_cancel] at h
  have e : (2 : Nat) ^ (m + 1) = 2 * 2 ^ m := by rw [Nat.pow_succ, Nat.mul_comm]
  rw [e]
  generalize 2 ^ m = p at h
  apply Int.bmod_eq_of_le <;> omega

/-- Every stored value fits its width. -/
theorem fits_toInt {n : Nat} (v : BitVec n) : fits n v.toInt := by
  have h1 := BitVec.le_toInt v
  have h2 := BitVec.toInt_lt (x := v)
  unfold fits
  push_cast
  omega

/-- A value that fits can be stored and read back; what is read back fits. -/
theorem wrap_eq_iff_of_fits {n : Nat} {v w : Int} (hn : 0 < n) (hv : fits n v) (hw : fits n w) :
    wrap n v = wrap n w ↔ v = w :=
  ⟨fun h => by rw [← wrap_toInt_of_fits hn hv, h, wrap_toInt_of_fits hn hw], fun h => by rw [h]⟩

/-- Storing what was read changes nothing. -/
theorem wrap_toInt_self {n : Nat} (v : BitVec n) : wrap n v.toInt = v := by simp [wrap]

/-- An arithmetic right shift keeps a value in its range. -/
theorem fits_div {n : Nat} {v : Int} {m : Nat} (hm : 0 < m) (h : fits n v) : fits n (v / (m : Int)) := by
  unfold fits at *
  have hm' : (0 : Int) < (m : Int) := by exact_mod_cast hm
  generalize ((2 ^ (n - 1) : Nat) : Int) = p at *
  refine ⟨(Int.le_ediv_iff_mul_le hm').2 ?_, ?_⟩
  · nlinarith
  · by_cases h0 : 0 ≤ v
    · have := Int.ediv_le_self (m : Int) h0
      omega
    · have := Int.ediv_neg_of_neg_of_pos (show v < 0 by omega) hm'
      omega

/-- The unbiased case of the rounded increment (R65). -/
theorem rinc_one {n : Nat} (hn : 0 < n) (d : BitVec n) : (rinc d 1).toInt = d.toInt / 2 := by
  rw [rinc, rincWith, if_pos ⟨rfl, rfl⟩, asr, wrap_toInt_of_fits hn (fits_div (by decide) (fits_toInt d))]
  rfl

/-- The biased case of the rounded increment, wrapped addend and all (R65). -/
theorem rinc_biased {n : Nat} (hn : 0 < n) (d : BitVec n) {k : Nat} (hk : 2 ≤ k) :
    (rinc d k).toInt = (wrap n (d.toInt + ((2 ^ (k - 1) : Nat) : Int))).toInt / ((2 ^ k : Nat) : Int) := by
  rw [rinc, rincWith, if_neg (by omega), asr,
    wrap_toInt_of_fits hn (fits_div (Nat.two_pow_pos k) (fits_toInt _))]

/-- The rounded shift with its addend, wrapped addend and all (R66). -/
theorem rshr_biased {n : Nat} (hn : 0 < n) (v : BitVec n) {s : Nat} (hs : 1 ≤ s) :
    (rshr v s).toInt = (wrap n (v.toInt + ((2 ^ (s - 1) : Nat) : Int))).toInt / ((2 ^ s : Nat) : Int) := by
  rw [rshr, if_neg (by omega), asr, wrap_toInt_of_fits hn (fits_div (Nat.two_pow_pos s) (fits_toInt _))]

@[simp] theorem rshr_zero {n : Nat} (v : BitVec n) : rshr v 0 = v := by rw [rshr, if_pos rfl]

/-- The updater of each representation (R81 to R84). -/
theorem ema_i16 (y input : Word) (k : Nat) :
    ema .i16 y input k = sext32 (emaI16 (y.setWidth 16) (input.setWidth 16) k) := rfl

theorem ema_q8 (y input : Word) (k : Nat) : ema .q8_8 y input k = emaQ8 y input k := rfl

theorem ema_q16 (y input : Word) (k : Nat) : ema .q16_16 y input k = emaQ16 y input k := rfl

theorem ema_f32 (y input : Word) (k : Nat) : ema .f32 y input k = emaF32 y input k := rfl

/-- Sign extension to 32 bits keeps the value (R7). -/
theorem sext32_toInt {n : Nat} (hn : n ≤ 32) (v : BitVec n) : (sext32 v).toInt = v.toInt := by
  rw [sext32, BitVec.toInt_signExtend_of_le hn]

/-- Reading bits 15:0 of a sign-extended 16-bit value gives it back (R11). -/
@[simp] theorem setWidth_sext32 (v : BitVec 16) : (sext32 v).setWidth 16 = v := by
  apply BitVec.eq_of_getLsbD_eq
  intro i hi
  simp only [sext32, BitVec.getLsbD_setWidth, BitVec.getLsbD_signExtend]
  simp [hi, show i < 32 by omega]

/-- What the 16-bit paths write is a sign-extended 16-bit value (R11, R27). -/
theorem fits16_sext32 (v : BitVec 16) : fits16 (sext32 v) := by rw [fits16, setWidth_sext32]

theorem fits16_zero : fits16 0#32 := by unfold fits16; decide

end Sys2Proof.Machine
end

