-- ==== Sys2Proof/Laws/Ops.lean ====
section
/-! SUPPORT. How a command ends: what `respond`, `raise` and each meaning can answer, said once. -/

namespace Sys2Proof.Machine

theorem respond_eq (r : Regs) (d : Word) (s : State) :
    respond r d s = .next { s with regs := r, rsp := some ⟨.ok, d⟩ } := rfl

theorem raise_eq (e : Status) (s : State) : raise e s = .next { s with rsp := some ⟨e, 0#32⟩ } := rfl

/-- `STEP` in its three cases (R111). -/
theorem execStep_of_stale {s : State} (x : Sample) (h : s.regs.stale = true) : execStep x s = raise .stale s := by
  rw [execStep, if_pos h]

theorem execStep_of_invalid {s : State} (x : Sample) (h : s.regs.stale = false) (hv : s.regs.cfgValid = false) :
    execStep x s = raise .config s := by
  rw [execStep, if_neg (by simp [h]), if_neg (by simp [hv])]

theorem execStep_of_valid {s : State} (x : Sample) (h : s.regs.stale = false) (hv : s.regs.cfgValid = true) :
    execStep x s = respond (s.regs.advance x).setStepped 0#32 s := by
  rw [execStep, if_neg (by simp [h]), if_pos hv]

/-- `GETVAL` in its four cases (R114). -/
theorem execGetval_of_stale {s : State} (id : BitVec 5) (h : s.regs.stale = true) :
    execGetval id s = raise .stale s := by
  rw [execGetval, if_pos h]

theorem execGetval_of_notReady {s : State} (id : BitVec 5) (h : s.regs.stale = false) (hs : s.regs.stepped = false) :
    execGetval id s = raise .notReady s := by
  rw [execGetval, if_neg (by simp [h]), if_neg (by simp [hs])]

theorem execGetval_of_disabled {s : State} (id : BitVec 5) (h : s.regs.stale = false) (hs : s.regs.stepped = true)
    (he : s.regs.idEnabled id = false) : execGetval id s = raise .disabled s := by
  rw [execGetval, if_neg (by simp [h]), if_pos hs, if_neg (by simp [he])]

theorem execGetval_of_enabled {s : State} (id : BitVec 5) (h : s.regs.stale = false) (hs : s.regs.stepped = true)
    (he : s.regs.idEnabled id = true) : execGetval id s = respond s.regs (s.regs.value id) s := by
  rw [execGetval, if_neg (by simp [h]), if_pos hs, if_pos he]

/-- `CFGCH` in its two cases (R117). -/
theorem execCfgch_of_lt {c : BitVec 3} (h : c.toNat < 6) (en : Bool) (rep : Rep) (order : BitVec 2) (k : BitVec 4)
    (s : State) : execCfgch c en rep order k s = configured (s.regs.writeCh ⟨c.toNat, h⟩ ⟨en, rep, order, k⟩) s := by
  rw [execCfgch, dif_pos h]

theorem execCfgch_of_ge {c : BitVec 3} (h : 6 ≤ c.toNat) (en : Bool) (rep : Rep) (order : BitVec 2) (k : BitVec 4)
    (s : State) : execCfgch c en rep order k s = raise .illegal s := by
  rw [execCfgch, dif_neg (by omega)]

/-- What one command can do: the registers before and after it and its response, the cases of the command
rules, all of them (R111 to R120). -/
inductive Effect : Instr → Regs → Regs → Response → Prop
  | stepStale (x : Sample) (r : Regs) (hs : r.stale = true) : Effect (.step x) r r ⟨.stale, 0#32⟩
  | stepInvalid (x : Sample) (r : Regs) (hs : r.stale = false) (hv : r.cfgValid = false) :
    Effect (.step x) r r ⟨.config, 0#32⟩
  | step (x : Sample) (r : Regs) (hs : r.stale = false) (hv : r.cfgValid = true) :
    Effect (.step x) r (r.advance x).setStepped ⟨.ok, 0#32⟩
  | reset (r : Regs) : Effect .reset r r.zeroHistory.clearFlags ⟨.ok, 0#32⟩
  | select (m : BitVec 29) (r : Regs) : Effect (.select m) r (r.writeSel m) ⟨.ok, 0#32⟩
  | getvalStale (id : BitVec 5) (r : Regs) (hs : r.stale = true) : Effect (.getval id) r r ⟨.stale, 0#32⟩
  | getvalNotReady (id : BitVec 5) (r : Regs) (hs : r.stale = false) (ht : r.stepped = false) :
    Effect (.getval id) r r ⟨.notReady, 0#32⟩
  | getvalDisabled (id : BitVec 5) (r : Regs) (hs : r.stale = false) (ht : r.stepped = true)
    (he : r.idEnabled id = false) : Effect (.getval id) r r ⟨.disabled, 0#32⟩
  | getval (id : BitVec 5) (r : Regs) (hs : r.stale = false) (ht : r.stepped = true) (he : r.idEnabled id = true) :
    Effect (.getval id) r r ⟨.ok, r.value id⟩
  | getsel (r : Regs) : Effect .getsel r r ⟨.ok, r.sel.setWidth 32⟩
  | cfgchIllegal (c : BitVec 3) (h : 6 ≤ c.toNat) (en : Bool) (rep : Rep) (order : BitVec 2) (k : BitVec 4) (r : Regs) :
    Effect (.cfgch c en rep order k) r r ⟨.illegal, 0#32⟩
  | cfgch (c : BitVec 3) (h : c.toNat < 6) (en : Bool) (rep : Rep) (order : BitVec 2) (k : BitVec 4) (r : Regs) :
    Effect (.cfgch c en rep order k) r (r.writeCh ⟨c.toNat, h⟩ ⟨en, rep, order, k⟩).markStale ⟨.ok, 0#32⟩
  | cfghp (h : BitVec 2) (en : Bool) (src : BitVec 5) (r : Regs) :
    Effect (.cfghp h en src) r (r.writeHp h.toFin ⟨en, src⟩).markStale ⟨.ok, 0#32⟩
  | cfgbp (b : BitVec 1) (en brEn : Bool) (fast slow : BitVec 5) (r : Regs) :
    Effect (.cfgbp b en brEn fast slow) r (r.writeBp b.toFin ⟨en, brEn, fast, slow⟩).markStale ⟨.ok, 0#32⟩
  | cfgbq (en : Bool) (v : Variant) (a d : BitVec 12) (r : Regs) :
    Effect (.cfgbq en v a d) r (r.writeBq ⟨en, v, a, d⟩).markStale ⟨.ok, 0#32⟩

/-- A command always answers a next state with a response; only registers and response change, by one of the
effects above. -/
theorem exec_spec (i : Instr) (s : State) :
    ∃ r p, exec i s = .next { s with regs := r, rsp := some p } ∧ Effect i s.regs r p := by
  cases i with
  | step x =>
    by_cases hs : s.regs.stale = true
    · exact ⟨_, _, execStep_of_stale x hs, .stepStale x _ hs⟩
    · rw [Bool.not_eq_true] at hs
      by_cases hv : s.regs.cfgValid = true
      · exact ⟨_, _, execStep_of_valid x hs hv, .step x _ hs hv⟩
      · rw [Bool.not_eq_true] at hv
        exact ⟨_, _, execStep_of_invalid x hs hv, .stepInvalid x _ hs hv⟩
  | reset => exact ⟨_, _, rfl, .reset _⟩
  | select m => exact ⟨_, _, rfl, .select m _⟩
  | getval id =>
    by_cases hs : s.regs.stale = true
    · exact ⟨_, _, execGetval_of_stale id hs, .getvalStale id _ hs⟩
    · rw [Bool.not_eq_true] at hs
      by_cases ht : s.regs.stepped = true
      · by_cases he : s.regs.idEnabled id = true
        · exact ⟨_, _, execGetval_of_enabled id hs ht he, .getval id _ hs ht he⟩
        · rw [Bool.not_eq_true] at he
          exact ⟨_, _, execGetval_of_disabled id hs ht he, .getvalDisabled id _ hs ht he⟩
      · rw [Bool.not_eq_true] at ht
        exact ⟨_, _, execGetval_of_notReady id hs ht, .getvalNotReady id _ hs ht⟩
  | getsel => exact ⟨_, _, rfl, .getsel _⟩
  | cfgch c en rep order k =>
    by_cases h : c.toNat < 6
    · exact ⟨_, _, execCfgch_of_lt h en rep order k s, .cfgch c h en rep order k _⟩
    · exact ⟨_, _, execCfgch_of_ge (by omega) en rep order k s, .cfgchIllegal c (by omega) en rep order k _⟩
  | cfghp h en src => exact ⟨_, _, rfl, .cfghp h en src _⟩
  | cfgbp b en brEn fast slow => exact ⟨_, _, rfl, .cfgbp b en brEn fast slow _⟩
  | cfgbq en v a d => exact ⟨_, _, rfl, .cfgbq en v a d _⟩

/-- What the answered next state of a command is. -/
theorem exec_next {i : Instr} {s t : State} (h : exec i s = .next t) :
    ∃ p, t.rsp = some p ∧ t.pins = s.pins ∧ Effect i s.regs t.regs p := by
  obtain ⟨r, p, he, hr⟩ := exec_spec i s
  rw [he] at h
  cases h
  exact ⟨p, rfl, rfl, hr⟩

/-- A refused command leaves the registers and has data 0 (R131). -/
theorem Effect.refused {i : Instr} {r q : Regs} {p : Response} (h : Effect i r q p) (hp : p.status ≠ .ok) :
    q = r ∧ p.data = 0#32 := by
  cases h <;> first | exact absurd rfl hp | exact ⟨rfl, rfl⟩

/-- A command reads the registers and the ports' future only, never the response before it. -/
theorem exec_of_rsp (i : Instr) (s : State) (q : Option Response) : exec i { s with rsp := q } = exec i s := by
  cases i with
  | step x => simp only [exec, execStep]; split; rfl; split <;> rfl
  | getval id => simp only [exec, execGetval]; split; rfl; split; split; rfl; rfl; rfl
  | cfgch c en rep order k => simp only [exec, execCfgch]; split <;> rfl
  | _ => rfl

/-- A word: refused as illegal, or its command executed (R110). -/
theorem runWord_of_error {w : CmdWord} {e : Illegal} (h : decode w = .error e) (s : State) :
    runWord w s = .next { s with rsp := some ⟨.illegal, 0#32⟩ } := by
  rw [runWord, h]; rfl

theorem runWord_of_ok {w : CmdWord} {i : Instr} (h : decode w = .ok i) (s : State) : runWord w s = exec i s := by
  rw [runWord, h]

theorem runWord_of_rsp (w : CmdWord) (s : State) (q : Option Response) : runWord w { s with rsp := q } = runWord w s := by
  unfold runWord
  split
  · rfl
  · exact exec_of_rsp _ s q

/-- Everything one word can do. -/
theorem runWord_spec (w : CmdWord) (s : State) :
    ∃ r p, runWord w s = .next { s with regs := r, rsp := some p } ∧
      (((∃ e, decode w = .error e) ∧ r = s.regs ∧ p = ⟨.illegal, 0#32⟩) ∨
        ∃ i, decode w = .ok i ∧ Effect i s.regs r p) := by
  cases h : decode w with
  | error e => exact ⟨_, _, runWord_of_error h s, .inl ⟨⟨e, rfl⟩, rfl, rfl⟩⟩
  | ok i =>
    obtain ⟨r, p, he, hr⟩ := exec_spec i s
    exact ⟨r, p, by rw [runWord_of_ok h, he], .inr ⟨i, rfl, hr⟩⟩

/-- A step that accepts a command is that word's transaction, with the ports moved on (R41, R110). -/
theorem step_of_accepts {s : State} (h : s.accepts = true) :
    s.cmdReady = true ∧ step s = runWord s.pinsNow.cmdWord s.pinsPassed := by
  simp only [State.accepts, State.cmdReady, Bool.and_eq_true] at h
  refine ⟨h.2, ?_⟩
  rw [step, runPins, if_pos h.2, if_pos h.1]

/-- What the response port shows of a held response (R40, R54). -/
theorem rsp_ports {t : State} {p : Response} (h : t.rsp = some p) :
    t.rspValid = true ∧ t.rspStatus = some p.status.code ∧ t.rspData = some p.data := by
  simp [State.rspValid, State.rspStatus, State.rspData, h]

/-- What one step can do to the registers: nothing, a power-on reset, or one command's effect. -/
theorem step_spec {s t : State} (h : step s = .next t) :
    t.regs = s.regs ∨ t.regs = Regs.powerOn ∨ ∃ i p, Effect i s.regs t.regs p := by
  unfold step runPins at h
  split at h
  · split at h
    · obtain ⟨r, p, he, hr⟩ := runWord_spec s.pinsNow.cmdWord s.pinsPassed
      rw [he] at h
      cases h
      rcases hr with ⟨-, hr, -⟩ | ⟨i, -, hr⟩
      · exact .inl hr
      · exact .inr (.inr ⟨i, p, hr⟩)
    · cases h; exact .inl rfl
  · cases h; exact .inr (.inl rfl)

/-- The responses and the state after a list, one word at a time (R41). -/
theorem responses_cons (w : CmdWord) (ws : List CmdWord) (s t : State) (h : runWord w s = .next t) :
    responses (w :: ws) s = t.rsp.toList ++ responses ws t := by rw [responses, h]

theorem after_cons (w : CmdWord) (ws : List CmdWord) (s t : State) (h : runWord w s = .next t) :
    after (w :: ws) s = after ws t := by rw [after, h]

theorem after_append (ws vs : List CmdWord) (s : State) : after (ws ++ vs) s = after vs (after ws s) := by
  induction ws generalizing s with
  | nil => rfl
  | cons w ws ih =>
    obtain ⟨r, p, h, -⟩ := runWord_spec w s
    rw [List.cons_append, after_cons _ _ _ _ h, after_cons _ _ _ _ h, ih]

/-- The accumulators, latches and biquad registers of the power-on state are 0 (R25). -/
theorem Regs.powerOn_historyZero : Regs.powerOn.historyZero := Regs.zeroHistory_historyZero Regs.powerOn

end Sys2Proof.Machine
end

