-- ==== Sys2Proof/Laws/PerInstr.lean ====
section
/-! SUPPORT. Statements about every command as syntax, one lemma per constructor: each command's word lies in its own row of the opcode table. -/

namespace Sys2Proof.Laws.TableRow

/-- The word of a command carries the fixed bits of its own row of spec/opcode_table.json (R43 to R51). -/
def Statement (i : Instr) : Prop :=
  i.tableRow ∈ opcodeTable ∧ encode i &&& i.tableRow.mask = i.tableRow.matchBits

theorem step (sample : Sample) : Statement (.step sample) := by
  refine ⟨by simp [opcodeTable, Instr.tableRow], BitVec.eq_of_toNat_eq ?_⟩
  have := sample.isLt
  show (encode (.step sample) &&& BitVec.allOnes 36 <<< 16).toNat = _
  rw [toNat_and_highMask]
  simp only [encode, toNat_append_add, Instr.tableRow, BitVec.toNat_ofNat]
  omega

theorem reset : Statement .reset := ⟨by simp [opcodeTable, Instr.tableRow], by decide⟩

theorem select (mask : BitVec 29) : Statement (.select mask) := by
  refine ⟨by simp [opcodeTable, Instr.tableRow], BitVec.eq_of_toNat_eq ?_⟩
  have := mask.isLt
  show (encode (.select mask) &&& BitVec.allOnes 36 <<< 29).toNat = _
  rw [toNat_and_highMask]
  simp only [encode, toNat_append_add, Instr.tableRow, BitVec.toNat_ofNat]
  omega

theorem getval (id : BitVec 5) : Statement (.getval id) := by
  refine ⟨by simp [opcodeTable, Instr.tableRow], BitVec.eq_of_toNat_eq ?_⟩
  have := id.isLt
  show (encode (.getval id) &&& BitVec.allOnes 36 <<< 5).toNat = _
  rw [toNat_and_highMask]
  simp only [encode, toNat_append_add, Instr.tableRow, BitVec.toNat_ofNat]
  omega

theorem getsel : Statement .getsel := ⟨by simp [opcodeTable, Instr.tableRow], by decide⟩

theorem cfgch (c : BitVec 3) (en : Bool) (rep : Rep) (order : BitVec 2) (k : BitVec 4) :
    Statement (.cfgch c en rep order k) := by
  refine ⟨by simp [opcodeTable, Instr.tableRow], BitVec.eq_of_toNat_eq ?_⟩
  have := c.isLt
  have := Bool.toNat_lt en
  have := rep.toBits.isLt
  have := order.isLt
  have := k.isLt
  show (encode (.cfgch c en rep order k) &&& BitVec.allOnes 36 <<< 12).toNat = _
  rw [toNat_and_highMask]
  simp only [encode, toNat_append_add, toNat_ofBool, Instr.tableRow, BitVec.toNat_ofNat]
  omega

theorem cfghp (h : BitVec 2) (en : Bool) (src : BitVec 5) : Statement (.cfghp h en src) := by
  refine ⟨by simp [opcodeTable, Instr.tableRow], BitVec.eq_of_toNat_eq ?_⟩
  have := h.isLt
  have := Bool.toNat_lt en
  have := src.isLt
  show (encode (.cfghp h en src) &&& BitVec.allOnes 36 <<< 8).toNat = _
  rw [toNat_and_highMask]
  simp only [encode, toNat_append_add, toNat_ofBool, Instr.tableRow, BitVec.toNat_ofNat]
  omega

theorem cfgbp (b : BitVec 1) (en brEn : Bool) (fast slow : BitVec 5) : Statement (.cfgbp b en brEn fast slow) := by
  refine ⟨by simp [opcodeTable, Instr.tableRow], BitVec.eq_of_toNat_eq ?_⟩
  have := b.isLt
  have := Bool.toNat_lt en
  have := Bool.toNat_lt brEn
  have := fast.isLt
  have := slow.isLt
  show (encode (.cfgbp b en brEn fast slow) &&& BitVec.allOnes 36 <<< 13).toNat = _
  rw [toNat_and_highMask]
  simp only [encode, toNat_append_add, toNat_ofBool, Instr.tableRow, BitVec.toNat_ofNat]
  omega

theorem cfgbq (en : Bool) (variant : Variant) (alpha damp : BitVec 12) : Statement (.cfgbq en variant alpha damp) := by
  refine ⟨by simp [opcodeTable, Instr.tableRow], BitVec.eq_of_toNat_eq ?_⟩
  have := Bool.toNat_lt en
  have := Bool.toNat_lt variant.toBit
  have := alpha.isLt
  have := damp.isLt
  show (encode (.cfgbq en variant alpha damp) &&& BitVec.allOnes 36 <<< 26).toNat = _
  rw [toNat_and_highMask]
  simp only [encode, toNat_append_add, toNat_ofBool, Instr.tableRow, BitVec.toNat_ofNat]
  omega

end Sys2Proof.Laws.TableRow
end

