-- ==== Sys2Proof/Tests/Slice0.lean ====
section
/-! SUPPORT. Smoke tests of well-formedness, decoding from words written out of the spec's formats, numbers of spec/95_test_vectors.md, and for every obligation with hypotheses a concrete witness that meets them. -/

namespace Sys2Proof.Tests

open Sys2Proof Sys2Proof.Machine

/-! ### Small states -/

/-- The registers a command leaves. -/
def regsOf (o : Host.Outcome State Fault Refusal) : Regs :=
  match o with
  | .next t => t.regs
  | .fault _ => Regs.powerOn
  | .refused _ => Regs.powerOn

/-- The response a command gives. -/
def rspOf (o : Host.Outcome State Fault Refusal) : Option Response :=
  match o with
  | .next t => t.rsp
  | .fault _ => none
  | .refused _ => none

/-- The configuration of vector V-D1, with channel 5 a triple `I16` cascade and a biquad. -/
def bankRegs (bq : BqCfg) : Regs :=
  { Regs.powerOn with
    ch := #v[⟨true, .q8_8, 1#2, 3#4⟩, ⟨true, .i16, 1#2, 3#4⟩, ⟨true, .q16_16, 1#2, 5#4⟩, ⟨true, .f32, 1#2, 3#4⟩,
      ⟨true, .f32, 1#2, 5#4⟩, ⟨true, .i16, 3#2, 3#4⟩]
    hp := #v[⟨true, 0#5⟩, ⟨true, 3#5⟩, ⟨true, 6#5⟩, ⟨true, 9#5⟩]
    bp := #v[⟨true, true, 0#5, 6#5⟩, ⟨true, true, 9#5, 12#5⟩]
    bq := bq }

/-- The bank before its first `STEP`. -/
def bank (bq : BqCfg) : State := { State.reset with regs := bankRegs bq }

/-- The bank after a `STEP`, as the flags show it. -/
def stepped (bq : BqCfg) : State := { State.reset with regs := { bankRegs bq with stepped := true } }

/-- A state reconfigured after a `STEP`. -/
def staleState : State := { State.reset with regs := { Regs.powerOn with stepped := true, stale := true } }

/-- A state whose configuration is invalid: channel 0 enabled with order 0. -/
def invalidState : State :=
  { State.reset with regs := Regs.powerOn.writeCh 0 ⟨true, .i16, 0#2, 3#4⟩ }

/-- The Q8.8 biquad of vector V-B1. -/
def bqMul : BqCfg := ⟨true, .q8Mul, 64#12, 256#12⟩

/-- The 16-bit biquad of vector V-B2. -/
def bqShift : BqCfg := ⟨true, .i16Shift, 2#12, 256#12⟩

/-- The disabled biquad. -/
def bqOff : BqCfg := ⟨false, .i16Shift, 0#12, 0#12⟩

/-! ### Well-formedness -/

theorem test_channel_6_is_ill_formed : (Instr.cfgch 6#3 true .i16 1#2 3#4).wellFormed = false := by decide

theorem test_channel_7_is_ill_formed : (Instr.cfgch 7#3 false .f32 0#2 0#4).wellFormed = false := by decide

theorem test_channel_5_is_well_formed : (Instr.cfgch 5#3 true .f32 2#2 5#4).wellFormed = true := by decide

/-! ### Decoding: one word per constructor, written out bit by bit from R44 to R51 -/

theorem test_decode_step : decode (0b0001#4 ++ 0b0000000000000000#16 ++ 0b1111111111001110#16) = .ok (asmStep (-50)) := rfl

theorem test_decode_reset : decode (0b0010#4 ++ 0#32) = .ok .reset := rfl

theorem test_decode_select :
    decode (0b0011#4 ++ 0b000#3 ++ 0b00000000001000000000000000001#29) = .ok (.select 0x00040001#29) := rfl

theorem test_decode_getval : decode (0b0100#4 ++ 0#27 ++ 0b10010#5) = .ok (.getval 18#5) := rfl

theorem test_decode_getsel : decode (0b0101#4 ++ 0#32) = .ok .getsel := rfl

theorem test_decode_cfgch :
    decode (0b1000#4 ++ 0#20 ++ 0b0101#4 ++ 0b10#2 ++ 0b11#2 ++ 0b1#1 ++ 0b101#3)
      = .ok (.cfgch 5#3 true .f32 2#2 5#4) := rfl

theorem test_decode_cfghp : decode (0b1001#4 ++ 0#24 ++ 0b01111#5 ++ 0b1#1 ++ 0b11#2) = .ok (.cfghp 3#2 true 15#5) := rfl

theorem test_decode_cfgbp :
    decode (0b1010#4 ++ 0#19 ++ 0b00110#5 ++ 0b00011#5 ++ 0b1#1 ++ 0b1#1 ++ 0b0#1)
      = .ok (.cfgbp 0#1 true true 3#5 6#5) := rfl

theorem test_decode_cfgbq :
    decode (0b1011#4 ++ 0#6 ++ 0b1#1 ++ 0b1#1 ++ 0b000100000000#12 ++ 0b000001000000#12)
      = .ok (.cfgbq true .q8Mul 64#12 256#12) := rfl

/-- The illegal words of vector V-C2, by their reason. -/
theorem test_illegal_opcodes :
    ∀ w ∈ [0x000000000#36, 0x600000000#36, 0x700000000#36, 0xC00000000#36, 0xD00000000#36, 0xE00000000#36,
      0xF00000000#36], decode w = .error .opcode := by
  simp only [List.mem_cons, List.not_mem_nil, or_false, forall_eq_or_imp, forall_eq]
  exact ⟨rfl, rfl, rfl, rfl, rfl, rfl, rfl⟩

theorem test_illegal_reserved_bits :
    ∀ w ∈ [0x100010001#36, 0x200000001#36, 0x320000000#36, 0x400000020#36, 0x500000001#36, 0x800001000#36,
      0x900000100#36, 0xA00002000#36, 0xB04000000#36], decode w = .error .reservedBit := by
  simp only [List.mem_cons, List.not_mem_nil, or_false, forall_eq_or_imp, forall_eq]
  exact ⟨rfl, rfl, rfl, rfl, rfl, rfl, rfl, rfl, rfl⟩

theorem test_illegal_channel : decode 0x80000014E#36 = .error .channel := rfl

/-- A table word decodes, one with a bit above bit 35 does not, and the very next step runs it. -/
theorem test_decode_table_word : decodeTableWord 40 0x100000064 = some (.step 100#16) := by decide

theorem test_table_word_too_wide : decodeTableWord 40 0x8100000064 = none := by decide

theorem test_fetch_word_runs : rspOf (step (State.reset.withFetchWord 40 0x301480038)) = some ⟨.ok, 0#32⟩ ∧
    (regsOf (step (State.reset.withFetchWord 40 0x301480038))).sel = 0x01480038#29 := by decide

/-! ### Arithmetic (vectors V-N1 to V-N4, V-E1 to V-E4, V-E12) -/

theorem test_rinc16 :
    ([(100, 3), (-74, 3), (1, 1), (-1, 1), (2, 2), (-2, 2), (-3, 2), (7, 4), (8, 4), (-16, 5), (-17, 5), (128, 8),
      (-129, 8), (-32768, 8), (32767, 2)].map fun p : Int × Nat => (rinc (BitVec.ofInt 16 p.1) p.2).toInt)
    = [13, -9, 0, -1, 1, 0, -1, 0, 1, 0, -1, 1, -1, -128, -8192] := by decide

theorem test_rinc32 :
    ([(256000, 5), (65536000, 8), (-2147483648, 3), (2147483647, 2)].map fun p : Int × Nat =>
      (rinc (BitVec.ofInt 32 p.1) p.2).toInt) = [8000, 256000, -268435456, -536870912] := by decide

theorem test_rshr16 :
    ([(1000, 2), (-313, 2), (5, 0), (1, 1), (-1, 1), (16383, 15), (16384, 15), (-1, 15), (-32768, 15),
      (32767, 1)].map fun p : Int × Nat => (rshr (BitVec.ofInt 16 p.1) p.2).toInt)
    = [250, -78, 5, 1, 0, 0, -1, 0, -1, -16384] := by decide

theorem test_mulrs8 :
    ([(256000, 64), (-80000, 64), (-71000, 64), (3, 128), (-3, 128), (-1, 128), (1, 127), (-12345, 256), (12345, 0),
      (64000, 255), (-2147483648, 256), (2147483647, 255)].map fun p : Int × Nat =>
        (mulrs8 (BitVec.ofInt 32 p.1) p.2).toInt)
    = [64000, -20000, -17750, 2, -1, 0, 0, -12345, 0, 63750, -2147483648, 2139095039] := by decide

theorem test_converters :
    (q8OfI16 0x8000#16).toInt = -8388608 ∧ (q16OfI16 0x7FFF#16).toInt = 2147418112 ∧
    ([255, -1, -60000, 255985].map fun v : Int => (intOfQ8 (BitVec.ofInt 32 v)).toInt) = [0, -1, -235, 999] ∧
    ([-2048000, 65535985, -65535].map fun v : Int => (intOfQ16 (BitVec.ofInt 32 v)).toInt) = [-32, 999, -1] ∧
    (q16OfQ8 8388608#32).toInt = -2147483648 ∧ (q8OfQ16 (BitVec.ofInt 32 (-1))).toInt = -1 := by decide

theorem test_float_converters :
    f32OfI16 1000#16 = 0x447A0000#32 ∧ f32OfI16 0x8000#16 = 0xC7000000#32 ∧ f32OfI16 1#16 = 0x3F800000#32 ∧
    f32OfI16 0#16 = 0#32 ∧ f32Pow2 5 = 0x42000000#32 ∧ f32Pow2 8 = 0x43800000#32 ∧
    i16OfF32 0x41FA0000#32 = 31#16 ∧ i16OfF32 0x3F000000#32 = 0#16 ∧ i16OfF32 0x3FC00000#32 = 2#16 ∧
    i16OfF32 0x7FC00000#32 = 0#16 := by decide

theorem test_ema_i16 :
    ([(0, 100, 3), (13, 100, 3), (24, -50, 3), (0, 1, 1), (1, 0, 1), (0, -1, 2), (984, 1000, 5), (985, 1000, 5),
      (0, 32767, 8), (0, -32768, 1), (-20000, 20000, 2), (4109, -32768, 3)].map fun p : Int × Int × Nat =>
        (emaI16 (BitVec.ofInt 16 p.1) (BitVec.ofInt 16 p.2.1) p.2.2).toInt)
    = [13, 24, 15, 0, 0, 0, 985, 985, -128, -16384, -26384, 7691] := by decide

theorem test_ema_q8 :
    ([(0, 1000, 5), (8000, 1000, 5), (0, -1, 8), (255985, 1000, 5), (-8388608, 32767, 1),
      (-5120000, 20000, 2)].map fun p : Int × Int × Nat =>
        (emaQ8 (BitVec.ofInt 32 p.1) (q8OfI16 (BitVec.ofInt 16 p.2.1)) p.2.2).toInt)
    = [8000, 15750, -1, 255985, -128, -2560000] := by decide

theorem test_ema_q16 :
    ([(0, 1000, 5), (0, -32768, 1), (0, 32767, 8), (65535984, 1000, 5), (-1310720000, 20000, 2)].map
      fun p : Int × Int × Nat => (emaQ16 (BitVec.ofInt 32 p.1) (q16OfI16 (BitVec.ofInt 16 p.2.1)) p.2.2).toInt)
    = [2048000, -1073741824, 8388352, 65535985, -1729101824] := by decide

theorem test_ema_f32 :
    emaF32 0#32 (f32OfI16 1000#16) 5 = 0x41FA0000#32 ∧ emaF32 0x41FA0000#32 (f32OfI16 1000#16) 5 = 0x42761800#32 ∧
    emaF32 0#32 (f32OfI16 1#16) 8 = 0x3B800000#32 ∧ emaF32 0#32 (f32OfI16 0x8000#16) 1 = 0xC6800000#32 ∧
    emaF32 0#32 0#32 4 = 0#32 := by decide

/-! ### Commands, one step each (the examples of R96 to R120 and the vectors they cite) -/

set_option maxRecDepth 8000 in
/-- V-S2, row 0: stage 2 and stage 3 read the stage below as already updated. -/
theorem test_step_cascade :
    let r := regsOf (exec (asmStep 1000) (bank bqOff))
    r.readAcc 5 0 = 125#32 ∧ r.readAcc 5 1 = 16#32 ∧ r.readAcc 5 2 = 2#32 := by decide

set_option maxRecDepth 8000 in
/-- V-D1, step 1: an integer high-pass, and the float band-reject that reads the new band-pass. -/
theorem test_step_combiners :
    let r := regsOf (exec (asmStep (-1000)) (bank bqOff))
    r.readHpout 2 = 0xFFFFFC38#32 ∧ r.readBpout 0 = 0xFFFFFFA3#32 ∧ r.readBrout 1 = 0xC4629000#32 := by decide

/-- V-B1, row 2, and V-B2, row 1, from the rows before them. -/
theorem test_biquad_rows :
    let q := (({ bankRegs bqMul with bqLow := 27000#32, bqBand := 44000#32 } : Regs).phase4 0#16)
    let i := (({ bankRegs bqShift with bqLow := 63#32, bqBand := 250#32 } : Regs).phase4 0#16)
    (q.bqLow.toInt, q.bqBand.toInt, q.bqHigh.toInt) = (33563, 26250, -71000) ∧
    (i.bqLow.toInt, i.bqBand.toInt, i.bqHigh.toInt) = (106, 172, -313) := by decide

/-- R112: `RESET` zeroes the history and keeps the configuration. -/
theorem test_reset :
    let r := regsOf (exec .reset { stepped bqMul with regs := (stepped bqMul).regs.writeAcc 0 0 13#32 })
    r.readAcc 0 0 = 0#32 ∧ r.stepped = false ∧ r.readCh 0 = ⟨true, .q8_8, 1#2, 3#4⟩ := by decide

theorem test_select : (regsOf (exec (.select 0x00040001#29) State.reset)).sel = 0x00040001#29 := by decide

/-- R114: a negative result is returned sign-extended and unclipped; a Q8.8 biquad value is de-scaled. -/
theorem test_getval_latch :
    rspOf (exec (.getval 18#5) { stepped bqOff with regs := (stepped bqOff).regs.writeHpout 0 0xFFFF61F5#32 })
      = some ⟨.ok, 0xFFFF61F5#32⟩ := by decide

theorem test_getval_biquad :
    rspOf (exec (.getval 28#5) { stepped bqMul with regs := (stepped bqMul).regs.writeBiquad (BitVec.ofInt 32 (-80000)) 0 0 })
      = some ⟨.ok, BitVec.ofInt 32 (-313)⟩ := by decide

theorem test_getsel :
    rspOf (exec .getsel { State.reset with regs := Regs.powerOn.writeSel 0x00040001#29 }) = some ⟨.ok, 0x00040001#32⟩ := by
  decide

theorem test_cfgch : (regsOf (exec (.cfgch 5#3 true .f32 2#2 5#4) State.reset)).readCh 5 = ⟨true, .f32, 2#2, 5#4⟩ := by
  decide

/-- R116: a configuration command after a `STEP` sets `STALE`, even when the value does not change. -/
theorem test_cfgch_stale :
    (regsOf (exec (.cfgch 0#3 true .q8_8 1#2 3#4) (stepped bqOff))).stale = true ∧
    (regsOf (exec (.cfgch 0#3 true .q8_8 1#2 3#4) (bank bqOff))).stale = false := by decide

theorem test_cfghp : (regsOf (exec (.cfghp 3#2 true 15#5) State.reset)).readHp 3 = ⟨true, 15#5⟩ := by decide

theorem test_cfgbp : (regsOf (exec (.cfgbp 0#1 true true 3#5 6#5) State.reset)).readBp 0 = ⟨true, true, 3#5, 6#5⟩ := by
  decide

theorem test_cfgbq : (regsOf (exec (.cfgbq true .i16Shift 2#12 256#12) State.reset)).bq = ⟨true, .i16Shift, 2#12, 256#12⟩ := by
  decide

/-- V-D3: pairings that make `STEP` answer `ERR_CONFIG`, and the legal one. -/
theorem test_pairings :
    ((bankRegs bqOff).writeBp 0 ⟨true, false, 0#5, 9#5⟩).cfgValid = false ∧
    ((bankRegs bqOff).writeBp 0 ⟨true, false, 6#5, 0#5⟩).cfgValid = false ∧
    ((bankRegs bqOff).writeBp 0 ⟨true, false, 0#5, 3#5⟩).cfgValid = false ∧
    ((bankRegs bqOff).writeBp 0 ⟨false, true, 0#5, 6#5⟩).cfgValid = false ∧
    ((bankRegs bqOff).writeHp 0 ⟨true, 1#5⟩).cfgValid = false ∧
    ((bankRegs bqOff).writeHp 0 ⟨true, 18#5⟩).cfgValid = false ∧
    ((bankRegs bqOff).writeBp 0 ⟨true, false, 0#5, 6#5⟩).cfgValid = true := by decide

/-! ### Witnesses: concrete states and operands that meet an obligation's hypotheses -/

theorem witness_DecodeInvertsEncode :
    (Instr.cfgch 0#3 true .i16 1#2 3#4).wellFormed = true ∧ (Instr.cfgch 5#3 true .f32 3#2 8#4).wellFormed = true ∧
    (Instr.step 0x8000#16).wellFormed = true := by decide

theorem witness_EncodeInvertsDecode : decode 0x8000005BD#36 = .ok (.cfgch 5#3 true .f32 2#2 5#4) := rfl

/-- One illegal word for each case of R53, and the neighbour of each that is legal. -/
theorem witness_IllegalWordsExactly :
    illegalWord 0xF00000000#36 ∧ illegalWord 0x100010000#36 ∧ illegalWord 0x800000006#36 ∧ illegalWord 0x800000007#36 ∧
    ¬ illegalWord 0xB00000000#36 ∧ ¬ illegalWord 0x10000FFFF#36 ∧ ¬ illegalWord 0x800000005#36 := by
  unfold illegalWord; decide

theorem witness_LegalWordsAreTheTableRows :
    (⟨"CFGCH", 0x800000000#36, 0xFFFFFF000#36⟩ : TableRow) ∈ opcodeTable ∧
    0x800000FFD#36 &&& 0xFFFFFF000#36 = 0x800000000#36 ∧ ((0x800000FFD#36).extractLsb' 0 3).toNat < 6 := by decide

theorem witness_PowerOnResetZeroesEverything :
    ({ stepped bqMul with pins := [⟨false, true, 0x1000003E8#36⟩] } : State).pins
      = ⟨false, true, 0x1000003E8#36⟩ :: [] := rfl

theorem witness_StepRunsTheDecodedCommand :
    ({ bank bqMul with pins := [offer 0x1000003E8#36] } : State).pins = offer 0x1000003E8#36 :: [] ∧
    decode 0x1000003E8#36 = .ok (asmStep 1000) ∧ decode 0x600000000#36 = .error .opcode ∧
    ({ bank bqMul with pins := [⟨true, false, 0#36⟩] } : State).pins = ⟨true, false, 0#36⟩ :: [] ∧
    (bank bqMul).pins = [] := ⟨rfl, rfl, rfl, rfl, rfl⟩

theorem witness_RefusedCommandChangesNothing :
    ∃ t p, runWord 0x100000001#36 invalidState = .next t ∧ t.rsp = some p ∧ p.status ≠ .ok :=
  ⟨{ invalidState with rsp := some ⟨.config, 0#32⟩ }, ⟨.config, 0#32⟩, rfl, rfl, by decide⟩

/-- Each error status, from a word and a state that give it. -/
theorem witness_StatusHasItsExactCause :
    rspOf (runWord 0x000000000#36 State.reset) = some ⟨.illegal, 0#32⟩ ∧
    rspOf (runWord 0x100000001#36 invalidState) = some ⟨.config, 0#32⟩ ∧
    rspOf (runWord 0x100000001#36 staleState) = some ⟨.stale, 0#32⟩ ∧
    rspOf (runWord 0x40000001D#36 staleState) = some ⟨.stale, 0#32⟩ ∧
    rspOf (runWord 0x40000001D#36 State.reset) = some ⟨.notReady, 0#32⟩ ∧
    rspOf (runWord 0x40000001D#36 (stepped bqMul)) = some ⟨.disabled, 0#32⟩ := by decide

/-- V-C3: where causes meet, the higher one. -/
theorem witness_RefusalPriority :
    ({ invalidState.regs with stepped := true, stale := true } : Regs).cfgValid = false ∧ staleState.regs.stale = true ∧
    invalidState.regs.stale = false ∧ invalidState.regs.cfgValid = false ∧
    State.reset.regs.stepped = false ∧ (stepped bqMul).regs.stale = false ∧ (stepped bqMul).regs.stepped = true ∧
    (stepped bqMul).regs.idEnabled 29#5 = false := by decide

theorem witness_DataOnlyFromReads :
    rspOf (runWord 0x500000000#36 { State.reset with regs := Regs.powerOn.writeSel 1#29 }) = some ⟨.ok, 1#32⟩ ∧
    ∃ t, ({ bank bqMul with pins := [offer 0x100000001#36] } : State).accepts = true ∧
      step { bank bqMul with pins := [offer 0x100000001#36] } = .next t :=
  ⟨by decide, _, rfl, (step_of_accepts rfl).2.trans ((runWord_of_ok (i := .step 1#16) rfl _).trans
    (execStep_of_valid _ (by decide) (by decide)))⟩

/-- The boundary ids of every row of the id map. -/
theorem witness_EnabledByTheIdMap :
    (17#5).toNat = 3 * (5 : Fin 6).val + (2 : Fin 3).val ∧ (18#5).toNat = 18 + (0 : Fin 4).val ∧
    (21#5).toNat = 18 + (3 : Fin 4).val ∧ (22#5).toNat = 22 + (0 : Fin 2).val ∧ (23#5).toNat = 22 + (1 : Fin 2).val ∧
    (24#5).toNat = 24 + (0 : Fin 2).val ∧ (25#5).toNat = 24 + (1 : Fin 2).val ∧ 26 ≤ (26#5).toNat ∧
    (28#5).toNat ≤ 28 ∧ 29 ≤ (29#5).toNat ∧ 29 ≤ (31#5).toNat := by decide

/-- The premises of every statement about an accepted `STEP`, with every kind of unit enabled or disabled. -/
theorem witness_accepted_step :
    (bank bqMul).regs.stale = false ∧ (bank bqMul).regs.cfgValid = true ∧
    (bank bqShift).regs.stale = false ∧ (bank bqShift).regs.cfgValid = true ∧
    (bank bqOff).regs.stale = false ∧ (bank bqOff).regs.cfgValid = true ∧
    State.reset.regs.stale = false ∧ State.reset.regs.cfgValid = true := by decide

theorem witness_StepUpdatesTheCascades :
    (bank bqOff).regs.cfgValid = true ∧ ((bank bqOff).regs.readCh 5).en = true ∧
    ((bank bqOff).regs.readCh 5).order.toNat = 3 ∧ ((bank bqOff).regs.readCh 0).order.toNat < (1 : Fin 3).val + 1 ∧
    (State.reset.regs.readCh 0).en = false := by decide

theorem witness_StepComputesHighPass :
    ((bank bqOff).regs.readHp 0).en = true ∧ (bank bqOff).regs.tapClass ⟨0, 0⟩ = .int ∧
    tapOfId ((bank bqOff).regs.readHp 0).src = some ⟨0, 0⟩ ∧ ((bank bqOff).regs.readHp 3).en = true ∧
    tapOfId ((bank bqOff).regs.readHp 3).src = some ⟨3, 0⟩ ∧ (bank bqOff).regs.tapClass ⟨3, 0⟩ = .float ∧
    (State.reset.regs.readHp 0).en = false := by decide

theorem witness_StepComputesBandPassAndReject :
    ((bank bqOff).regs.readBp 0).en = true ∧ ((bank bqOff).regs.readBp 0).brEn = true ∧
    tapOfId ((bank bqOff).regs.readBp 0).fast = some ⟨0, 0⟩ ∧ ((bank bqOff).regs.readBp 1).brEn = true ∧
    tapOfId ((bank bqOff).regs.readBp 1).fast = some ⟨3, 0⟩ ∧ (State.reset.regs.readBp 0).en = false ∧
    (State.reset.regs.readBp 0).brEn = false := by decide

theorem witness_StepUpdatesTheBiquad :
    (bank bqShift).regs.bq.en = true ∧ (bank bqShift).regs.bq.variant = .i16Shift ∧ (bank bqMul).regs.bq.en = true ∧
    (bank bqMul).regs.bq.variant = .q8Mul ∧ (bank bqOff).regs.bq.en = false := by decide

theorem witness_StepFrame :
    (bank bqOff).regs.stageEnabled 0 1 = false ∧ (State.reset.regs.readHp 0).en = false ∧
    (State.reset.regs.readBp 0).en = false ∧ (State.reset.regs.readBp 0).brEn = false ∧ (bank bqOff).regs.bq.en = false := by
  decide

theorem witness_IntegerReconstruction : ∃ t, exec (asmStep (-32768)) (bank bqOff) = .next t ∧
    ((bank bqOff).regs.readHp 1).en = true ∧ tapOfId ((bank bqOff).regs.readHp 1).src = some ⟨1, 0⟩ ∧
    (bank bqOff).regs.tapClass ⟨1, 0⟩ = .int :=
  ⟨_, execStep_of_valid _ (by decide) (by decide), by decide, by decide, by decide⟩

/-- The two ends of the damping range and of the alpha range are valid configurations. -/
theorem witness_BiquadDampingCorners :
    (bank ⟨true, .q8Mul, 0#12, 256#12⟩).regs.cfgValid = true ∧ (bank ⟨true, .q8Mul, 256#12, 0#12⟩).regs.cfgValid = true := by
  decide

theorem witness_BiquadExactInRange :
    biquad16InRange 16383 0 0 15 ∧ biquad16InRange (-32768) 0 0 0 ∧ biquad32InRange (-32768) 0 0 256 256 := by
  unfold biquad16InRange biquad32InRange fits; decide

theorem witness_TheTwoResetsDifferOnlyInConfig : ∃ t, exec .reset (stepped bqMul) = .next t := ⟨_, rfl⟩

theorem witness_GetvalReturnsTheVisibleValue :
    (stepped bqMul).regs.stale = false ∧ (stepped bqMul).regs.stepped = true ∧
    (∀ id ∈ [0#5, 3#5, 6#5, 9#5, 17#5, 18#5, 21#5, 22#5, 23#5, 24#5, 25#5, 26#5, 27#5, 28#5],
      (stepped bqMul).regs.idEnabled id = true) ∧ (stepped bqShift).regs.idEnabled 26#5 = true := by decide

theorem witness_CfgchStoresItsFields :
    6 ≤ (6#3).toNat ∧ 6 ≤ (7#3).toNat ∧ (0#3).toNat = (0 : Fin 6).val ∧ (5#3).toNat = (5 : Fin 6).val := by decide

theorem witness_CfghpStoresItsFields : (0#2).toNat = (0 : Fin 4).val ∧ (3#2).toNat = (3 : Fin 4).val := by decide

theorem witness_CfgbpStoresItsFields : (0#1).toNat = (0 : Fin 2).val ∧ (1#1).toNat = (1 : Fin 2).val := by decide

theorem witness_VisibleValueIsTheFloor :
    classOf .i16 = .int ∧ fits16 0xFFFF8000#32 ∧ classOf .q8_8 = .int ∧ classOf .q16_16 = .int ∧
    repValue .q8_8 0xFFFFFFFF#32 = some (((0xFFFFFFFF#32 : Word).toInt : ℚ) / 256) :=
  ⟨rfl, by unfold fits16; decide, rfl, rfl, rfl⟩

theorem witness_RoundedIncrement :
    1 ∈ Config.legalK ∧ 8 ∈ Config.legalK ∧ fits 16 ((0x7F7F#16).toInt + ((2 ^ (8 - 1) : Nat) : Int)) ∧
    ¬ fits 16 ((0x7F80#16).toInt + ((2 ^ (8 - 1) : Nat) : Int)) := by unfold fits; decide

theorem witness_RoundedShift :
    fits 16 ((0x3FFF#16).toInt + ((2 ^ (15 - 1) : Nat) : Int)) ∧
    ¬ fits 16 ((0x4000#16).toInt + ((2 ^ (15 - 1) : Nat) : Int)) := by unfold fits; decide

theorem witness_RoundedMultiply : (0 : Nat) ≤ 256 ∧ (256 : Nat) ≤ 256 := by decide

/-- A NaN, the infinities, and the finite values at both ends of the 16-bit range. -/
theorem witness_AuxiliaryConverters :
    f32Unpack 0x7FC00000#32 = .nan ∧ f32Unpack 0x7F800000#32 = .inf false ∧ f32Unpack 0xFF800000#32 = .inf true ∧
    f32Units 0x46FFFE00#32 = some (32767 * f32One) ∧ f32Units 0xC7000000#32 = some (-32768 * f32One) ∧
    f32Units 0x3F000000#32 = some (f32One / 2) := by decide

/-- Finite operands below, at and above the overflow threshold, and an exact zero. -/
theorem witness_FloatSumsRoundToNearest :
    f32Units 0x7F7FFFFF#32 = some ((2 ^ 24 - 1) * 2 ^ 253) ∧ f32Units 0x73000000#32 = some (2 ^ 252) ∧
    f32Units 0x72FFFFFF#32 = some ((2 ^ 24 - 1) * 2 ^ 228) ∧ f32Units 0x3F800000#32 = some f32One ∧
    f32Units 0xBF800000#32 = some (-f32One) := by decide

theorem witness_FloatQuotientByPowerOfTwo :
    f32Units 0x00000001#32 = some 1 ∧ f32Units 0x3F800000#32 = some f32One ∧ ((2 ^ (23 + 8) : Nat) : Int) ≤ |f32One| := by
  decide

theorem witness_NanOperandGivesQuietNan : f32Unpack 0x7F800001#32 = .nan ∧ f32Unpack 0xFFFFFFFF#32 = .nan := by decide

/-- The ends of the exactness range of a 16-bit update. -/
theorem witness_IntegerEmaExactness :
    8 ∈ Config.legalK ∧ emaInRange 16 0 32639 8 ∧ ¬ emaInRange 16 0 32640 8 ∧ emaInRange 16 0 (-32768) 1 ∧
    ¬ emaInRange 16 1 (-32768) 1 := by unfold emaInRange addend; decide

theorem witness_IntegerEmaLaw : (2 : Nat) ≤ 2 ∧ (2 : Nat) ≤ 8 := by decide

theorem witness_IntegerEmaConverges : 5 ∈ Config.legalK ∧ emaInRange 32 0 256000 5 := by unfold emaInRange addend; decide

theorem witness_BoundedSamplesKeepAccumulatorsBounded :
    (∃ t, exec (.step 16320#16) (bank bqOff) = .next t) ∧ (-16319 : Int) ≤ (16320#16).toInt ∧ (16320#16).toInt ≤ 16320 ∧
    (bank bqOff).regs.i16Within (-16319) 16320 ∧ (16320 : Int) - (-16319) ≤ 32639 ∧
    (bank bqOff).regs.q16Within (-16383) 16384 ∧ (16384 : Int) - (-16383) ≤ 32767 ∧
    ((bank bqOff).regs.readCh 1).rep = .i16 ∧ ((bank bqOff).regs.readCh 2).rep = .q16_16 ∧
    ((bank bqOff).regs.readCh 5).rep = .i16 ∧ (bank bqOff).regs.stageEnabled 5 1 = true ∧
    (bank bqOff).regs.stageEnabled 5 2 = true ∧
    ((bank bqOff).regs.writeCh 5 ⟨true, .q16_16, 3#2, 8#4⟩).stageEnabled 5 2 = true ∧
    (∃ t, exec (.step 16320#16) { bank bqOff with regs := (bank bqOff).regs.writeCh 5 ⟨true, .q16_16, 3#2, 8#4⟩ } = .next t) ∧
    (bank bqOff).regs.cfgValid = true :=
  ⟨⟨_, execStep_of_valid _ (by decide) (by decide)⟩, by decide, by decide, by unfold Regs.i16Within; decide, by decide,
    by unfold Regs.q16Within; decide, by decide, by decide, by decide, by decide, by decide, by decide, by decide,
    ⟨_, execStep_of_valid _ (by decide) (by decide)⟩, by decide⟩

theorem witness_FloatEmaStaysBetween :
    1 ∈ Config.legalK ∧ f32Within (-32768) 32767 0xC7000000#32 ∧ f32Within (-32768) 32767 0x46FFFE00#32 :=
  ⟨by decide, ⟨_, rfl, by decide, by decide⟩, ⟨_, rfl, by decide, by decide⟩⟩

theorem witness_WriteRights : ∃ t, exec (asmStep 1) (bank bqMul) = .next t ∧ t.regs.stepped ≠ (bank bqMul).regs.stepped :=
  ⟨_, execStep_of_valid _ (by decide) (by decide), by simp; decide⟩

/-- Two masks, and a list with a `GETSEL` in it whose other positions the statement speaks of. -/
theorem witness_SelectionMaskIsAdvisory :
    sameButSel ((stepped bqMul).regs.writeSel 5#29) (stepped bqMul).regs ∧
    [0x500000000#36, 0x1000003E8#36, 0x40000001A#36][1]? = some 0x1000003E8#36 ∧
    decode 0x1000003E8#36 ≠ .ok .getsel ∧
    [0x500000000#36, 0x1000003E8#36, 0x40000001A#36][2]? = some 0x40000001A#36 ∧
    decode 0x40000001A#36 ≠ .ok .getsel := by
  refine ⟨rfl, rfl, ?_, rfl, ?_⟩
  · rw [show decode 0x1000003E8#36 = .ok (.step 1000#16) from rfl]; simp
  · rw [show decode 0x40000001A#36 = .ok (.getval 26#5) from rfl]; simp

theorem witness_ResetReproducesTheRun :
    sameConfig ((stepped bqMul).regs.writeAcc 0 0 13#32) (bank bqMul).regs := ⟨rfl, rfl, rfl, rfl, rfl⟩

theorem witness_StaleUntilReset :
    (Instr.cfgbq true .q8Mul 64#12 256#12).isConfig = true ∧ (Instr.cfgbq true .q8Mul 64#12 256#12).wellFormed = true ∧
    staleState.regs.stale = true ∧ ∀ w ∈ [0x500000000#36], decode w ≠ .ok .reset := by
  refine ⟨rfl, rfl, rfl, ?_⟩
  simp only [List.mem_cons, List.not_mem_nil, or_false, forall_eq]
  rw [show decode 0x500000000#36 = .ok .getsel from rfl]; simp

theorem witness_BootSequenceNeedsNoReset :
    (∀ w ∈ [0x300040001#36, 0x800000348#36], ∃ i, decode w = .ok i ∧ (i.isConfig = true ∨ ∃ m, i = .select m)) ∧
    (after [0x300040001#36, 0x800000348#36] State.reset).regs.cfgValid = true := by
  refine ⟨?_, by decide⟩
  simp only [List.mem_cons, List.not_mem_nil, or_false, forall_eq_or_imp, forall_eq]
  exact ⟨⟨_, rfl, .inr ⟨_, rfl⟩⟩, ⟨_, rfl, .inl rfl⟩⟩

theorem witness_ConfigureExpansionIsReady :
    ∀ i ∈ [Instr.cfgch 0#3 true .i16 1#2 3#4, Instr.cfghp 0#2 true 0#5], i.isConfig = true ∧ i.wellFormed = true := by
  decide

/-- The power-on state meets every invariant, so no step invariant is about nothing; and a step from it exists. -/
theorem witness_invariants :
    Regs.powerOn.historyInv ∧ Regs.powerOn.idleZero ∧ ∃ t, step (State.reset.withFetchWord 40 0x100000005) = .next t :=
  ⟨⟨by decide, fun _ => Regs.powerOn_historyZero⟩,
    fun _ => ⟨fun c s _ => Regs.powerOn_historyZero.1 c s, fun h _ => Regs.powerOn_historyZero.2.2.2.2.1 h,
      fun b _ => Regs.powerOn_historyZero.2.2.2.2.2.1 b, fun b _ => Regs.powerOn_historyZero.2.2.2.2.2.2 b,
      fun _ => ⟨rfl, rfl, rfl⟩⟩, ⟨_, rfl⟩⟩

/-- A state in the middle of a run, with history in it, that meets the premises of the step invariants. -/
theorem witness_running_state :
    (∃ t, step (stepped bqShift) = .next t) ∧ (stepped bqShift).regs.historyInv ∧ (stepped bqShift).regs.readableValid ∧ (stepped bqShift).regs.q8InRange ∧
    ((stepped bqShift).regs.writeAcc 5 2 0xFFFF8000#32).typed := by
  refine ⟨⟨_, rfl⟩, ⟨by decide, fun h => absurd h (by decide)⟩, by unfold Regs.readableValid; decide, by unfold Regs.q8InRange; decide, ?_⟩
  unfold Regs.typed fits16; decide

theorem witness_StepKeepsFloatsFinite : Regs.powerOn.floatsFinite := by
  refine fun _ => ⟨fun c s h => ?_, fun h t _ hc => ?_, fun b t _ hc => ?_⟩
  · rw [Regs.powerOn_historyZero.1 c s]; exact ⟨0, rfl, by decide, by decide⟩
  · rw [Regs.powerOn_historyZero.2.2.2.2.1 h]; exact ⟨0, rfl⟩
  · rw [Regs.powerOn_historyZero.2.2.2.2.2.1 b, Regs.powerOn_historyZero.2.2.2.2.2.2 b]; exact ⟨⟨0, rfl⟩, ⟨0, rfl⟩⟩

end Sys2Proof.Tests
end

section
/-! SUPPORT. What one effect and one step do to a whole register file, by kind: the history is written by `STEP` and
`RESET` alone, a configuration command leaves it and marks it stale. The step invariants follow from this. -/

namespace Sys2Proof.Machine

/-! ### The history beside the configuration -/

/-- Everything but the configuration registers: the history, its two flags, and `SEL`. -/
def Regs.besideConfig (r : Regs) : Regs :=
  { r with ch := Regs.powerOn.ch, hp := Regs.powerOn.hp, bp := Regs.powerOn.bp, bq := Regs.powerOn.bq }

/-- The accumulators and latches alone: no configuration, no flag, no mask. -/
def Regs.historyOnly (r : Regs) : Regs :=
  { r.besideConfig with stepped := false, stale := false, sel := 0#29 }

theorem Regs.historyOnly_of_besideConfig {u r : Regs} (h : u.besideConfig = r.besideConfig) :
    u.historyOnly = r.historyOnly :=
  (congrArg Regs.historyOnly h :)

theorem Regs.setStepped_historyOnly (r : Regs) : r.setStepped.historyOnly = r.historyOnly := rfl

theorem Regs.markStale_historyOnly (r : Regs) : r.markStale.historyOnly = r.historyOnly := rfl

theorem Regs.writeSel_historyOnly (r : Regs) (m : BitVec 29) : (r.writeSel m).historyOnly = r.historyOnly := rfl

theorem Regs.historyZero_of_besideConfig {u r : Regs} (h : u.besideConfig = r.besideConfig) :
    u.historyZero ↔ r.historyZero :=
  (congrArg Regs.historyZero h :) ▸ Iff.rfl

theorem Regs.stepped_of_besideConfig {u r : Regs} (h : u.besideConfig = r.besideConfig) : u.stepped = r.stepped :=
  (congrArg Regs.stepped h :)

theorem Regs.stale_of_besideConfig {u r : Regs} (h : u.besideConfig = r.besideConfig) : u.stale = r.stale :=
  (congrArg Regs.stale h :)

theorem Regs.sel_of_besideConfig {u r : Regs} (h : u.besideConfig = r.besideConfig) : u.sel = r.sel :=
  (congrArg Regs.sel h :)

/-- The kinds of effect: none, an accepted `STEP`, `RESET`, `SELECT`, and a configuration command, which writes the
configuration and then applies the `STALE` rule (R111 to R120). -/
theorem Effect.kinds {i : Instr} {r q : Regs} {p : Response} (h : Effect i r q p) :
    q = r ∨
    (∃ x, i = .step x ∧ r.stale = false ∧ r.cfgValid = true ∧ q = (r.advance x).setStepped) ∨
    (i = .reset ∧ q = r.zeroHistory.clearFlags) ∨
    (∃ m, i = .select m ∧ q = r.writeSel m) ∨
    (i.isConfig = true ∧ ∃ u : Regs, q = u.markStale ∧ u.besideConfig = r.besideConfig) := by
  cases h with
  | step x _ hs hv => exact .inr (.inl ⟨x, rfl, hs, hv, rfl⟩)
  | reset => exact .inr (.inr (.inl ⟨rfl, rfl⟩))
  | select m => exact .inr (.inr (.inr (.inl ⟨m, rfl, rfl⟩)))
  | cfgch | cfghp | cfgbp | cfgbq => exact .inr (.inr (.inr (.inr ⟨rfl, _, rfl, rfl⟩)))
  | _ => exact .inl rfl

/-! ### Step invariants -/

/-- A predicate that cannot fail on a zeroed history or on a stale one is kept by every step from a state with the
history invariant, as soon as `SELECT` and an accepted `STEP` keep it: a configuration command finds the history zero or
makes it stale (R15, R116), and both resets zero it (R25). -/
theorem step_keeps_of_select_of_advance (P : Regs → Prop)
    (hzero : ∀ r, r.historyZero → r.stepped = false → P r)
    (hstale : ∀ r, r.stale = true → P r)
    (hsel : ∀ r m, P r → P (r.writeSel m))
    (hadv : ∀ r x, r.stale = false → r.cfgValid = true → P r → P (r.advance x).setStepped)
    {s t : State} (hi : s.regs.historyInv) (hp : P s.regs) (h : step s = .next t) : P t.regs := by
  rcases step_spec h with e | e | ⟨i, p, he⟩
  · rwa [e]
  · rw [e]; exact hzero _ Regs.powerOn_historyZero rfl
  rcases he.kinds with e | ⟨x, -, hs, hv, e⟩ | ⟨-, e⟩ | ⟨m, -, e⟩ | ⟨-, u, e, hu⟩ <;> rw [e]
  · exact hp
  · exact hadv _ x hs hv hp
  · exact hzero _ (Regs.zeroHistory_historyZero s.regs) rfl
  · exact hsel _ m hp
  · have hsu := Regs.stepped_of_besideConfig hu
    by_cases hst : s.regs.stepped = true
    · exact hstale _ (by rw [Regs.markStale_stale, hsu, hst, Bool.or_true])
    · rw [Bool.not_eq_true] at hst
      exact hzero _ ((Regs.historyZero_of_besideConfig hu).2 (hi.2 hst)) (hsu.trans hst)

/-- Every command keeps the history invariant (R15, R25, R116). -/
theorem Effect.historyInv {i : Instr} {r q : Regs} {p : Response} (h : Effect i r q p) (hi : r.historyInv) :
    q.historyInv := by
  obtain ⟨hstale, hzero⟩ := hi
  rcases h.kinds with rfl | ⟨x, -, -, -, rfl⟩ | ⟨-, rfl⟩ | ⟨m, -, rfl⟩ | ⟨-, u, rfl, hu⟩
  · exact ⟨hstale, hzero⟩
  · exact ⟨fun _ => rfl, fun h => absurd h.symm Bool.false_ne_true⟩
  · exact ⟨fun h => absurd h Bool.false_ne_true, fun _ => r.zeroHistory_historyZero⟩
  · exact ⟨hstale, hzero⟩
  · have hsu := Regs.stepped_of_besideConfig hu
    refine ⟨fun h => ?_, fun h => (Regs.historyZero_of_besideConfig hu).2 (hzero (hsu.symm.trans h))⟩
    rw [Regs.markStale_stale, Regs.stale_of_besideConfig hu, hsu, Bool.or_eq_true] at h
    exact hsu.trans (h.elim hstale id)

theorem Regs.powerOn_historyInv : Regs.powerOn.historyInv :=
  ⟨fun h => absurd h Bool.false_ne_true, fun _ => Regs.powerOn_historyZero⟩

/-- Settles O55, by the kinds of effect: only `STEP` and `RESET` write the history, each with its flag. -/
theorem stepKeepsHistoryInvariant : Obligations.StepKeepsHistoryInvariant := by
  intro s t hi h
  rcases step_spec h with e | e | ⟨i, p, he⟩
  · rwa [e]
  · rw [e]; exact Regs.powerOn_historyInv
  · exact he.historyInv hi

/-! ### What `STEP` does to one accumulator and to the biquad -/

/-- With a valid configuration, `STEP` puts an EMA update into every enabled stage and leaves the others (R91, R111). -/
theorem Regs.advance_readAcc {r : Regs} (hv : r.cfgValid = true) (x : Sample) (c : Fin 6) (s : Fin 3) :
    ∃ input, (r.advance x).readAcc c s =
      if r.stageEnabled c s = true then
        ema (r.readCh c).rep (r.readAcc c s) input (r.readCh c).k.toNat
      else r.readAcc c s := by
  obtain ⟨h0, h1, h2, -⟩ := r.advance_spec x
  match s with
  | 0 => exact ⟨_, by rw [Regs.stageEnabled_zero hv]; exact h0 c⟩
  | 1 => exact ⟨_, h1 c⟩
  | 2 => exact ⟨_, h2 c⟩

theorem Regs.advance_readAcc_of_disabled {r : Regs} (hv : r.cfgValid = true) (x : Sample) {c : Fin 6} {s : Fin 3}
    (h : r.stageEnabled c s = false) : (r.advance x).readAcc c s = r.readAcc c s := by
  obtain ⟨_, ha⟩ := r.advance_readAcc hv x c s
  rw [ha, if_neg (by simp [h])]

/-- `STEP` leaves in the biquad's registers what phase 4 alone does: no other phase touches them (R111). -/
theorem Regs.advance_biquad (r : Regs) (x : Sample) :
    (r.advance x).bqHigh = (r.phase4 x).bqHigh ∧ (r.advance x).bqBand = (r.phase4 x).bqBand ∧
      (r.advance x).bqLow = (r.phase4 x).bqLow := by
  obtain ⟨-, -, -, -, -, -, h, -⟩ := r.advance_spec x
  exact h

theorem Regs.phase4_of_disabled {r : Regs} (h : r.bq.en = false) (x : Sample) : r.phase4 x = r := by
  rw [Regs.phase4, if_neg (by simp [h])]

theorem Regs.phase4_of_i16Shift {r : Regs} (h : r.bq.en = true) (hv : r.bq.variant = .i16Shift) (x : Sample) :
    r.phase4 x = r.biquad16 x := by
  rw [Regs.phase4, if_pos h, hv]

/-- A disabled biquad keeps its three registers (R111). -/
theorem Regs.advance_biquad_of_disabled {r : Regs} (h : r.bq.en = false) (x : Sample) :
    (r.advance x).bqHigh = r.bqHigh ∧ (r.advance x).bqBand = r.bqBand ∧ (r.advance x).bqLow = r.bqLow := by
  have ha := r.advance_biquad x
  rwa [Regs.phase4_of_disabled h] at ha

/-! ### The typing invariant -/

/-- What an `I16` stage holds after `STEP` is a 16-bit value, when it held one before (R27, R81). -/
theorem Regs.advance_readAcc_fits16 {r : Regs} (hv : r.cfgValid = true) (x : Sample) {c : Fin 6} {s : Fin 3}
    (hr : (r.readCh c).rep = .i16) (h : fits16 (r.readAcc c s)) : fits16 ((r.advance x).readAcc c s) := by
  obtain ⟨input, ha⟩ := r.advance_readAcc hv x c s
  rw [ha, hr, ema_i16]
  split
  · exact fits16_sext32 _
  · exact h

/-- The same of the biquad registers in variant `I16_SHIFT` (R27, R101). -/
theorem Regs.advance_biquad_fits16 {r : Regs} (x : Sample) (hv : r.bq.variant = .i16Shift)
    (h : fits16 r.bqLow ∧ fits16 r.bqBand ∧ fits16 r.bqHigh) :
    fits16 (r.advance x).bqLow ∧ fits16 (r.advance x).bqBand ∧ fits16 (r.advance x).bqHigh := by
  obtain ⟨eh, eb, el⟩ := r.advance_biquad x
  rw [eh, eb, el]
  by_cases he : r.bq.en = true
  · rw [Regs.phase4_of_i16Shift he hv]
    exact ⟨fits16_sext32 _, fits16_sext32 _, fits16_sext32 _⟩
  · rwa [Regs.phase4_of_disabled (by simpa using he)]

theorem Regs.typed_of_historyZero {r : Regs} (h : r.historyZero) : r.typed := by
  obtain ⟨ha, hl, hb, hh, -⟩ := h
  rw [Regs.typed, hl, hb, hh]
  exact fun _ => ⟨fun c s _ => by rw [ha]; exact fits16_zero, fun _ => ⟨fits16_zero, fits16_zero, fits16_zero⟩⟩

/-- An accepted `STEP` keeps the typing invariant (R27). -/
theorem Regs.typed_advance {r : Regs} (x : Sample) (hs : r.stale = false) (hv : r.cfgValid = true) (h : r.typed) :
    (r.advance x).setStepped.typed := by
  obtain ⟨hacc, hbq⟩ := h hs
  refine fun _ => ⟨fun c s hr => ?_, fun hvar => ?_⟩
  · rw [Regs.setStepped_readCh, Regs.advance_readCh] at hr
    rw [Regs.setStepped_readAcc]
    exact Regs.advance_readAcc_fits16 hv x hr (hacc c s hr)
  · rw [Regs.setStepped_bq, Regs.advance_bq] at hvar
    rw [Regs.setStepped_bqLow, Regs.setStepped_bqBand, Regs.setStepped_bqHigh]
    exact Regs.advance_biquad_fits16 x hvar (hbq hvar)

/-- Settles O56: an accepted `STEP` writes only `sext_32` of 16-bit results into registers of the 16-bit paths, and
every other step leaves them, zeroes them or makes them stale. -/
theorem stepKeepsTyping : Obligations.StepKeepsTyping := fun _ _ hi ht h =>
  step_keeps_of_select_of_advance Regs.typed (fun _ hz _ => Regs.typed_of_historyZero hz)
    (fun _ hs hf => absurd (hs.symm.trans hf) (by decide)) (fun _ _ hr => hr) (fun _ x => Regs.typed_advance x) hi ht h

end Sys2Proof.Machine
end

section
/-! SUPPORT. The id map by ranges, `id_enabled` and `cfg_valid` clause by clause (R21 to R23). -/

namespace Sys2Proof.Machine

/-! ### The id map -/

/-- A 5-bit value names a tap exactly when it is `3 * c + s` (R21). -/
theorem tapOfId_eq_some_iff {i : BitVec 5} {t : Tap} :
    tapOfId i = some t ↔ i.toNat = 3 * t.ch.val + t.stage.val := by
  obtain ⟨⟨c, hc⟩, ⟨s, hs⟩⟩ := t
  unfold tapOfId
  split
  · simp only [Option.some.injEq, Tap.mk.injEq, Fin.mk.injEq]
    omega
  · simp only [reduceCtorEq, false_iff]
    omega

theorem tapOfId_of_le {i : BitVec 5} (h : i.toNat ≤ 17) : ∃ t, tapOfId i = some t :=
  ⟨_, dif_pos (show i.toNat < 18 by omega)⟩

theorem filterOfId_of_tap {i : BitVec 5} {t : Tap} (h : tapOfId i = some t) : filterOfId i = .lp t := by
  rw [filterOfId, h]

/-- An id is its number, so the rows of the map above the taps are finitely many words (R31). -/
theorem filterOfId_of_toNat {i : BitVec 5} {n : Nat} (h : i.toNat = n) : filterOfId i = filterOfId (BitVec.ofNat 5 n) := by
  rw [← h, BitVec.ofNat_toNat, BitVec.setWidth_eq]

theorem filterOfId_hp (h : Fin 4) : filterOfId (BitVec.ofNat 5 (18 + h.val)) = .hp h := by
  revert h; decide

theorem filterOfId_bp (b : Fin 2) : filterOfId (BitVec.ofNat 5 (22 + b.val)) = .bp b := by
  revert b; decide

theorem filterOfId_br (b : Fin 2) : filterOfId (BitVec.ofNat 5 (24 + b.val)) = .br b := by
  revert b; decide

theorem filterOfId_biquad {i : BitVec 5} (h1 : 26 ≤ i.toNat) (h2 : i.toNat ≤ 28) :
    filterOfId i = .bqLow ∨ filterOfId i = .bqBand ∨ filterOfId i = .bqHigh := by
  revert i; decide

theorem filterOfId_reserved {i : BitVec 5} (h : 29 ≤ i.toNat) : filterOfId i = .reserved := by
  revert i; decide

/-! ### The predicates over taps and ids -/

theorem Regs.stageEnabled_iff (r : Regs) (c : Fin 6) (s : Fin 3) :
    r.stageEnabled c s = true ↔ (r.readCh c).en = true ∧ s.val + 1 ≤ (r.readCh c).order.toNat := by
  rw [Regs.stageEnabled, Bool.and_eq_true, decide_eq_true_eq]

theorem Regs.tapEnabled_of_tap (r : Regs) {i : BitVec 5} {t : Tap} (h : tapOfId i = some t) :
    r.tapEnabled i = r.stageEnabled t.ch t.stage := by
  rw [Regs.tapEnabled, h]

/-- An enabled tap is one that is there, with its stage enabled (R21). -/
theorem Regs.tapEnabled_iff (r : Regs) (i : BitVec 5) :
    r.tapEnabled i = true ↔ ∃ t, tapOfId i = some t ∧ r.stageEnabled t.ch t.stage = true := by
  unfold Regs.tapEnabled
  cases tapOfId i <;> simp

theorem Regs.idEnabled_of_le (r : Regs) {i : BitVec 5} (h : i.toNat ≤ 17) : r.idEnabled i = r.tapEnabled i := by
  obtain ⟨t, ht⟩ := tapOfId_of_le h
  rw [Regs.idEnabled, filterOfId_of_tap ht, r.tapEnabled_of_tap ht]

theorem Regs.idEnabled_biquad (r : Regs) {i : BitVec 5} (h1 : 26 ≤ i.toNat) (h2 : i.toNat ≤ 28) :
    r.idEnabled i = r.bq.en := by
  rcases filterOfId_biquad h1 h2 with e | e | e <;> rw [Regs.idEnabled, e]

/-- Settles O13, row by row of the id map. -/
theorem enabledByTheIdMap : Obligations.EnabledByTheIdMap := by
  intro r i
  refine ⟨?_, r.idEnabled_of_le, fun h hi => ?_, fun b hi => ?_, fun b hi => ?_, r.idEnabled_biquad, fun hi => ?_⟩
  · rw [r.tapEnabled_iff]
    constructor
    · rintro ⟨⟨c, s⟩, ht, he⟩
      exact ⟨c, s, tapOfId_eq_some_iff.1 ht, (r.stageEnabled_iff c s).1 he⟩
    · rintro ⟨c, s, hi, he⟩
      exact ⟨⟨c, s⟩, tapOfId_eq_some_iff.2 hi, (r.stageEnabled_iff c s).2 he⟩
  · rw [Regs.idEnabled, filterOfId_of_toNat hi, filterOfId_hp]
  · rw [Regs.idEnabled, filterOfId_of_toNat hi, filterOfId_bp]
  · rw [Regs.idEnabled, filterOfId_of_toNat hi, filterOfId_br]
  · rw [Regs.idEnabled, filterOfId_reserved hi]

/-! ### The clauses of `cfg_valid` -/

/-- A clause "if enabled, then" as the model writes it. -/
theorem not_or_eq_true_iff (a b : Bool) : (!a || b) = true ↔ (a = true → b = true) := by
  cases a <;> simp

/-- R23 clause 1. -/
theorem Regs.chValid_iff (r : Regs) (c : Fin 6) :
    r.chValid c = true ↔ ((r.readCh c).en = true →
      ((r.readCh c).order.toNat = 1 ∨ (r.readCh c).order.toNat = 2 ∨ (r.readCh c).order.toNat = 3) ∧
      ((r.readCh c).k.toNat = 1 ∨ (r.readCh c).k.toNat = 2 ∨ (r.readCh c).k.toNat = 3 ∨
        (r.readCh c).k.toNat = 4 ∨ (r.readCh c).k.toNat = 5 ∨ (r.readCh c).k.toNat = 8)) := by
  have ho : (r.readCh c).order ≠ 0#2 ↔
      ((r.readCh c).order.toNat = 1 ∨ (r.readCh c).order.toNat = 2 ∨ (r.readCh c).order.toNat = 3) := by
    generalize (r.readCh c).order = o
    revert o; decide
  simp only [Regs.chValid, not_or_eq_true_iff, Bool.and_eq_true, decide_eq_true_eq, ho, Config.legalK, List.mem_cons,
    List.not_mem_nil, or_false]

/-- R23 clause 2. -/
theorem Regs.hpValid_iff (r : Regs) (h : Fin 4) :
    r.hpValid h = true ↔ ((r.readHp h).en = true → r.tapEnabled (r.readHp h).src = true) :=
  not_or_eq_true_iff _ _

/-- The condition of R23 clause 3: two enabled taps of one class, the fast one with the smaller exponent. -/
theorem Regs.bandTapsValid_iff (r : Regs) (fast slow : BitVec 5) :
    r.bandTapsValid fast slow = true ↔ r.tapEnabled fast = true ∧ r.tapEnabled slow = true ∧
      ∀ f s : Tap, tapOfId fast = some f → tapOfId slow = some s → r.tapClass f = r.tapClass s ∧ r.tapK f < r.tapK s := by
  rw [Regs.bandTapsValid, Regs.tapEnabled, Regs.tapEnabled]
  cases tapOfId fast <;> cases tapOfId slow <;> simp [and_assoc]

/-- R23 clause 3. -/
theorem Regs.bpValid_iff (r : Regs) (b : Fin 2) :
    r.bpValid b = true ↔ ((r.readBp b).en = true →
      r.tapEnabled (r.readBp b).fast = true ∧ r.tapEnabled (r.readBp b).slow = true ∧
      ∀ f s : Tap, tapOfId (r.readBp b).fast = some f → tapOfId (r.readBp b).slow = some s →
        r.tapClass f = r.tapClass s ∧ r.tapK f < r.tapK s) := by
  rw [Regs.bpValid, not_or_eq_true_iff, Regs.bandTapsValid_iff]

/-- R23 clause 4. -/
theorem Regs.brValid_iff (r : Regs) (b : Fin 2) :
    r.brValid b = true ↔ ((r.readBp b).brEn = true → (r.readBp b).en = true) :=
  not_or_eq_true_iff _ _

/-- R23 clauses 5 and 6. -/
theorem Regs.bqValid_iff (r : Regs) :
    r.bqValid = true ↔
      (r.bq.en = true → r.bq.variant = .i16Shift → r.bq.alpha.toNat ≤ 15 ∧ r.bq.damp.toNat = 256) ∧
      (r.bq.en = true → r.bq.variant = .q8Mul → r.bq.alpha.toNat ≤ 256 ∧ r.bq.damp.toNat ≤ 256) := by
  rw [Regs.bqValid, not_or_eq_true_iff, Config.shiftMax, Config.coefOne]
  cases r.bq.variant <;> simp

/-- `cfg_valid` is its clauses over all units (R23). -/
theorem Regs.cfgValid_iff (r : Regs) :
    r.cfgValid = true ↔ (∀ c, r.chValid c = true) ∧ (∀ h, r.hpValid h = true) ∧ (∀ b, r.bpValid b = true) ∧
      (∀ b, r.brValid b = true) ∧ r.bqValid = true := by
  simp only [Regs.cfgValid, Bool.and_eq_true, decide_eq_true_eq, and_assoc]

/-- Settles O14, clause by clause. -/
theorem cfgValidIsTheSixClauses : Obligations.CfgValidIsTheSixClauses := by
  refine ⟨by decide, fun r => ?_⟩
  simp only [r.cfgValid_iff, r.chValid_iff, r.hpValid_iff, r.bpValid_iff, r.brValid_iff, r.bqValid_iff]

end Sys2Proof.Machine
end

section
/-! SUPPORT. What an accepted `STEP` leaves, and which command may write which register (R24, R111). -/

namespace Sys2Proof.Machine

/-! ### The frame of `STEP` -/

theorem Regs.advance_readHpout_of_disabled {r : Regs} (x : Sample) {h : Fin 4} (he : (r.readHp h).en = false) :
    (r.advance x).readHpout h = r.readHpout h := by
  rw [Regs.advance_readHpout, if_neg (by simp [he])]

theorem Regs.advance_readBpout_of_disabled {r : Regs} (x : Sample) {b : Fin 2} (he : (r.readBp b).en = false) :
    (r.advance x).readBpout b = r.readBpout b := by
  rw [Regs.advance_readBpout, if_neg (by simp [he])]

theorem Regs.advance_readBrout_of_disabled {r : Regs} (x : Sample) {b : Fin 2} (he : (r.readBp b).brEn = false) :
    (r.advance x).readBrout b = r.readBrout b := by
  rw [Regs.advance_readBrout, if_neg (by simp [he])]

theorem Regs.advance_sameConfig (r : Regs) (x : Sample) : sameConfig (r.advance x).setStepped r := by
  simp [sameConfig]

/-- Settles O19, from the frame of each phase. -/
theorem stepFrame : Obligations.StepFrame := by
  intro x s hs hv
  refine ⟨_, execStep_of_valid x hs hv, s.regs.advance_sameConfig x, rfl, by simpa using hs, rfl,
    fun c g he => ?_, fun h he => ?_, fun b he => ?_, fun b he => ?_, fun he => ?_⟩
  · simpa using Regs.advance_readAcc_of_disabled hv x he
  · simpa using Regs.advance_readHpout_of_disabled x he
  · simpa using Regs.advance_readBpout_of_disabled x he
  · simpa using Regs.advance_readBrout_of_disabled x he
  · simpa using Regs.advance_biquad_of_disabled he x

/-! ### Write rights -/

section
variable {i : Instr} {r q : Regs} {p : Response}

/-- A part of the history that `STEP` leaves alone while `enabled` is false is written only by `RESET`, or by `STEP` with
`enabled` true (R24). -/
theorem Effect.history_write (h : Effect i r q p) {α : Type} (view : Regs → α) (enabled : Bool)
    (hview : ∀ u : Regs, view u = view u.historyOnly)
    (hkeep : ∀ x, r.cfgValid = true → enabled = false → view (r.advance x) = view r)
    (hne : view q ≠ view r) : i = .reset ∨ ∃ x, i = .step x ∧ enabled = true := by
  have hcongr : ∀ {u v : Regs}, u.historyOnly = v.historyOnly → view u = view v := fun {u v} e => by
    rw [hview u, e, ← hview v]
  rcases h.kinds with rfl | ⟨x, hi, -, hv, rfl⟩ | ⟨hi, -⟩ | ⟨m, -, rfl⟩ | ⟨-, u, rfl, hu⟩
  · exact absurd rfl hne
  · cases enabled
    · exact absurd ((hcongr (Regs.setStepped_historyOnly _)).trans (hkeep x hv rfl)) hne
    · exact .inr ⟨x, hi, rfl⟩
  · exact .inl hi
  · exact absurd (hcongr (r.writeSel_historyOnly m)) hne
  · exact absurd (hcongr (u.markStale_historyOnly.trans (Regs.historyOnly_of_besideConfig hu))) hne

/-- `STEPPED` is set by `STEP` and cleared by `RESET` (R15, R24). -/
theorem Effect.stepped_write (h : Effect i r q p) (hne : q.stepped ≠ r.stepped) :
    (i = .reset ∧ q.stepped = false) ∨ ∃ x, i = .step x ∧ q.stepped = true := by
  rcases h.kinds with rfl | ⟨x, hi, -, -, rfl⟩ | ⟨hi, rfl⟩ | ⟨m, -, rfl⟩ | ⟨-, u, rfl, hu⟩
  · exact absurd rfl hne
  · exact .inr ⟨x, hi, rfl⟩
  · exact .inl ⟨hi, rfl⟩
  · exact absurd rfl hne
  · exact absurd (Regs.stepped_of_besideConfig hu) hne

/-- `STALE` is set by a configuration command with `STEPPED` = 1 and cleared by `RESET` (R15, R24, R116). -/
theorem Effect.stale_write (h : Effect i r q p) (hne : q.stale ≠ r.stale) :
    (i = .reset ∧ q.stale = false) ∨ (i.isConfig = true ∧ r.stepped = true ∧ q.stale = true) := by
  rcases h.kinds with rfl | ⟨x, -, -, -, rfl⟩ | ⟨hi, rfl⟩ | ⟨m, -, rfl⟩ | ⟨hi, u, rfl, hu⟩
  · exact absurd rfl hne
  · exact absurd (by simp) hne
  · exact .inl ⟨hi, rfl⟩
  · exact absurd rfl hne
  · rw [Regs.markStale_stale, Regs.stale_of_besideConfig hu, Regs.stepped_of_besideConfig hu] at hne ⊢
    have hst : r.stepped = true := by
      by_contra hf
      exact hne (by rw [Bool.not_eq_true] at hf; rw [hf, Bool.or_false])
    exact .inr ⟨hi, hst, by rw [hst, Bool.or_true]⟩

/-- `SEL` is written by `SELECT` (R24). -/
theorem Effect.sel_write (h : Effect i r q p) (hne : q.sel ≠ r.sel) : ∃ m, i = .select m := by
  rcases h.kinds with rfl | ⟨x, -, -, -, rfl⟩ | ⟨-, rfl⟩ | ⟨m, hi, -⟩ | ⟨-, u, rfl, hu⟩
  · exact absurd rfl hne
  · exact absurd (by simp) hne
  · exact absurd rfl hne
  · exact ⟨m, hi⟩
  · exact absurd (Regs.sel_of_besideConfig hu) hne

/-- `CH[c]` is written by a `CFGCH` that names it (R24). -/
theorem Effect.readCh_write (h : Effect i r q p) {c : Fin 6} (hne : q.readCh c ≠ r.readCh c) :
    ∃ n en rep order k, i = .cfgch n en rep order k ∧ n.toNat = c.val := by
  cases h with
  | cfgch n hn en rep order k =>
    refine ⟨n, en, rep, order, k, rfl, by_contra fun hc => hne ?_⟩
    rw [Regs.markStale_readCh, Regs.readCh_writeCh, if_neg fun e => hc (congrArg Fin.val e).symm]
  | _ => exact absurd (by simp) hne

/-- `HP[h]` is written by a `CFGHP` that names it (R24). -/
theorem Effect.readHp_write (h : Effect i r q p) {c : Fin 4} (hne : q.readHp c ≠ r.readHp c) :
    ∃ n en src, i = .cfghp n en src ∧ n.toNat = c.val := by
  cases h with
  | cfghp n en src =>
    refine ⟨n, en, src, rfl, by_contra fun hc => hne ?_⟩
    rw [Regs.markStale_readHp, Regs.readHp_writeHp, if_neg fun e => hc (congrArg Fin.val e).symm]
  | _ => exact absurd (by simp) hne

/-- `BP[b]` is written by a `CFGBP` that names it (R24). -/
theorem Effect.readBp_write (h : Effect i r q p) {b : Fin 2} (hne : q.readBp b ≠ r.readBp b) :
    ∃ n en brEn fast slow, i = .cfgbp n en brEn fast slow ∧ n.toNat = b.val := by
  cases h with
  | cfgbp n en brEn fast slow =>
    refine ⟨n, en, brEn, fast, slow, rfl, by_contra fun hc => hne ?_⟩
    rw [Regs.markStale_readBp, Regs.readBp_writeBp, if_neg fun e => hc (congrArg Fin.val e).symm]
  | _ => exact absurd (by simp) hne

/-- `BQ` is written by `CFGBQ` (R24). -/
theorem Effect.bq_write (h : Effect i r q p) (hne : q.bq ≠ r.bq) : ∃ en v a d, i = .cfgbq en v a d := by
  cases h with
  | cfgbq en v a d => exact ⟨en, v, a, d, rfl⟩
  | _ => exact absurd (by simp) hne

end

/-- The three biquad registers, as one part of the history. -/
def Regs.biquadRegs (r : Regs) : Word × Word × Word := (r.bqHigh, r.bqBand, r.bqLow)

theorem Regs.advance_biquadRegs_of_disabled {r : Regs} (h : r.bq.en = false) (x : Sample) :
    (r.advance x).biquadRegs = r.biquadRegs := by
  obtain ⟨eh, eb, el⟩ := Regs.advance_biquad_of_disabled h x
  rw [Regs.biquadRegs, eh, eb, el, Regs.biquadRegs]

/-- Settles O48, register by register over the effects of a command. -/
theorem writeRights : Obligations.WriteRights := by
  intro i s t h
  obtain ⟨p, hp, -, he⟩ := exec_next h
  refine ⟨fun p' hp' hs => ?_, fun c g => ?_, fun c => ?_, fun b => ?_, fun b => ?_, fun hne => ?_, he.stepped_write,
    he.stale_write, fun _ => he.readCh_write, fun _ => he.readHp_write, fun _ => he.readBp_write, he.bq_write,
    he.sel_write⟩
  · obtain rfl : p = p' := Option.some.inj (hp.symm.trans hp')
    exact (he.refused hs).1
  · exact he.history_write (fun u => u.readAcc c g) _ (fun _ => rfl)
      fun x hv hd => Regs.advance_readAcc_of_disabled hv x hd
  · exact he.history_write (fun u => u.readHpout c) _ (fun _ => rfl)
      fun x _ hd => Regs.advance_readHpout_of_disabled x hd
  · exact he.history_write (fun u => u.readBpout b) _ (fun _ => rfl)
      fun x _ hd => Regs.advance_readBpout_of_disabled x hd
  · exact he.history_write (fun u => u.readBrout b) _ (fun _ => rfl)
      fun x _ hd => Regs.advance_readBrout_of_disabled x hd
  · refine he.history_write Regs.biquadRegs _ (fun _ => rfl)
      (fun x _ hd => Regs.advance_biquadRegs_of_disabled hd x) fun e => ?_
    obtain ⟨eh, eb, el⟩ : t.regs.bqHigh = s.regs.bqHigh ∧ t.regs.bqBand = s.regs.bqBand ∧ t.regs.bqLow = s.regs.bqLow := by
      simpa only [Regs.biquadRegs, Prod.mk.injEq] using e
    exact hne.elim (· el) fun h => h.elim (· eb) (· eh)

end Sys2Proof.Machine
end

section
/-! SUPPORT. Two runs of one command list: the registers alone decide every response, `SEL` decides only `GETSEL`'s, and
after `RESET` the history decides none (R20, R26). -/

namespace Sys2Proof.Machine

/-! ### A command's result is a function of the registers -/

/-- The effects are exactly what `exec` does: the registers determine the effect (R123). -/
theorem Effect.exec_eq {i : Instr} {r : Regs} {p : Response} {s : State} (h : Effect i s.regs r p) :
    exec i s = .next { s with regs := r, rsp := some p } := by
  cases h with
  | stepStale x _ hs => exact execStep_of_stale x hs
  | stepInvalid x _ hs hv => exact execStep_of_invalid x hs hv
  | step x _ hs hv => exact execStep_of_valid x hs hv
  | getvalStale id _ hs => exact execGetval_of_stale id hs
  | getvalNotReady id _ hs ht => exact execGetval_of_notReady id hs ht
  | getvalDisabled id _ hs ht he => exact execGetval_of_disabled id hs ht he
  | getval id _ hs ht he => exact execGetval_of_enabled id hs ht he
  | cfgchIllegal c h en rep order k => exact execCfgch_of_ge h en rep order k s
  | cfgch c h en rep order k => exact execCfgch_of_lt h en rep order k s
  | _ => rfl

/-- One word does the same to the registers of two states with the same registers, and answers the same. -/
theorem runWord_of_regs_eq (w : CmdWord) {s t : State} (h : s.regs = t.regs) :
    ∃ r p, runWord w s = .next { s with regs := r, rsp := some p } ∧
      runWord w t = .next { t with regs := r, rsp := some p } := by
  cases hd : decode w with
  | error e => exact ⟨_, _, runWord_of_error hd s, by rw [runWord_of_error hd t, h]⟩
  | ok i =>
    obtain ⟨r, p, he, hr⟩ := exec_spec i s
    exact ⟨r, p, by rw [runWord_of_ok hd, he], by rw [runWord_of_ok hd, Effect.exec_eq (h ▸ hr)]⟩

/-- A run's responses are a function of the registers it starts from (R122). -/
theorem responses_of_regs_eq (ws : List CmdWord) {s t : State} (h : s.regs = t.regs) :
    responses ws s = responses ws t := by
  induction ws generalizing s t with
  | nil => rfl
  | cons w ws ih =>
    obtain ⟨r, p, hs, ht⟩ := runWord_of_regs_eq w h
    rw [responses_cons _ _ _ _ hs, responses_cons _ _ _ _ ht]
    exact congrArg _ (ih rfl)

theorem runWord_encode_reset (s : State) :
    runWord (encode .reset) s = .next { s with regs := s.regs.zeroHistory.clearFlags, rsp := some ⟨.ok, 0#32⟩ } :=
  (runWord_of_ok (i := .reset) rfl s).trans rfl

/-- `RESET` leaves of the registers only configuration and mask (R26, R112). -/
theorem Regs.reset_eq_of_sameConfig {r q : Regs} (h : sameConfig r q) :
    r.zeroHistory.clearFlags = q.zeroHistory.clearFlags := by
  obtain ⟨hch, hhp, hbp, hbq, hsel⟩ := h
  rw [Regs.zeroHistory, Regs.zeroHistory, Regs.clearFlags, Regs.clearFlags, hch, hhp, hbp, hbq, hsel]

/-- Settles O50: after `RESET` the two register files are equal, and the registers decide the responses. -/
theorem resetReproducesTheRun : Obligations.ResetReproducesTheRun := by
  intro ws s t h
  rw [responses_cons _ _ _ _ (runWord_encode_reset s), responses_cons _ _ _ _ (runWord_encode_reset t)]
  exact congrArg _ (responses_of_regs_eq ws (Regs.reset_eq_of_sameConfig h))

/-! ### The selection mask -/

theorem sameButSel_iff (r q : Regs) : sameButSel r q ↔ ∃ m, r = q.writeSel m :=
  ⟨fun h => ⟨r.sel, h⟩, fun ⟨m, h⟩ => by rw [h]; rfl⟩

/-- With another mask a command has the same effect but for the mask, and the same response unless it is `GETSEL`
(R20). -/
theorem Effect.writeSel {i : Instr} {r q : Regs} {p : Response} (h : Effect i r q p) (m : BitVec 29) :
    ∃ m' p', Effect i (r.writeSel m) (q.writeSel m') p' ∧ (i ≠ .getsel → p' = p) := by
  cases h with
  | stepStale x _ hs => exact ⟨m, _, .stepStale x _ hs, fun _ => rfl⟩
  | stepInvalid x _ hs hv => exact ⟨m, _, .stepInvalid x _ hs hv, fun _ => rfl⟩
  | step x _ hs hv =>
    have e : ((r.writeSel m).advance x).setStepped = (r.advance x).setStepped.writeSel m := by
      rw [Regs.advance_writeSel]; rfl
    refine ⟨m, ⟨.ok, 0#32⟩, ?_, fun _ => rfl⟩
    rw [← e]
    exact .step x _ hs hv
  | reset => exact ⟨m, _, .reset _, fun _ => rfl⟩
  | select m₀ => exact ⟨m₀, _, .select m₀ _, fun _ => rfl⟩
  | getvalStale id _ hs => exact ⟨m, _, .getvalStale id _ hs, fun _ => rfl⟩
  | getvalNotReady id _ hs ht => exact ⟨m, _, .getvalNotReady id _ hs ht, fun _ => rfl⟩
  | getvalDisabled id _ hs ht he => exact ⟨m, _, .getvalDisabled id _ hs ht he, fun _ => rfl⟩
  | getval id _ hs ht he => exact ⟨m, _, .getval id _ hs ht he, fun _ => rfl⟩
  | getsel => exact ⟨m, _, .getsel _, fun h => absurd rfl h⟩
  | cfgchIllegal c h en rep order k => exact ⟨m, _, .cfgchIllegal c h en rep order k _, fun _ => rfl⟩
  | cfgch c h en rep order k => exact ⟨m, _, .cfgch c h en rep order k _, fun _ => rfl⟩
  | cfghp h en src => exact ⟨m, _, .cfghp h en src _, fun _ => rfl⟩
  | cfgbp b en brEn fast slow => exact ⟨m, _, .cfgbp b en brEn fast slow _, fun _ => rfl⟩
  | cfgbq en v a d => exact ⟨m, _, .cfgbq en v a d _, fun _ => rfl⟩

/-- One word on two states that differ at most in `SEL` (and in the ports): so do the states after it, and the responses
are the same unless the word is a `GETSEL`. -/
theorem runWord_of_sameButSel (w : CmdWord) {s t : State} (h : sameButSel s.regs t.regs) :
    ∃ r q p p', runWord w s = .next { s with regs := r, rsp := some p } ∧
      runWord w t = .next { t with regs := q, rsp := some p' } ∧ sameButSel r q ∧ (decode w ≠ .ok .getsel → p = p') := by
  cases hd : decode w with
  | error e => exact ⟨_, _, _, _, runWord_of_error hd s, runWord_of_error hd t, h, fun _ => rfl⟩
  | ok i =>
    obtain ⟨m, hm⟩ := (sameButSel_iff _ _).1 h
    obtain ⟨q, p, hq, he⟩ := exec_spec i t
    obtain ⟨m', p', he', hp⟩ := he.writeSel m
    refine ⟨q.writeSel m', q, p', p, ?_, by rw [runWord_of_ok hd, hq], (sameButSel_iff _ _).2 ⟨m', rfl⟩,
      fun hw => hp fun e => hw (by rw [e])⟩
    rw [runWord_of_ok hd]
    exact Effect.exec_eq (hm ▸ he')

/-- Settles O49, by induction on the list: `SEL` reaches no register but itself and no response but `GETSEL`'s. -/
theorem selectionMaskIsAdvisory : Obligations.SelectionMaskIsAdvisory := by
  intro ws
  induction ws with
  | nil => intro s t _ n w hw; simp at hw
  | cons v ws ih =>
    intro s t h n w hw hne
    obtain ⟨r, q, p, p', hs, ht, hrq, hp⟩ := runWord_of_sameButSel v h
    rw [responses_cons _ _ _ _ hs, responses_cons _ _ _ _ ht]
    cases n with
    | zero =>
      obtain rfl : v = w := by simpa using hw
      exact ⟨p, rfl, by rw [hp hne]; rfl⟩
    | succ n => exact ih _ _ hrq n w (by simpa using hw) hne

end Sys2Proof.Machine
end

section
/-! SUPPORT. A zeroed history meets every invariant of the steps, and so does the power-on state (R25). -/

namespace Sys2Proof.Machine

theorem Regs.idleZero_of_historyZero {r : Regs} (h : r.historyZero) : r.idleZero := by
  obtain ⟨ha, hl, hb, hh, hhp, hbp, hbr⟩ := h
  exact fun _ => ⟨fun c s _ => ha c s, fun c _ => hhp c, fun b _ => hbp b, fun b _ => hbr b, fun _ => ⟨hl, hb, hh⟩⟩

theorem Regs.q8InRange_of_historyZero {r : Regs} (h : r.historyZero) : r.q8InRange := by
  obtain ⟨ha, -⟩ := h
  intro _ c s _
  rw [ha c s]
  decide

theorem f32Units_zero : f32Units 0#32 = some 0 := by decide

theorem f32Finite_zero : f32Finite 0#32 := ⟨0, f32Units_zero⟩

theorem f32Within_zero : f32Within (-32768) 32767 0#32 := ⟨0, f32Units_zero, by decide, by decide⟩

theorem Regs.floatsFinite_of_historyZero {r : Regs} (h : r.historyZero) : r.floatsFinite := by
  obtain ⟨ha, -, -, -, hhp, hbp, hbr⟩ := h
  refine fun _ => ⟨fun c s _ => ?_, fun c t _ _ => ?_, fun b t _ _ => ?_⟩
  · rw [ha c s]; exact f32Within_zero
  · rw [hhp c]; exact f32Finite_zero
  · rw [hbp b, hbr b]; exact ⟨f32Finite_zero, f32Finite_zero⟩

/-- Settles O54: the history is zero, and that meets every invariant. -/
theorem powerOnMeetsTheInvariants : Obligations.PowerOnMeetsTheInvariants :=
  have hz : State.reset.regs.historyZero := Regs.powerOn_historyZero
  ⟨Regs.powerOn_historyInv, Regs.typed_of_historyZero hz, Regs.idleZero_of_historyZero hz,
    fun _ h => absurd h Bool.false_ne_true, Regs.q8InRange_of_historyZero hz, Regs.floatsFinite_of_historyZero hz⟩

end Sys2Proof.Machine
end

section
/-! SUPPORT. The encoding as arithmetic: a command's opcode and argument as numbers, the words a format decodes, and from
it both round trips (R42 to R53). -/

namespace Sys2Proof

/-- The opcode of a command (R43). -/
def Instr.opcode : Instr → Nat
  | .step _ => 0x1
  | .reset => 0x2
  | .select _ => 0x3
  | .getval _ => 0x4
  | .getsel => 0x5
  | .cfgch _ _ _ _ _ => 0x8
  | .cfghp _ _ _ => 0x9
  | .cfgbp _ _ _ _ _ => 0xA
  | .cfgbq _ _ _ _ => 0xB

/-- The argument of a command as a number: each field at its place in the format (R44 to R51). -/
def Instr.argument : Instr → Nat
  | .step x => x.toNat
  | .reset => 0
  | .select mask => mask.toNat
  | .getval id => id.toNat
  | .getsel => 0
  | .cfgch c en rep order k =>
    c.toNat + 2 ^ 3 * en.toNat + 2 ^ 4 * rep.toBits.toNat + 2 ^ 6 * order.toNat + 2 ^ 8 * k.toNat
  | .cfghp h en src => h.toNat + 2 ^ 2 * en.toNat + 2 ^ 3 * src.toNat
  | .cfgbp b en brEn fast slow =>
    b.toNat + 2 ^ 1 * en.toNat + 2 ^ 2 * brEn.toNat + 2 ^ 3 * fast.toNat + 2 ^ 8 * slow.toNat
  | .cfgbq en variant alpha damp =>
    alpha.toNat + 2 ^ 12 * damp.toNat + 2 ^ 24 * variant.toBit.toNat + 2 ^ 25 * en.toNat

/-! ### The word of a command -/

theorem Instr.argument_lt (i : Instr) : i.argument < 2 ^ 32 := by
  cases i with
  | cfgch c en rep order k => have := en.toNat_lt; simp only [argument]; omega
  | cfghp h en src => have := en.toNat_lt; simp only [argument]; omega
  | cfgbp b en brEn fast slow => have := en.toNat_lt; have := brEn.toNat_lt; simp only [argument]; omega
  | cfgbq en variant alpha damp => have := en.toNat_lt; have := variant.toBit.toNat_lt; simp only [argument]; omega
  | _ => simp only [argument]; omega

theorem toNat_encode (i : Instr) : (encode i).toNat = i.opcode * 2 ^ 32 + i.argument := by
  cases i <;>
    simp only [encode, toNat_append_add, toNat_ofBool, Instr.opcode, Instr.argument, BitVec.toNat_ofNat] <;>
    omega

theorem opOf_argOf_encode (i : Instr) : (opOf (encode i)).toNat = i.opcode ∧ (argOf (encode i)).toNat = i.argument := by
  have := toNat_eq_op_arg (encode i)
  have := i.argument_lt
  rw [toNat_encode] at *
  omega

/-- A word is a command's word when opcode and argument are the command's (R42). -/
theorem encode_eq_iff (i : Instr) (w : CmdWord) :
    encode i = w ↔ (opOf w).toNat = i.opcode ∧ (argOf w).toNat = i.argument := by
  refine ⟨fun h => h ▸ opOf_argOf_encode i, fun ⟨ho, ha⟩ => ?_⟩
  rw [BitVec.toNat_eq, toNat_encode, toNat_eq_op_arg w, ho, ha]

/-! ### Fields read from an argument -/

theorem extractLsb'_eq_iff {m l : Nat} (a : BitVec m) (n : Nat) (f : BitVec l) :
    a.extractLsb' n l = f ↔ a.toNat / 2 ^ n % 2 ^ l = f.toNat := by
  rw [BitVec.toNat_eq, toNat_extract]

theorem extractLsb'_eq_zero_iff {m l : Nat} (a : BitVec m) (n : Nat) :
    a.extractLsb' n l = 0 ↔ a.toNat / 2 ^ n % 2 ^ l = 0 :=
  extractLsb'_eq_iff a n 0

theorem getLsbD_eq_iff {m : Nat} (a : BitVec m) (n : Nat) (b : Bool) :
    a.getLsbD n = b ↔ a.toNat / 2 ^ n % 2 = b.toNat := by
  rw [getLsbD_eq_div]
  cases b <;> simp

theorem Rep.ofBits_eq_iff (b : BitVec 2) (r : Rep) : Rep.ofBits b = r ↔ b = r.toBits :=
  ⟨fun h => h ▸ (Rep.toBits_ofBits b).symm, fun h => h ▸ Rep.ofBits_toBits r⟩

theorem Variant.ofBit_eq_iff (b : Bool) (v : Variant) : Variant.ofBit b = v ↔ b = v.toBit :=
  ⟨fun h => h ▸ (Variant.toBit_ofBit b).symm, fun h => h ▸ Variant.ofBit_toBit v⟩

theorem ifReservedZero_eq_ok_iff {n : Nat} {rest : BitVec n} {i j : Instr} :
    ifReservedZero rest i = .ok j ↔ rest = 0 ∧ i = j :=
  ⟨ifReservedZero_eq_ok, fun ⟨h, e⟩ => e ▸ ifReservedZero_of_eq h i⟩

/-! ### What each format decodes -/

/-- The command `i` is well formed, and its word has the opcode `n` and the argument `a` (`encode_eq_iff`). -/
def HasWord (n : Nat) (a : BitVec 32) (i : Instr) : Prop :=
  n = i.opcode ∧ i.wellFormed = true ∧ a.toNat = i.argument

section
variable {a : BitVec 32} {i : Instr}

theorem decodeStep_eq_ok_iff : decodeStep a = .ok i ↔ HasWord 0x1 a i := by
  rw [decodeStep, ifReservedZero_eq_ok_iff, extractLsb'_eq_zero_iff, HasWord]
  cases i with
  | step x =>
    simp only [Instr.opcode, Instr.wellFormed, Instr.argument, Instr.step.injEq, extractLsb'_eq_iff, true_and]
    omega
  | _ => simp [Instr.opcode]

theorem decodeReset_eq_ok_iff : decodeReset a = .ok i ↔ HasWord 0x2 a i := by
  rw [decodeReset, ifReservedZero_eq_ok_iff, BitVec.toNat_eq, HasWord]
  cases i with
  | reset => simp [Instr.opcode, Instr.wellFormed, Instr.argument]
  | _ => simp [Instr.opcode]

theorem decodeSelect_eq_ok_iff : decodeSelect a = .ok i ↔ HasWord 0x3 a i := by
  rw [decodeSelect, ifReservedZero_eq_ok_iff, extractLsb'_eq_zero_iff, HasWord]
  cases i with
  | select mask =>
    simp only [Instr.opcode, Instr.wellFormed, Instr.argument, Instr.select.injEq, extractLsb'_eq_iff, true_and]
    omega
  | _ => simp [Instr.opcode]

theorem decodeGetval_eq_ok_iff : decodeGetval a = .ok i ↔ HasWord 0x4 a i := by
  rw [decodeGetval, ifReservedZero_eq_ok_iff, extractLsb'_eq_zero_iff, HasWord]
  cases i with
  | getval id =>
    simp only [Instr.opcode, Instr.wellFormed, Instr.argument, Instr.getval.injEq, extractLsb'_eq_iff, true_and]
    omega
  | _ => simp [Instr.opcode]

theorem decodeGetsel_eq_ok_iff : decodeGetsel a = .ok i ↔ HasWord 0x5 a i := by
  rw [decodeGetsel, ifReservedZero_eq_ok_iff, BitVec.toNat_eq, HasWord]
  cases i with
  | getsel => simp [Instr.opcode, Instr.wellFormed, Instr.argument]
  | _ => simp [Instr.opcode]

theorem decodeCfgch_eq_ok_iff : decodeCfgch a = .ok i ↔ HasWord 0x8 a i := by
  have hok : decodeCfgch a = .ok i ↔ a.extractLsb' 12 20 = 0 ∧ (a.extractLsb' 0 3).toNat < 6 ∧
      .cfgch (a.extractLsb' 0 3) (a.getLsbD 3) (Rep.ofBits (a.extractLsb' 4 2)) (a.extractLsb' 6 2)
        (a.extractLsb' 8 4) = i := by
    rw [decodeCfgch]
    split
    next hr =>
      split
      next hc => simp only [hr, hc, true_and, Except.ok.injEq]
      next hc => simp only [hc, false_and, and_false, reduceCtorEq]
    next hr => simp only [hr, false_and, reduceCtorEq]
  rw [hok, extractLsb'_eq_zero_iff, HasWord]
  cases i with
  | cfgch c en rep order k =>
    have := en.toNat_lt
    simp only [Instr.opcode, Instr.wellFormed, Instr.argument, Instr.cfgch.injEq, extractLsb'_eq_iff, toNat_extract,
      getLsbD_eq_iff, Rep.ofBits_eq_iff, decide_eq_true_eq, true_and]
    omega
  | _ => simp [Instr.opcode]

theorem decodeCfghp_eq_ok_iff : decodeCfghp a = .ok i ↔ HasWord 0x9 a i := by
  rw [decodeCfghp, ifReservedZero_eq_ok_iff, extractLsb'_eq_zero_iff, HasWord]
  cases i with
  | cfghp h en src =>
    have := en.toNat_lt
    simp only [Instr.opcode, Instr.wellFormed, Instr.argument, Instr.cfghp.injEq, extractLsb'_eq_iff, getLsbD_eq_iff,
      true_and]
    omega
  | _ => simp [Instr.opcode]

theorem decodeCfgbp_eq_ok_iff : decodeCfgbp a = .ok i ↔ HasWord 0xA a i := by
  rw [decodeCfgbp, ifReservedZero_eq_ok_iff, extractLsb'_eq_zero_iff, HasWord]
  cases i with
  | cfgbp b en brEn fast slow =>
    have := en.toNat_lt
    have := brEn.toNat_lt
    simp only [Instr.opcode, Instr.wellFormed, Instr.argument, Instr.cfgbp.injEq, extractLsb'_eq_iff, getLsbD_eq_iff,
      true_and]
    omega
  | _ => simp [Instr.opcode]

theorem decodeCfgbq_eq_ok_iff : decodeCfgbq a = .ok i ↔ HasWord 0xB a i := by
  rw [decodeCfgbq, ifReservedZero_eq_ok_iff, extractLsb'_eq_zero_iff, HasWord]
  cases i with
  | cfgbq en variant alpha damp =>
    have := en.toNat_lt
    have := variant.toBit.toNat_lt
    simp only [Instr.opcode, Instr.wellFormed, Instr.argument, Instr.cfgbq.injEq, extractLsb'_eq_iff, getLsbD_eq_iff,
      Variant.ofBit_eq_iff, true_and]
    omega
  | _ => simp [Instr.opcode]

end

/-! ### The round trips -/

theorem decode_eq_ok_iff_hasWord (w : CmdWord) (i : Instr) : decode w = .ok i ↔ HasWord (opOf w).toNat (argOf w) i := by
  unfold decode
  split
  next h => rw [h]; exact decodeStep_eq_ok_iff
  next h => rw [h]; exact decodeReset_eq_ok_iff
  next h => rw [h]; exact decodeSelect_eq_ok_iff
  next h => rw [h]; exact decodeGetval_eq_ok_iff
  next h => rw [h]; exact decodeGetsel_eq_ok_iff
  next h => rw [h]; exact decodeCfgch_eq_ok_iff
  next h => rw [h]; exact decodeCfghp_eq_ok_iff
  next h => rw [h]; exact decodeCfgbp_eq_ok_iff
  next h => rw [h]; exact decodeCfgbq_eq_ok_iff
  next =>
    refine ⟨nofun, fun ⟨h, _⟩ => ?_⟩
    cases i <;> contradiction

/-- The words that decode are exactly the words of well-formed commands, each the word of one (R53). -/
theorem decode_eq_ok_iff (w : CmdWord) (i : Instr) : decode w = .ok i ↔ encode i = w ∧ i.wellFormed = true := by
  rw [decode_eq_ok_iff_hasWord, encode_eq_iff, HasWord, and_assoc, and_comm (a := i.wellFormed = true)]

/-- Settles O2, by the words that decode. -/
theorem decodeInvertsEncode : Obligations.DecodeInvertsEncode :=
  fun i h => (decode_eq_ok_iff (encode i) i).2 ⟨rfl, h⟩

/-- Settles O3, by the words that decode. -/
theorem encodeInvertsDecode : Obligations.EncodeInvertsDecode :=
  fun w i => (decode_eq_ok_iff w i).1

/-- Settles O1: each word is the encoding of its command. -/
theorem specWordsDecodeToTheirCommands : Obligations.SpecWordsDecodeToTheirCommands := by
  simp only [Obligations.SpecWordsDecodeToTheirCommands, decode_eq_ok_iff]
  decide

end Sys2Proof
end

section
/-! SUPPORT. The words that decode are those of the opcode table's rows, and the others are the illegal ones (R43, R53):
a word that is not illegal decodes, a word that decodes is in its command's row, and a word of a row is not illegal. -/

namespace Sys2Proof.Machine

/-! ### A word that is not illegal decodes -/

theorem extractLsb'_eq_zero_of_and {m l : Nat} {w mask : BitVec m} (n : Nat) (h : w &&& mask = 0)
    (hm : mask.extractLsb' n l = BitVec.allOnes l) : w.extractLsb' n l = 0 := by
  rw [← BitVec.and_allOnes (x := w.extractLsb' n l), ← hm, ← BitVec.extractLsb'_and, h]
  exact BitVec.extractLsb'_zero

/-- Reserved bits that are 0 in the word are 0 in its argument (R42). -/
theorem argOf_reserved_eq_zero {w : CmdWord} {op : BitVec 4} {n l : Nat} (hw : w &&& reservedMask (opOf w) = 0)
    (ho : (opOf w).toNat = op.toNat) (hm : (reservedMask op).extractLsb' n l = BitVec.allOnes l) (h : n + l ≤ 32) :
    (argOf w).extractLsb' n l = 0 := by
  rw [argOf, BitVec.extractLsb'_extractLsb'_of_le h]
  exact extractLsb'_eq_zero_of_and n (BitVec.eq_of_toNat_eq ho ▸ hw) hm

theorem assigned_of_notMem_unassignedOps :
    ∀ op : BitVec 4, op ∉ unassignedOps → op.toNat ∈ [0x1, 0x2, 0x3, 0x4, 0x5, 0x8, 0x9, 0xA, 0xB] := by decide

theorem exists_decode_of_not_illegalWord {w : CmdWord} (h : ¬ illegalWord w) : ∃ i, decode w = .ok i := by
  simp only [illegalWord, not_or, not_not, not_and, not_le] at h
  obtain ⟨hop, hr, hc⟩ := h
  have accepted {n l : Nat} (op : BitVec 4) (ho : (opOf w).toNat = op.toNat) (hl : n + l ≤ 32)
      (hm : (reservedMask op).extractLsb' n l = BitVec.allOnes l) (i : Instr) :
      ∃ j, ifReservedZero ((argOf w).extractLsb' n l) i = .ok j :=
    ⟨i, ifReservedZero_of_eq (argOf_reserved_eq_zero hr ho hm hl) i⟩
  have hself : (argOf w).extractLsb' 0 32 = argOf w := BitVec.extractLsb'_eq_self
  unfold decode
  split
  next ho => exact accepted 0x1#4 ho (by decide) (by decide) _
  next ho => exact hself ▸ accepted 0x2#4 ho (by decide) (by decide) .reset
  next ho => exact accepted 0x3#4 ho (by decide) (by decide) _
  next ho => exact accepted 0x4#4 ho (by decide) (by decide) _
  next ho => exact hself ▸ accepted 0x5#4 ho (by decide) (by decide) .getsel
  next ho =>
    have hch : ((argOf w).extractLsb' 0 3).toNat < 6 := by
      rw [argOf, BitVec.extractLsb'_extractLsb'_of_le (by decide)]
      exact hc (BitVec.eq_of_toNat_eq ho)
    rw [decodeCfgch, if_pos (argOf_reserved_eq_zero (op := 0x8#4) hr ho (by decide) (by decide)), if_pos hch]
    exact ⟨_, rfl⟩
  next ho => exact accepted 0x9#4 ho (by decide) (by decide) _
  next ho => exact accepted 0xA#4 ho (by decide) (by decide) _
  next ho => exact accepted 0xB#4 ho (by decide) (by decide) _
  next =>
    have := assigned_of_notMem_unassignedOps _ hop
    simp_all

/-! ### The rows of the opcode table -/

theorem opcodeTable_mask_opcode : ∀ row ∈ opcodeTable, opOf row.mask = BitVec.allOnes 4 := by decide

theorem opcodeTable_opcode_assigned : ∀ row ∈ opcodeTable, opOf row.matchBits ∉ unassignedOps := by decide

theorem opcodeTable_opcode_injective :
    ∀ row ∈ opcodeTable, ∀ row' ∈ opcodeTable, opOf row.matchBits = opOf row'.matchBits → row = row' := by decide

theorem opcodeTable_mask_reserved :
    ∀ row ∈ opcodeTable, row.mask &&& reservedMask (opOf row.matchBits) = reservedMask (opOf row.matchBits) := by decide

theorem opcodeTable_match_reserved :
    ∀ row ∈ opcodeTable, row.matchBits &&& reservedMask (opOf row.matchBits) = 0 := by decide

theorem opcodeTable_cfgch : ∀ row ∈ opcodeTable, opOf row.matchBits = 0x8#4 → row.mnemonic = "CFGCH" := by decide

theorem opOf_eq_of_row {w : CmdWord} {row : TableRow} (hrow : row ∈ opcodeTable) (h : w &&& row.mask = row.matchBits) :
    opOf w = opOf row.matchBits := by
  rw [← h, opOf, opOf, BitVec.extractLsb'_and]
  exact ((congrArg _ (opcodeTable_mask_opcode row hrow)).trans BitVec.and_allOnes).symm

/-- A word is in at most one row. -/
theorem row_unique {w : CmdWord} {row row' : TableRow} (hrow : row ∈ opcodeTable) (hrow' : row' ∈ opcodeTable)
    (h : w &&& row.mask = row.matchBits) (h' : w &&& row'.mask = row'.matchBits) : row = row' :=
  opcodeTable_opcode_injective row hrow row' hrow' ((opOf_eq_of_row hrow h).symm.trans (opOf_eq_of_row hrow' h'))

/-- A word of a row is not illegal, for `CFGCH` with a channel 0 to 5 (R53). -/
theorem not_illegalWord_of_row {w : CmdWord} {row : TableRow} (hrow : row ∈ opcodeTable)
    (h : w &&& row.mask = row.matchBits) (hc : row.mnemonic = "CFGCH" → (w.extractLsb' 0 3).toNat < 6) :
    ¬ illegalWord w := by
  have hr : w &&& reservedMask (opOf row.matchBits) = 0 := by
    rw [← opcodeTable_mask_reserved row hrow, ← BitVec.and_assoc, h, opcodeTable_match_reserved row hrow]
  rw [illegalWord, opOf_eq_of_row hrow h]
  rintro (hop | hres | ⟨hop, hch⟩)
  · exact opcodeTable_opcode_assigned row hrow hop
  · exact hres hr
  · exact absurd (hc (opcodeTable_cfgch row hrow hop)) (Nat.not_lt.2 hch)

/-- The word of every command lies in the command's row. -/
theorem encode_mem_tableRow (i : Instr) : Laws.TableRow.Statement i := by
  cases i with
  | step x => exact Laws.TableRow.step x
  | reset => exact Laws.TableRow.reset
  | select mask => exact Laws.TableRow.select mask
  | getval id => exact Laws.TableRow.getval id
  | getsel => exact Laws.TableRow.getsel
  | cfgch c en rep order k => exact Laws.TableRow.cfgch c en rep order k
  | cfghp h en src => exact Laws.TableRow.cfghp h en src
  | cfgbp b en brEn fast slow => exact Laws.TableRow.cfgbp b en brEn fast slow
  | cfgbq en variant alpha damp => exact Laws.TableRow.cfgbq en variant alpha damp

/-! ### Legal and illegal words -/

theorem channel_lt_of_wellFormed {i : Instr} (hw : i.wellFormed = true) (hm : i.tableRow.mnemonic = "CFGCH") :
    ((encode i).extractLsb' 0 3).toNat < 6 := by
  cases i with
  | cfgch c en rep order k =>
    rw [toNat_extract, toNat_encode]
    simp only [Instr.wellFormed, decide_eq_true_eq] at hw
    simp only [Instr.argument]
    omega
  | _ => simp [Instr.tableRow] at hm

/-- R53: the illegal words are those that do not decode. -/
theorem illegalWord_iff (w : CmdWord) : illegalWord w ↔ ∃ e, decode w = .error e := by
  constructor
  · intro h
    cases hd : decode w with
    | error e => exact ⟨e, rfl⟩
    | ok i =>
      obtain ⟨rfl, hw⟩ := (decode_eq_ok_iff w i).1 hd
      obtain ⟨hrow, hm⟩ := encode_mem_tableRow i
      exact absurd h (not_illegalWord_of_row hrow hm (channel_lt_of_wellFormed hw))
  · rintro ⟨e, he⟩
    by_contra h
    obtain ⟨i, hi⟩ := exists_decode_of_not_illegalWord h
    simp [hi] at he

theorem tableRow_of_decode {w : CmdWord} {i : Instr} (hd : decode w = .ok i) :
    i.tableRow ∈ opcodeTable ∧ w &&& i.tableRow.mask = i.tableRow.matchBits := by
  obtain ⟨rfl, -⟩ := (decode_eq_ok_iff w i).1 hd
  exact encode_mem_tableRow i

/-- Settles O5: a word of a row is legal, and a word that decodes lies in the row of its command alone. -/
theorem legalWordsAreTheTableRows : Obligations.LegalWordsAreTheTableRows := by
  refine ⟨fun w row hrow hm hc => ?_, fun w i hd => ?_⟩
  · obtain ⟨i, hd⟩ := exists_decode_of_not_illegalWord (not_illegalWord_of_row hrow hm hc)
    obtain ⟨hrow', hm'⟩ := tableRow_of_decode hd
    exact ⟨i, hd, row_unique hrow' hrow hm' hm⟩
  · obtain ⟨hrow', hm'⟩ := tableRow_of_decode hd
    exact ⟨hrow', hm', fun row hrow hm => row_unique hrow hrow' hm hm'⟩

/-- Only the term `CFGCH` with channel 6 or 7 is answered with `ERR_ILLEGAL` when it is executed (R117). -/
theorem Effect.status_ne_illegal {i : Instr} {r q : Regs} {p : Response} (h : Effect i r q p)
    (hw : i.wellFormed = true) : p.status ≠ .illegal := by
  cases h with
  | cfgchIllegal c hc => exact absurd (of_decide_eq_true hw) (Nat.not_lt.2 hc)
  | _ => exact Status.noConfusion

/-- Settles O4: a word that decodes is a well-formed command, and none of those is answered so. -/
theorem illegalWordsExactly : Obligations.IllegalWordsExactly := by
  intro w s
  rw [illegalWord_iff]
  constructor
  · rintro ⟨e, he⟩
    exact runWord_of_error he s
  · intro h
    cases hd : decode w with
    | error e => exact ⟨e, rfl⟩
    | ok i =>
      obtain ⟨r, p, hx, he⟩ := exec_spec i s
      rw [raisedBy, runWord_of_ok hd, hx] at h
      cases h
      exact absurd rfl (he.status_ne_illegal ((decode_eq_ok_iff w i).1 hd).2)

end Sys2Proof.Machine
end

section
/-! SUPPORT. The responses of commands and of command lists (R40, R41, R54), and the expansion of `CONFIGURE` (R55). -/

namespace Sys2Proof.Machine

/-! ### Every command is answered -/

theorem runWord_answers (w : CmdWord) (s : State) :
    ∃ t p, runWord w s = .next t ∧ t.rsp = some p ∧ t.pins = s.pins := by
  obtain ⟨r, p, h, -⟩ := runWord_spec w s
  exact ⟨_, p, h, rfl, rfl⟩

theorem length_responses (ws : List CmdWord) (s : State) : (responses ws s).length = ws.length := by
  induction ws generalizing s with
  | nil => rfl
  | cons w ws ih =>
    obtain ⟨t, p, h, hp, -⟩ := runWord_answers w s
    rw [responses_cons _ _ _ _ h, hp, List.length_append, ih, Option.toList_some, List.length_singleton,
      List.length_cons, Nat.add_comm]

/-- A step is a power-on reset, a transaction or nothing, and each of these answers a next state (R41, R134, R150). -/
theorem step_answers (s : State) : ∃ t, step s = .next t := by
  unfold step runPins
  split
  · split
    · obtain ⟨t, p, h, -⟩ := runWord_answers s.pinsNow.cmdWord s.pinsPassed
      exact ⟨t, h⟩
    · exact ⟨_, rfl⟩
  · exact ⟨_, rfl⟩

/-- Settles O8: by what one word can do, by induction on the list, and by the cases of a step. -/
theorem everyCommandIsAnswered : Obligations.EveryCommandIsAnswered :=
  ⟨runWord_answers, length_responses, step_answers⟩

/-! ### Codes and data -/

theorem Status.code_cases (e : Status) : (e.code = 0#3 ↔ e = .ok) ∧ e.code ≠ 6#3 ∧ e.code ≠ 7#3 := by
  cases e <;> decide

/-- Only the two reads answer data (R54). -/
theorem Effect.data_ne_zero {i : Instr} {r q : Regs} {p : Response} (h : Effect i r q p) (hd : p.data ≠ 0#32) :
    p.status = .ok ∧ (i = .getsel ∨ ∃ id, i = .getval id) := by
  cases h with
  | getval id => exact ⟨rfl, .inr ⟨id, rfl⟩⟩
  | getsel => exact ⟨rfl, .inl rfl⟩
  | _ => exact absurd rfl hd

theorem runWord_data_ne_zero {w : CmdWord} {s t : State} {p : Response} (h : runWord w s = .next t)
    (hp : t.rsp = some p) (hd : p.data ≠ 0#32) :
    p.status = .ok ∧ (decode w = .ok .getsel ∨ ∃ id, decode w = .ok (.getval id)) := by
  obtain ⟨r, p', h', hc⟩ := runWord_spec w s
  obtain rfl : p' = p := by cases h.symm.trans h'; simpa using hp
  rcases hc with ⟨-, -, rfl⟩ | ⟨i, hi, he⟩
  · exact absurd rfl hd
  · obtain ⟨hok, rfl | ⟨id, rfl⟩⟩ := he.data_ne_zero hd
    · exact ⟨hok, .inl hi⟩
    · exact ⟨hok, .inr ⟨id, hi⟩⟩

/-- Settles O12: data by the effects of the commands, and the ports by what they show of a held response. -/
theorem dataOnlyFromReads : Obligations.DataOnlyFromReads := by
  refine ⟨rfl, fun w s t p h hp => ?_, fun s t ha h => ?_⟩
  · obtain ⟨hok, h6, h7⟩ := p.status.code_cases
    exact ⟨hok, h6, h7, runWord_data_ne_zero h hp⟩
  · obtain ⟨hready, hstep⟩ := step_of_accepts ha
    obtain ⟨u, p, hw, hp, -⟩ := runWord_answers s.pinsNow.cmdWord s.pinsPassed
    obtain rfl : t = u := by cases h.symm.trans (hstep.trans hw); rfl
    obtain ⟨hvalid, hstatus, hdata⟩ := rsp_ports hp
    exact ⟨hready, hvalid, p.data, p.status, t, hw, hp, hstatus, hdata⟩

/-! ### The expansion of `CONFIGURE` -/

theorem asmConfigure_of_isConfig {cfgs : List Instr} (h : ∀ i ∈ cfgs, i.isConfig = true) :
    asmConfigure cfgs = cfgs ++ [.reset] := by
  rw [asmConfigure, List.filter_eq_self.2 h]

/-- A command list that ends with a `RESET` leaves what the list before it leaves, its history and flags zeroed (R112). -/
theorem after_append_reset (ws : List CmdWord) (s : State) :
    (after (ws ++ [encode .reset]) s).regs = (after ws s).regs.zeroHistory.clearFlags := by
  rw [after_append, after_cons _ _ _ _ (runWord_encode_reset _), after]

/-- Settles O53: the expansion is the list itself and a `RESET`, which keeps the configuration (R26). -/
theorem configureExpansionIsReady : Obligations.ConfigureExpansionIsReady := by
  intro cfgs s h
  rw [asmConfigure_of_isConfig fun i hi => (h i hi).1, List.map_append, List.map_singleton, after_append_reset]
  exact ⟨⟨rfl, rfl, rfl, rfl, rfl⟩, Regs.zeroHistory_historyZero (after (cfgs.map encode) s).regs, rfl, rfl⟩

end Sys2Proof.Machine
end

section
/-! SUPPORT. The integer converters, the rounded shifts and the rounded multiply over the integers (R62 to R68), and where
no `wrap_N` in them changes a value. -/

namespace Sys2Proof.Machine

/-! ### Converters -/

/-- A 16-bit sample has room for 16 more bits below it (R62, R63). -/
theorem shl_sample_toInt (x : Sample) {s : Nat} (hs : s ≤ 16) :
    (shl 32 (sext32 x).toInt s).toInt = ((2 ^ s : Nat) : Int) * x.toInt := by
  have hp : ((2 ^ s : Nat) : Int) ≤ 65536 := by exact_mod_cast Nat.pow_le_pow_right (n := 2) (by decide) hs
  have hp0 : 0 < ((2 ^ s : Nat) : Int) := by exact_mod_cast Nat.two_pow_pos s
  obtain ⟨hlo, hhi⟩ : -32768 ≤ x.toInt ∧ x.toInt ≤ 32767 := fits_toInt x
  have hf : fits 32 (((2 ^ s : Nat) : Int) * x.toInt) := by
    generalize ((2 ^ s : Nat) : Int) = p at *
    show -2147483648 ≤ p * x.toInt ∧ p * x.toInt ≤ 2147483647
    constructor <;> nlinarith
  rw [shl, sext32_toInt (by decide), Int.mul_comm, wrap_toInt_of_fits (by decide) hf]

theorem q8OfI16_toInt (x : Sample) : (q8OfI16 x).toInt = 256 * x.toInt := shl_sample_toInt x (by decide)

theorem q16OfI16_toInt (x : Sample) : (q16OfI16 x).toInt = 65536 * x.toInt := shl_sample_toInt x (by decide)

/-- Settles O32: neither shift left loses a bit of a sample. -/
theorem wideningIsExact : Obligations.WideningIsExact := fun x => ⟨q8OfI16_toInt x, q16OfI16_toInt x⟩

/-- De-scaling is the floor of the quotient: the shift right of a stored word fits (R64, R68). -/
theorem wrap_asr_toInt {n : Nat} (hn : 0 < n) (y : BitVec n) (s : Nat) :
    (wrap n (asr y.toInt s)).toInt = y.toInt / ((2 ^ s : Nat) : Int) :=
  wrap_toInt_of_fits hn (fits_div (Nat.two_pow_pos s) (fits_toInt y))

theorem fits16_toInt {a : Word} (h : fits16 a) : (a.setWidth 16).toInt = a.toInt := by
  conv_rhs => rw [h, sext32_toInt (by decide)]

/-- Settles O33, by representation: an `I16` word is its own value, the other two are shifted right. -/
theorem visibleValueIsTheFloor : Obligations.VisibleValueIsTheFloor := by
  intro rep a q hc h16 hq
  cases rep with
  | i16 =>
    obtain rfl := Option.some.inj hq
    rw [Int.floor_intCast, fits16_toInt (h16 rfl)]
    rfl
  | q8_8 =>
    obtain rfl := Option.some.inj hq
    exact (wrap_asr_toInt (by decide) a 8).trans (Rat.floor_intCast_div_natCast a.toInt 256).symm
  | q16_16 =>
    obtain rfl := Option.some.inj hq
    exact (wrap_asr_toInt (by decide) a 16).trans (Rat.floor_intCast_div_natCast a.toInt 65536).symm
  | f32 => cases hc

/-! ### Rounded shifts -/

/-- A value one period too large wraps down by the period (R7). -/
theorem wrap_toInt_of_over {n : Nat} {v : Int} (hn : 0 < n) (h : fits n (v - ((2 ^ n : Nat) : Int))) :
    (wrap n v).toInt = v - ((2 ^ n : Nat) : Int) := by
  have e : wrap n v = wrap n (v - ((2 ^ n : Nat) : Int)) := by
    apply BitVec.eq_of_toInt_eq
    rw [wrap_toInt, wrap_toInt, Int.sub_bmod_right]
  rw [e, wrap_toInt_of_fits hn h]

/-- A stored word plus an addend within the width either fits or is one period too large. -/
theorem fits_sub_of_not_fits {n : Nat} (hn : 0 < n) (v : BitVec n) {b : Int} (hb : 0 ≤ b) (hbn : b ≤ ((2 ^ n : Nat) : Int))
    (h : ¬ fits n (v.toInt + b)) : fits n (v.toInt + b - ((2 ^ n : Nat) : Int)) := by
  have hv := fits_toInt v
  have e : 2 ^ n = 2 * 2 ^ (n - 1) := by rw [← Nat.pow_succ']; congr 1; omega
  rw [e] at hbn ⊢
  unfold fits at *
  omega

/-- Half up: adding half the divisor before the shift is rounding `v / 2^s + 1/2` down (R65, R66). -/
theorem add_half_div (v : Int) {s : Nat} (hs : 1 ≤ s) :
    (v + ((2 ^ (s - 1) : Nat) : Int)) / ((2 ^ s : Nat) : Int) = (2 * v + ((2 ^ s : Nat) : Int)) / ((2 ^ (s + 1) : Nat) : Int) := by
  obtain ⟨m, rfl⟩ : ∃ m, s = m + 1 := ⟨s - 1, by omega⟩
  rw [← Int.mul_ediv_mul_of_pos _ _ (show (0 : Int) < 2 by decide), Nat.add_sub_cancel]
  congr 1 <;> push_cast <;> ring

/-- The common end of both rounded shifts, when the addend does not wrap. -/
theorem wrap_add_half_div_of_fits {n : Nat} (hn : 0 < n) {v : Int} {s : Nat} (hs : 1 ≤ s)
    (h : fits n (v + ((2 ^ (s - 1) : Nat) : Int))) :
    (wrap n (v + ((2 ^ (s - 1) : Nat) : Int))).toInt / ((2 ^ s : Nat) : Int) =
      (2 * v + ((2 ^ s : Nat) : Int)) / ((2 ^ (s + 1) : Nat) : Int) := by
  rw [wrap_toInt_of_fits hn h, add_half_div v hs]

/-- The sum of a stored word and an addend that does not fit (R61). -/
theorem wrap_add_half_of_not_fits {n : Nat} (hn : 0 < n) (v : BitVec n) {s : Nat} (hs : s ≤ n)
    (h : ¬ fits n (v.toInt + ((2 ^ s : Nat) : Int))) :
    (wrap n (v.toInt + ((2 ^ s : Nat) : Int))).toInt = v.toInt + ((2 ^ s : Nat) : Int) - ((2 ^ n : Nat) : Int) :=
  wrap_toInt_of_over hn (fits_sub_of_not_fits hn v (Int.natCast_nonneg _)
    (Int.ofNat_le.2 (Nat.pow_le_pow_right (by decide) hs)) h)

/-- With the parameter `EMA_K1_BIAS` true, `k = 1` adds 1 before the shift (R65). -/
theorem rincWith_true_one {n : Nat} (hn : 0 < n) (d : BitVec n) :
    (rincWith true d 1).toInt = Int.bmod (d.toInt + 1) (2 ^ n) / 2 := by
  rw [rincWith, if_neg (by decide), wrap_asr_toInt hn, wrap_toInt]
  rfl

theorem legalK_bounds {k : Nat} (h : k ∈ Config.legalK) : 1 ≤ k ∧ k ≤ 8 := by
  revert k; decide

/-- Settles O34: the addend is taken before the shift, and either fits or wraps once. -/
theorem roundedIncrement : Obligations.RoundedIncrement := by
  intro n k hnw hk d
  have hn : 0 < n := by omega
  have hkn : k - 1 ≤ n := by have := legalK_bounds hk; omega
  refine ⟨rinc_one hn d, fun h2 hf => ?_, fun h2 hf => ?_, rincWith_true_one hn d⟩
  · rw [rinc_biased hn d h2, wrap_add_half_div_of_fits hn (by omega) hf]
  · rw [rinc_biased hn d h2, wrap_add_half_of_not_fits hn d hkn hf]

/-- Settles O35, as O34: `rshr_N` is the same rounded shift with its addend kept at shift 1. -/
theorem roundedShift : Obligations.RoundedShift := by
  intro s v hs
  refine ⟨rshr_zero v, fun h1 hf => ?_, fun h1 hf => ?_⟩
  · rw [rshr_biased (by decide) v h1, wrap_add_half_div_of_fits (by decide) h1 hf]
  · rw [rshr_biased (by decide) v h1, wrap_add_half_of_not_fits (by decide) v (by omega) hf]
    rfl

/-! ### The rounded multiply -/

/-- A coefficient up to 256 scales a word by at most 1, so the quotient fits (R67). -/
theorem fits_mul_div_256 {n : Nat} {v : Int} (h : fits n v) {c : Nat} (hc : c ≤ 256) : fits n ((v * (c : Int) + 128) / 256) := by
  have hc' : (c : Int) ≤ 256 := by exact_mod_cast hc
  have hc0 : (0 : Int) ≤ c := Int.natCast_nonneg c
  unfold fits at *
  generalize ((2 ^ (n - 1) : Nat) : Int) = p at *
  have hp : 0 < p := by omega
  have lower : -p * 256 ≤ v * c := by nlinarith
  have upper : v * c ≤ (p - 1) * 256 := by nlinarith
  omega

theorem mulrs8_toInt (v : Word) {c : Nat} (hc : c ≤ 256) : (mulrs8 v c).toInt = (v.toInt * (c : Int) + 128) / 256 :=
  wrap_toInt_of_fits (by decide) (fits_mul_div_256 (fits_toInt v) hc)

/-- Settles O36: the quotient fits, so the two corners are integer arithmetic. -/
theorem roundedMultiply : Obligations.RoundedMultiply := by
  intro v c hc
  refine ⟨mulrs8_toInt v hc, ?_, ?_⟩
  · apply BitVec.eq_of_toInt_eq
    rw [mulrs8_toInt v (by decide)]
    omega
  · apply BitVec.eq_of_toInt_eq
    rw [mulrs8_toInt v (by decide), Nat.cast_zero, Int.mul_zero]
    rfl

end Sys2Proof.Machine
end

section
/-! SUPPORT. The integer EMA update (R77, R81 to R83): where it is exact, that it never passes its input, and what follows
for accumulators whose samples lie in an interval. -/

namespace Sys2Proof.Machine

/-! ### The exact law -/

theorem addend_bounds {k : Nat} (hk : 1 ≤ k) : 0 ≤ addend k ∧ addend k < ((2 ^ k : Nat) : Int) := by
  obtain ⟨m, rfl⟩ : ∃ m, k = m + 1 := ⟨k - 1, by omega⟩
  have := Nat.two_pow_pos m
  unfold addend
  rw [Nat.add_sub_cancel, Nat.pow_succ]
  split <;> omega

theorem addend_le {k : Nat} (hk : k ∈ Config.legalK) : addend k ≤ 128 := by
  revert k; decide

/-- A rounded fraction of a difference, with an addend below the divisor, lies between 0 and the difference. -/
theorem add_div_between {d b p : Int} (hb : 0 ≤ b) (hbp : b < p) :
    min 0 d ≤ (d + b) / p ∧ (d + b) / p ≤ max 0 d := by
  have hp : 0 < p := by omega
  rcases le_or_gt 0 d with hd | hd
  · rw [min_eq_left hd, max_eq_right hd]
    exact ⟨Int.ediv_nonneg (by omega) hp.le, Int.lt_add_one_iff.1 (Int.ediv_lt_of_lt_mul hp (by nlinarith))⟩
  · rw [min_eq_right hd.le, max_eq_left hd.le]
    exact ⟨(Int.le_ediv_iff_mul_le hp).2 (by nlinarith), Int.lt_add_one_iff.1 (Int.ediv_lt_of_lt_mul hp (by omega))⟩

/-- The stall band: where the rounded fraction is 0 (R77). -/
theorem add_div_eq_zero_iff {d b p : Int} (hp : 0 < p) : (d + b) / p = 0 ↔ -b ≤ d ∧ d < p - b := by
  rw [Int.ediv_eq_iff_of_pos hp]
  omega

/-- The exact law gives a value between accumulator and input (R77). -/
theorem emaExact_between (y input : Int) {k : Nat} (hk : 1 ≤ k) :
    min y input ≤ y + (input - y + addend k) / ((2 ^ k : Nat) : Int) ∧
      y + (input - y + addend k) / ((2 ^ k : Nat) : Int) ≤ max y input := by
  obtain ⟨hb, hbp⟩ := addend_bounds hk
  have h := add_div_between (d := input - y) hb hbp
  generalize (input - y + addend k) / ((2 ^ k : Nat) : Int) = i at *
  omega

section
variable {n : Nat} {y input : BitVec n} {k : Nat}

/-- When no `wrap_N` of the update changes a value, the update is the exact law (R77). -/
theorem emaInt_toInt_of_noWrap (hn : 0 < n) (hk : 1 ≤ k) (h : emaNoWrap y input k) :
    (emaInt y input k).toInt = y.toInt + (input.toInt - y.toInt + addend k) / ((2 ^ k : Nat) : Int) := by
  obtain ⟨hd, hb, hs⟩ := h
  have hinc : (rinc (wrap n (input.toInt - y.toInt)) k).toInt =
      (input.toInt - y.toInt + addend k) / ((2 ^ k : Nat) : Int) := by
    by_cases h1 : k = 1
    · subst h1
      rw [rinc_one hn, wrap_toInt_of_fits hn hd, addend, if_pos rfl, Int.add_zero]
      rfl
    · rw [addend, if_neg h1] at *
      rw [rinc_biased hn _ (by omega), wrap_toInt_of_fits hn hd, wrap_toInt_of_fits hn hb]
  rw [emaInt, hinc, wrap_toInt_of_fits hn hs]

/-- The sum never wraps by itself: it lies between two stored values. So the documented condition on the two
differences is the whole boundary (R77). -/
theorem emaNoWrap_iff (hk : 1 ≤ k) : emaNoWrap y input k ↔ emaInRange n y.toInt input.toInt k := by
  obtain ⟨hb, -⟩ := addend_bounds hk
  have hy := fits_toInt y
  have hi := fits_toInt input
  have hs := emaExact_between y.toInt input.toInt hk
  unfold emaNoWrap emaInRange fits at *
  omega

theorem emaInt_between (hn : 0 < n) (hk : 1 ≤ k) (h : emaInRange n y.toInt input.toInt k) :
    min y.toInt input.toInt ≤ (emaInt y input k).toInt ∧ (emaInt y input k).toInt ≤ max y.toInt input.toInt := by
  rw [emaInt_toInt_of_noWrap hn hk ((emaNoWrap_iff hk).2 h)]
  exact emaExact_between _ _ hk

theorem emaInt_eq_self_iff (hn : 0 < n) (hk : 1 ≤ k) (h : emaInRange n y.toInt input.toInt k) :
    emaInt y input k = y ↔
      -addend k ≤ input.toInt - y.toInt ∧ input.toInt - y.toInt < ((2 ^ k : Nat) : Int) - addend k := by
  have hp : (0 : Int) < ((2 ^ k : Nat) : Int) := by exact_mod_cast Nat.two_pow_pos k
  rw [← BitVec.toInt_inj, emaInt_toInt_of_noWrap hn hk ((emaNoWrap_iff hk).2 h), add_eq_left, add_div_eq_zero_iff hp]

end

theorem emaInt_exactness {n : Nat} (hn : 0 < n) : emaExactness (n := n) emaInt := by
  intro y input k hk
  obtain ⟨hk, -⟩ := legalK_bounds hk
  refine ⟨emaNoWrap_iff hk, fun h => ?_⟩
  obtain ⟨hmin, hmax⟩ := emaInt_between hn hk h
  exact ⟨emaInt_toInt_of_noWrap hn hk ((emaNoWrap_iff hk).2 h), hmin, hmax, emaInt_eq_self_iff hn hk h⟩

/-- Settles O44: the three updaters are one law at two widths. -/
theorem integerEmaExactness : Obligations.IntegerEmaExactness :=
  ⟨emaInt_exactness (n := 16) (by decide), emaInt_exactness (n := 32) (by decide), emaInt_exactness (n := 32) (by decide)⟩

/-! ### Updates within an interval -/

/-- A stored value lies between `lo` and `hi`. -/
def within {n : Nat} (lo hi : Int) (a : BitVec n) : Prop := lo ≤ a.toInt ∧ a.toInt ≤ hi

/-- The span up to which no legal update of an interval's values can wrap (R77). -/
def spanFits (n : Nat) (lo hi : Int) : Prop := hi - lo + 128 < ((2 ^ (n - 1) : Nat) : Int)

section
variable {n : Nat} {lo hi : Int} {y input : BitVec n} {k : Nat}

theorem emaInRange_of_within (hspan : spanFits n lo hi) (hk : k ∈ Config.legalK) (hy : within lo hi y)
    (hin : within lo hi input) : emaInRange n y.toInt input.toInt k := by
  have := addend_le hk
  unfold spanFits within emaInRange at *
  omega

theorem emaNoWrap_of_within (hspan : spanFits n lo hi) (hk : k ∈ Config.legalK) (hy : within lo hi y)
    (hin : within lo hi input) : emaNoWrap y input k :=
  (emaNoWrap_iff (legalK_bounds hk).1).2 (emaInRange_of_within hspan hk hy hin)

theorem emaInt_within (hn : 0 < n) (hspan : spanFits n lo hi) (hk : k ∈ Config.legalK) (hy : within lo hi y)
    (hin : within lo hi input) : within lo hi (emaInt y input k) := by
  have := emaInt_between hn (legalK_bounds hk).1 (emaInRange_of_within hspan hk hy hin)
  unfold within at *
  omega

end

/-- A word in the 16-bit range is the value of its bits 15:0 (R11). -/
theorem setWidth_toInt_of_fits {a : Word} (h : fits 16 a.toInt) : (a.setWidth 16).toInt = a.toInt := by
  have e : a = sext32 (wrap 16 a.toInt) := by
    apply BitVec.eq_of_toInt_eq
    rw [sext32_toInt (by decide), wrap_toInt_of_fits (by decide) h]
  rw [e, setWidth_sext32, sext32_toInt (by decide)]

section
variable {lo hi : Int} {y input : Word} {k : Nat}

theorem within_setWidth (hlo : -32768 ≤ lo) (hhi : hi ≤ 32767) {a : Word} (h : within lo hi a) :
    within lo hi (a.setWidth 16) := by
  rw [within, setWidth_toInt_of_fits ⟨hlo.trans h.1, h.2.trans hhi⟩]
  exact h

/-- `I16` accumulator words within an interval stay there (R77, R81). -/
theorem ema_i16_within (hlo : -32768 ≤ lo) (hhi : hi ≤ 32767) (hspan : spanFits 16 lo hi) (hk : k ∈ Config.legalK)
    (hy : within lo hi y) (hin : within lo hi input) : within lo hi (ema .i16 y input k) := by
  rw [ema_i16, within, sext32_toInt (by decide)]
  exact emaInt_within (by decide) hspan hk (within_setWidth hlo hhi hy) (within_setWidth hlo hhi hin)

end

/-! ### The accumulators of one representation under `STEP` -/

section
variable {rep : Rep} {Q : Word → Prop} {x : Sample}

theorem Regs.k_mem_legalK {r : Regs} (hv : r.cfgValid = true) {c : Fin 6} (he : (r.readCh c).en = true) :
    (r.readCh c).k.toNat ∈ Config.legalK := by
  have := ((r.chValid_iff c).1 (((r.cfgValid_iff).1 hv).1 c) he).2
  simpa [Config.legalK] using this

theorem Regs.en_of_stageEnabled {r : Regs} {c : Fin 6} {s : Fin 3} (h : r.stageEnabled c s = true) :
    (r.readCh c).en = true :=
  ((r.stageEnabled_iff c s).1 h).1

/-- A property of words that the sample has and every legal update keeps is kept in every stage by `STEP`: each stage
reads its old value and the sample or the new value of the stage below (R91). -/
theorem Regs.advance_readAcc_of_closed {r : Regs} (hv : r.cfgValid = true) (hin : Q (stageInput rep x))
    (hema : ∀ y input k, k ∈ Config.legalK → Q y → Q input → Q (ema rep y input k)) {c : Fin 6}
    (hr : (r.readCh c).rep = rep) (h : ∀ s, Q (r.readAcc c s)) : ∀ s, Q ((r.advance x).readAcc c s) := by
  obtain ⟨h0, h1, h2, -⟩ := r.advance_spec x
  have q0 : Q ((r.advance x).readAcc c 0) := by
    rw [h0 c, hr]
    split
    · exact hema _ _ _ (Regs.k_mem_legalK hv ‹_›) (h 0) hin
    · exact h 0
  have q1 : Q ((r.advance x).readAcc c 1) := by
    rw [h1 c, hr]
    split
    · exact hema _ _ _ (Regs.k_mem_legalK hv (Regs.en_of_stageEnabled ‹_›)) (h 1) q0
    · exact h 1
  have q2 : Q ((r.advance x).readAcc c 2) := by
    rw [h2 c, hr]
    split
    · exact hema _ _ _ (Regs.k_mem_legalK hv (Regs.en_of_stageEnabled ‹_›)) (h 2) q1
    · exact h 2
  intro s
  match s with
  | 0 => exact q0
  | 1 => exact q1
  | 2 => exact q2

/-- The same of the `STEP` command, also when it is refused. -/
theorem Effect.step_readAcc_of_closed {r q : Regs} {p : Response} (he : Effect (.step x) r q p)
    (hin : Q (stageInput rep x)) (hema : ∀ y input k, k ∈ Config.legalK → Q y → Q input → Q (ema rep y input k))
    (h : ∀ (c : Fin 6) (s : Fin 3), (r.readCh c).rep = rep → Q (r.readAcc c s)) (c : Fin 6) (s : Fin 3)
    (hr : (q.readCh c).rep = rep) : Q (q.readAcc c s) := by
  cases he with
  | stepStale => exact h c s hr
  | stepInvalid => exact h c s hr
  | step _ _ _ hv =>
    rw [Regs.setStepped_readCh, Regs.advance_readCh] at hr
    rw [Regs.setStepped_readAcc]
    exact Regs.advance_readAcc_of_closed hv hin hema hr (fun s => h c s hr) s

end

theorem Effect.step_readCh {x : Sample} {r q : Regs} {p : Response} (he : Effect (.step x) r q p) (c : Fin 6) :
    q.readCh c = r.readCh c := by
  cases he with
  | step => rw [Regs.setStepped_readCh, Regs.advance_readCh]
  | _ => rfl

/-! ### `Q8_8` -/

/-- An accepted `STEP` keeps `Q8_8` accumulators in the range of the widened samples (R77). -/
theorem Regs.q8InRange_advance {r : Regs} (x : Sample) (hs : r.stale = false) (hv : r.cfgValid = true)
    (h : r.q8InRange) : (r.advance x).setStepped.q8InRange := by
  have hin : within (-8388608) 8388352 (stageInput .q8_8 x) := by
    obtain ⟨hlo, hhi⟩ : -32768 ≤ x.toInt ∧ x.toInt ≤ 32767 := fits_toInt x
    rw [within, stageInput, q8OfI16_toInt]
    omega
  exact fun _ => (Effect.step x r hs hv).step_readAcc_of_closed (rep := .q8_8) (Q := within (-8388608) 8388352) hin
    (fun y input k hk hy hi => emaInt_within (n := 32) (by decide) (by unfold spanFits; decide) hk hy hi) (h hs)

/-- Settles O59: the range's span is far below the 32-bit boundary, and an update stays between its operands. -/
theorem stepKeepsQ8Exact : Obligations.StepKeepsQ8Exact :=
  ⟨fun _ _ hi hq h => step_keeps_of_select_of_advance Regs.q8InRange (fun _ hz _ => Regs.q8InRange_of_historyZero hz)
      (fun _ hs hf => absurd (hs.symm.trans hf) (by decide)) (fun _ _ hr => hr) (fun _ x => Regs.q8InRange_advance x) hi hq h,
    fun _ _ _ hk hy hy' hi hi' => emaNoWrap_of_within (lo := -8388608) (hi := 8388352) (by unfold spanFits; decide) hk
      ⟨hy, hy'⟩ ⟨hi, hi'⟩⟩

/-! ### `I16` and `Q16_16` -/

section
variable {lo hi : Int} {x : Sample} {r q : Regs} {p : Response}

/-- A `STEP` whose sample and `I16` accumulators lie in an interval of a fitting span keeps them there (R77). -/
theorem Effect.step_i16Within (he : Effect (.step x) r q p) (hlo : -32768 ≤ lo) (hhi : hi ≤ 32767)
    (hspan : spanFits 16 lo hi) (hx : within lo hi x) (h : r.i16Within lo hi) : q.i16Within lo hi := by
  have hin : within lo hi (stageInput .i16 x) := by rwa [within, stageInput, sext32_toInt (by decide)]
  exact he.step_readAcc_of_closed (Q := within lo hi) hin (fun y input k => ema_i16_within hlo hhi hspan) h

theorem within_q16OfI16 (hx : within lo hi x) : within (65536 * lo) (65536 * hi) (q16OfI16 x) := by
  obtain ⟨hlo, hhi⟩ := hx
  rw [within, q16OfI16_toInt]
  omega

/-- The same of `Q16_16`, at the values the words stand for. -/
theorem Effect.step_q16Within (he : Effect (.step x) r q p) (hspan : spanFits 32 (65536 * lo) (65536 * hi))
    (hx : within lo hi x) (h : r.q16Within lo hi) : q.q16Within lo hi :=
  he.step_readAcc_of_closed (rep := .q16_16) (Q := within (65536 * lo) (65536 * hi)) (within_q16OfI16 hx)
    (fun _ _ _ => emaInt_within (n := 32) (by decide) hspan) h

end

/-- Settles O46: before and after the `STEP` all values lie in the interval, and two of its values never wrap. -/
theorem boundedSamplesKeepAccumulatorsBounded : Obligations.BoundedSamplesKeepAccumulatorsBounded := by
  intro lo hi x s t hlo _ _ hhi hx hx' h
  obtain ⟨p, -, -, he⟩ := exec_next h
  have hw : within lo hi x := ⟨hx, hx'⟩
  refine ⟨fun hspan hs => ?_, fun hspan hs => ?_⟩
  · have hspan : spanFits 16 lo hi := by unfold spanFits; omega
    have ht := he.step_i16Within hlo hhi hspan hw hs
    refine ⟨ht, fun c hen hrep hv => ?_⟩
    have hk := Regs.k_mem_legalK hv hen
    have old (g) : within lo hi ((s.regs.readAcc c g).setWidth 16) := within_setWidth hlo hhi (hs c g hrep)
    have new (g) : within lo hi ((t.regs.readAcc c g).setWidth 16) :=
      within_setWidth hlo hhi (ht c g (by rw [he.step_readCh, hrep]))
    exact ⟨emaNoWrap_of_within hspan hk (old 0) hw, fun _ => emaNoWrap_of_within hspan hk (old 1) (new 0),
      fun _ => emaNoWrap_of_within hspan hk (old 2) (new 1)⟩
  · have hspan : spanFits 32 (65536 * lo) (65536 * hi) := by unfold spanFits; omega
    have ht := he.step_q16Within hspan hw hs
    refine ⟨ht, fun c hen hrep hv => ?_⟩
    have hk := Regs.k_mem_legalK hv hen
    have old (g) : within (65536 * lo) (65536 * hi) (s.regs.readAcc c g) := hs c g hrep
    have new (g) : within (65536 * lo) (65536 * hi) (t.regs.readAcc c g) := ht c g (by rw [he.step_readCh, hrep])
    exact ⟨emaNoWrap_of_within hspan hk (old 0) (within_q16OfI16 hw), fun _ => emaNoWrap_of_within hspan hk (old 1) (new 0),
      fun _ => emaNoWrap_of_within hspan hk (old 2) (new 1)⟩

end Sys2Proof.Machine
end

section
/-! SUPPORT. The binary32 operations over the integers (R69 to R74): which integers are values, what it is to be a nearest
value, and sums, differences, quotients and conversions as one rounding each. -/

namespace Sys2Proof.Machine

/-! ### Values -/

/-- Some binary32 pattern has the value `v`, in units of 2^-149 (R70). -/
def f32Value (v : Int) : Prop := ∃ b, f32Units b = some v

theorem signedMag_not (neg : Bool) (m : Nat) : signedMag (!neg) m = -signedMag neg m := by
  cases neg <;> simp [signedMag]

theorem abs_signedMag (neg : Bool) (m : Nat) : |signedMag neg m| = (m : Int) := by
  rw [Int.abs_eq_natAbs, signedMag_natAbs]

theorem signedMag_mul (neg : Bool) (m n : Nat) : signedMag neg (m * n) = signedMag neg m * (n : Int) := by
  cases neg <;> simp [signedMag]

/-- An integer is its sign and its magnitude. -/
theorem signedMag_decide_neg (v : Int) : signedMag (decide (v < 0)) v.natAbs = v := by
  rcases lt_or_ge v 0 with h | h
  · rw [decide_eq_true h, signedMag, if_pos rfl]
    omega
  · rw [decide_eq_false (by omega), signedMag, if_neg (by decide)]
    omega

theorem f32Value_signedMag (neg : Bool) {low : Nat} (h : low < f32InfLow) : f32Value (signedMag neg (f32Mag low)) :=
  ⟨_, f32Units_pack neg h⟩

theorem f32Value.neg {v : Int} (h : f32Value v) : f32Value (-v) := by
  obtain ⟨b, hb⟩ := h
  obtain ⟨hl, rfl⟩ := f32Units_eq_some hb
  rw [← signedMag_not]
  exact f32Value_signedMag _ hl

/-- An integer that keeps all its bits under the shift of its exponent is rounded to itself. -/
theorem f32Mag_roundRaw_of_dvd {n : Nat} (h : 2 ^ f32Shift n 1 ∣ n) : f32Mag (f32RoundRaw n 1) = n := by
  rw [f32Mag_roundRaw n (by decide), Nat.one_mul]
  obtain ⟨m, hm⟩ := h
  generalize 2 ^ f32Shift n 1 = p at *
  subst hm
  rcases Nat.eq_zero_or_pos p with rfl | hp
  · simp
  · rw [roundNearestEven, Nat.mul_mod_right, if_pos (by simpa using hp), Nat.mul_div_cancel_left _ hp, Nat.mul_comm]

/-- A significand below 2^24 with `t` zeros behind it is a value (R70). -/
theorem f32Value_mul_two_pow {v : Int} (hv : |v| < 2 ^ 24) {t : Nat} (ht : t ≤ 253) : f32Value (v * ((2 ^ t : Nat) : Int)) := by
  have hm : v.natAbs < 2 ^ 24 := by rw [Int.abs_eq_natAbs] at hv; omega
  have hshift : f32Shift (v.natAbs * 2 ^ t) 1 ≤ t := by
    rw [f32Shift, Nat.div_one]
    rcases Nat.eq_zero_or_pos (v.natAbs * 2 ^ t) with h0 | h0
    · rw [h0]; simp
    · have : (v.natAbs * 2 ^ t).log2 < 24 + t := by
        rw [Nat.log2_lt h0.ne', Nat.pow_add]
        exact Nat.mul_lt_mul_of_pos_right hm (Nat.two_pow_pos t)
      omega
  have hmag := f32Mag_roundRaw_of_dvd (Nat.dvd_mul_left_of_dvd (Nat.pow_dvd_pow 2 hshift) v.natAbs)
  have hlt : f32RoundRaw (v.natAbs * 2 ^ t) 1 < f32InfLow := by
    rw [f32RoundRaw_lt_inf _ (by decide)]
    have : v.natAbs * 2 ^ t ≤ (2 ^ 24 - 1) * 2 ^ 253 :=
      Nat.mul_le_mul (by omega) (Nat.pow_le_pow_right (by decide) ht)
    omega
  have := f32Value_signedMag (decide (v < 0)) hlt
  rwa [hmag, signedMag_mul, signedMag_decide_neg] at this

theorem f32Value_of_abs_lt {v : Int} (hv : |v| < 2 ^ 24) : f32Value v := by
  simpa using f32Value_mul_two_pow hv (Nat.zero_le _)

/-- A magnitude is below the next power of two that its exponent gives (R70). -/
theorem f32Mag_lt (low : Nat) : f32Mag low < 2 ^ 23 * 2 ^ (low / 2 ^ 23) := by
  have hf : low % 2 ^ 23 < 2 ^ 23 := Nat.mod_lt _ (by decide)
  unfold f32Mag
  split
  · rename_i he
    rwa [he, Nat.pow_zero, Nat.mul_one]
  · obtain ⟨e, he⟩ : ∃ e, low / 2 ^ 23 = e + 1 := ⟨low / 2 ^ 23 - 1, by omega⟩
    rw [he, Nat.add_sub_cancel, show 2 ^ (e + 1) = 2 * 2 ^ e from Nat.pow_succ', ← Nat.mul_assoc]
    exact Nat.mul_lt_mul_of_pos_right (by omega) (Nat.two_pow_pos e)

/-- An exponent reduced by `k` divides the magnitude by `2^k`, while it stays that of a normal value (R70). -/
theorem f32Mag_sub_exponent {low k : Nat} (h : k < low / 2 ^ 23) :
    f32Mag (low - k * 2 ^ 23) * 2 ^ k = f32Mag low := by
  have hq : (low - k * 2 ^ 23) / 2 ^ 23 = low / 2 ^ 23 - k := by omega
  have hr : (low - k * 2 ^ 23) % 2 ^ 23 = low % 2 ^ 23 := by omega
  rw [f32Mag, f32Mag, hq, hr, if_neg (by omega), if_neg (by omega), Nat.mul_assoc, ← Nat.pow_add]
  congr 2
  omega

/-- A value at least `2^k` times the smallest normal one is `2^k` times a value (R73). -/
theorem f32Value_div_two_pow {u : Int} {k : Nat} (hu : f32Value u) (h : ((2 ^ (23 + k) : Nat) : Int) ≤ |u|) :
    ∃ v, f32Value v ∧ u = v * ((2 ^ k : Nat) : Int) := by
  obtain ⟨b, hb⟩ := hu
  obtain ⟨hl, rfl⟩ := f32Units_eq_some hb
  generalize b.toNat % 2 ^ 31 = low at *
  rw [abs_signedMag, Int.ofNat_le] at h
  have he : k < low / 2 ^ 23 := by
    by_contra hc
    have hp : 2 ^ (low / 2 ^ 23) ≤ 2 ^ k := Nat.pow_le_pow_right (by decide) (by omega)
    have hlt := f32Mag_lt low
    rw [Nat.pow_add] at h
    omega
  refine ⟨_, f32Value_signedMag b.msb (low := low - k * 2 ^ 23) (by omega), ?_⟩
  rw [← signedMag_mul, f32Mag_sub_exponent he]

/-! ### Nearest values -/

/-- `r` is a value and no other is nearer to `num / den` units. -/
def nearestValue (num den r : Int) : Prop := f32Value r ∧ ∀ v, f32Value v → |num - r * den| ≤ |num - v * den|

theorem f32Nearest.nearestValue {num den r : Int} {b : Word} (h : f32Nearest num den b r) : nearestValue num den r :=
  ⟨⟨b, h.1⟩, fun v ⟨c, hc⟩ => (h.2 c v hc).1⟩

section
variable {num den r w : Int}

theorem nearestValue.neg (h : nearestValue num den r) : nearestValue (-num) den (-r) := by
  refine ⟨h.1.neg, fun v hv => ?_⟩
  have hn := h.2 _ hv.neg
  rw [← abs_neg, ← abs_neg (num - -v * den)] at hn
  convert hn using 2 <;> ring

/-- Rounding to nearest does not pass a value (R72). -/
theorem nearestValue.le (h : nearestValue num den r) (hden : 0 < den) (hw : f32Value w) (hle : num ≤ w * den) : r ≤ w := by
  by_contra hc
  have hn := h.2 w hw
  have hlt : w * den < r * den := Int.mul_lt_mul_of_pos_right (by omega) hden
  rw [abs_of_nonpos (by omega), abs_of_nonpos (by omega)] at hn
  omega

theorem nearestValue.ge (h : nearestValue num den r) (hden : 0 < den) (hw : f32Value w) (hle : w * den ≤ num) : w ≤ r := by
  have := h.neg.le hden hw.neg (by rw [Int.neg_mul]; omega)
  omega

/-- A quotient that is a value is rounded to itself (R72). -/
theorem nearestValue.exact (h : nearestValue num den r) (hden : 0 < den) (hw : f32Value w) (he : num = w * den) : r = w :=
  le_antisymm (h.le hden hw he.le) (h.ge hden hw he.ge)

/-- Rounding at most doubles a magnitude: 0 is a value too. -/
theorem nearestValue.abs_le (h : nearestValue num den r) : |r * den| ≤ 2 * |num| := by
  have hz := h.2 0 ⟨_, f32Units_zero⟩
  rw [Int.zero_mul, Int.sub_zero] at hz
  have := abs_sub_abs_le_abs_sub (r * den) num
  rw [abs_sub_comm] at this
  omega

end

/-- An exact result is the nearest one, and no other is as near. -/
theorem f32Nearest_of_exact {num den r : Int} {b : Word} (hden : 0 < den) (hb : f32Units b = some r) (he : num = r * den) :
    f32Nearest num den b r := by
  refine ⟨hb, fun c v _ => ?_⟩
  rw [he, Int.sub_self, abs_zero]
  refine ⟨abs_nonneg _, fun h hne => absurd ?_ hne⟩
  have : (r - v) * den = 0 := by rw [Int.sub_mul]; exact abs_eq_zero.1 h.symm
  have := (Int.mul_eq_zero.1 this).resolve_right hden.ne'
  omega

/-- A quotient does not change when both sides are scaled. -/
theorem f32Nearest.of_mul {num den r c : Int} {b : Word} (hc : 0 < c) (h : f32Nearest (num * c) (den * c) b r) :
    f32Nearest num den b r := by
  refine ⟨h.1, fun d v hd => ?_⟩
  have scale (w : Int) : |num * c - w * (den * c)| = |num - w * den| * c := by
    rw [← abs_of_pos hc, ← abs_mul, abs_of_pos hc]
    congr 1
    ring
  have hn := h.2 d v hd
  rw [scale, scale] at hn
  exact ⟨le_of_mul_le_mul_right hn.1 hc, fun e => hn.2 (by rw [e])⟩

/-! ### Sums and differences -/

section
variable (op : Config.FloatOp) (a b : Word) {s t : Bool} {m n : Nat}

theorem f32SumOf_fin_of_zero (h : signedMag s m + signedMag t n = 0) :
    f32SumOf op a b (.fin s m) (.fin t n) = f32Pack (s && t) 0 := by
  simp only [f32SumOf, if_pos h]

theorem f32SumOf_fin_of_ne_zero (h : signedMag s m + signedMag t n ≠ 0) :
    f32SumOf op a b (.fin s m) (.fin t n) = f32Pack (decide (signedMag s m + signedMag t n < 0))
      (f32RoundLow (signedMag s m + signedMag t n).natAbs 1) := by
  simp only [f32SumOf, if_neg h]

/-- Below the threshold a sum is rounded to nearest, ties to even (R72). -/
theorem f32SumOf_nearest (h : |signedMag s m + signedMag t n| < (2 ^ 25 - 1) * 2 ^ 252) :
    ∃ r, f32Nearest (signedMag s m + signedMag t n) 1 (f32SumOf op a b (.fin s m) (.fin t n)) r := by
  by_cases h0 : signedMag s m + signedMag t n = 0
  · refine ⟨signedMag (s && t) (f32Mag 0), ?_⟩
    rw [f32SumOf_fin_of_zero op a b h0]
    refine f32Nearest_of_exact (by decide) (f32Units_pack _ (by decide)) ?_
    rw [h0]
    cases s && t <;> rfl
  · rw [f32SumOf_fin_of_ne_zero op a b h0]
    generalize signedMag s m + signedMag t n = v at *
    rw [Int.abs_eq_natAbs] at h
    have hr := f32RoundLow_nearest (decide (v < 0)) (n := v.natAbs) (d := 1) (by decide) (by omega)
    rw [signedMag_decide_neg, Nat.cast_one] at hr
    exact ⟨_, hr⟩

/-- From the threshold on it is the infinity of its sign (R72). -/
theorem f32SumOf_overflow (h : (2 ^ 25 - 1) * 2 ^ 252 ≤ |signedMag s m + signedMag t n|) :
    f32Unpack (f32SumOf op a b (.fin s m) (.fin t n)) = .inf (decide (signedMag s m + signedMag t n < 0)) := by
  have h0 : signedMag s m + signedMag t n ≠ 0 := by
    intro h0
    rw [h0] at h
    exact absurd h (by decide)
  rw [Int.abs_eq_natAbs] at h
  rw [f32SumOf_fin_of_ne_zero op a b h0, f32RoundLow_of_overflow (by decide) (by omega), f32Unpack_inf]

/-- An exact zero of operands with opposite signs is `+0.0` (R72). -/
theorem f32SumOf_zero (h : signedMag s m + signedMag t n = 0) (hst : s ≠ t) :
    f32SumOf op a b (.fin s m) (.fin t n) = 0#32 := by
  rw [f32SumOf_fin_of_zero op a b h]
  cases s <;> cases t
  · exact absurd rfl hst
  · rfl
  · rfl
  · exact absurd rfl hst

end

/-- The operands of a sum of finite patterns: signs, magnitudes, and both operations through one function (R72). -/
theorem f32Add_f32Sub_eq {a b : Word} {u v : Int} (ha : f32Units a = some u) (hb : f32Units b = some v) :
    ∃ m n, u = signedMag a.msb m ∧ v = signedMag b.msb n ∧
      f32Add a b = f32SumOf .add a b (.fin a.msb m) (.fin b.msb n) ∧
      f32Sub a b = f32SumOf .sub a b (.fin a.msb m) (.fin (!b.msb) n) := by
  obtain ⟨m, hm, hu⟩ := f32Unpack_of_units ha
  obtain ⟨n, hn, hv⟩ := f32Unpack_of_units hb
  exact ⟨m, n, hu, hv, by rw [f32Add, hm, hn], by rw [f32Sub, hm, hn, F32Val.negate]⟩

/-- Settles O39: a difference is the sum with the other sign, and a sum is rounded once. -/
theorem floatSumsRoundToNearest : Obligations.FloatSumsRoundToNearest := by
  intro a b u v ha hb
  obtain ⟨m, n, rfl, rfl, hadd, hsub⟩ := f32Add_f32Sub_eq ha hb
  rw [hadd, hsub, sub_eq_add_neg (signedMag a.msb m), ← signedMag_not]
  exact ⟨f32SumOf_nearest _ a b, f32SumOf_overflow _ a b, f32SumOf_zero _ a b, f32SumOf_nearest _ a b,
    f32SumOf_overflow _ a b, fun h hs => f32SumOf_zero _ a b h (by rw [hs]; cases b.msb <;> decide)⟩

/-! ### Quotients by powers of two -/

theorem f32Unpack_pow2 {k : Nat} (hk : k ≤ 127) : f32Unpack (f32Pow2 k) = .fin false (2 ^ k * 2 ^ 149) := by
  rw [f32Pow2, f32Unpack_pack _ (by omega), if_neg (by omega), f32Mag, if_neg (by omega),
    Nat.mul_mod_left, Nat.mul_div_cancel _ (by decide), Nat.add_zero, ← Nat.pow_add, ← Nat.pow_add]
  congr 2
  omega

/-- Division by `2^k` is one rounding of the exact quotient; it cannot overflow (R73). -/
theorem f32Div_pow2_nearest {a : Word} {u : Int} (ha : f32Units a = some u) {k : Nat} (h1 : 1 ≤ k) (hk : k ≤ 127) :
    ∃ r, f32Nearest u ((2 ^ k : Nat) : Int) (f32Div a (f32Pow2 k)) r := by
  obtain ⟨hl, hv⟩ := f32Units_eq_some ha
  obtain ⟨m, hm, rfl⟩ := f32Unpack_of_units ha
  have hlt : m < 2 ^ 23 * 2 ^ 254 := by
    have hmag := congrArg Int.natAbs hv
    rw [signedMag_natAbs, signedMag_natAbs] at hmag
    have hp : 2 ^ (a.toNat % 2 ^ 31 / 2 ^ 23) ≤ 2 ^ 254 :=
      Nat.pow_le_pow_right (by decide) (by unfold f32InfLow at hl; omega)
    have hlt := f32Mag_lt (a.toNat % 2 ^ 31)
    omega
  have hpos : 0 < 2 ^ k * 2 ^ 149 := Nat.mul_pos (Nat.two_pow_pos k) (by decide)
  have e : f32Div a (f32Pow2 k) = f32Pack a.msb (f32RoundLow (m * 2 ^ 149) (2 ^ k * 2 ^ 149)) := by
    rw [f32Div, hm, f32Unpack_pow2 hk, f32QuotOf, if_neg hpos.ne', Bool.bne_false]
  have hr := f32RoundLow_nearest a.msb hpos (n := m * 2 ^ 149) (by
    have : 2 ^ 1 ≤ 2 ^ k := Nat.pow_le_pow_right (by decide) h1
    omega)
  rw [signedMag_mul, Nat.cast_mul] at hr
  rw [e]
  exact ⟨_, hr.of_mul (by decide)⟩

theorem f32Div_pow2_exact {u r : Int} {k : Nat} (hu : f32Value u) (hr : nearestValue u ((2 ^ k : Nat) : Int) r)
    (h : ((2 ^ (23 + k) : Nat) : Int) ≤ |u|) : u = r * ((2 ^ k : Nat) : Int) := by
  obtain ⟨v, hv, he⟩ := f32Value_div_two_pow hu h
  rw [hr.exact (by exact_mod_cast Nat.two_pow_pos k) hv he, he]

/-- Settles O40: one rounding, of a quotient that is itself a value outside the subnormal range. -/
theorem floatQuotientByPowerOfTwo : Obligations.FloatQuotientByPowerOfTwo := by
  intro a u k ha hk
  obtain ⟨h1, h8⟩ := legalK_bounds hk
  obtain ⟨r, hr⟩ := f32Div_pow2_nearest ha h1 (by omega)
  exact ⟨r, hr, f32Div_pow2_exact ⟨a, ha⟩ hr.nearestValue⟩

/-! ### NaN operands -/

/-- The free NaN, packed: exponent 255, the quiet bit, and the free payload (R74). -/
theorem f32FreeNan_eq (op : Config.FloatOp) (a b : Word) :
    f32FreeNan op a b = f32Pack (Config.nanSign op a b) (255 * 2 ^ 23 + 2 ^ 22 + (Config.nanPayload op a b).toNat) := by
  have hp := (Config.nanPayload op a b).isLt
  apply BitVec.eq_of_toNat_eq
  rw [f32Pack_toNat _ (by omega), f32FreeNan]
  simp only [toNat_append_add, toNat_ofBool, BitVec.toNat_ofNat]
  omega

theorem f32FreeNan_quiet (op : Config.FloatOp) (a b : Word) :
    f32Unpack (f32FreeNan op a b) = .nan ∧ (f32FreeNan op a b).getLsbD 22 = true := by
  have hp := (Config.nanPayload op a b).isLt
  rw [f32FreeNan_eq]
  constructor
  · rw [f32Unpack_pack _ (by omega), if_pos (by omega), if_neg (by omega)]
  · rw [getLsbD_eq_div, f32Pack_toNat _ (by omega), decide_eq_true_eq]
    omega

theorem f32SumOf_of_nan (op : Config.FloatOp) (a b : Word) {u v : F32Val} (h : u = .nan ∨ v = .nan) :
    f32SumOf op a b u v = f32FreeNan op a b := by
  rcases h with rfl | rfl
  · rfl
  · cases u <;> rfl

theorem f32QuotOf_of_nan (a b : Word) {u v : F32Val} (h : u = .nan ∨ v = .nan) :
    f32QuotOf a b u v = f32FreeNan .div a b := by
  rcases h with rfl | rfl
  · rfl
  · cases u <;> rfl

/-- Settles O41: each operation answers the free NaN, which is quiet whatever its sign and payload. -/
theorem nanOperandGivesQuietNan : Obligations.NanOperandGivesQuietNan := by
  intro a b h r hr
  have hneg : f32Unpack a = .nan ∨ (f32Unpack b).negate = .nan := h.imp_right fun hb => by rw [hb, F32Val.negate]
  rw [f32Add, f32Sub, f32Div, f32SumOf_of_nan _ a b h, f32SumOf_of_nan _ a b hneg, f32QuotOf_of_nan a b h] at hr
  simp only [List.mem_cons, List.not_mem_nil, or_false] at hr
  rcases hr with rfl | rfl | rfl <;> exact f32FreeNan_quiet _ a b

/-! ### Conversions -/

/-- The float of a sample has the sample's value (R71). -/
theorem f32OfI16_units (x : Sample) : f32Units (f32OfI16 x) = some (x.toInt * f32One) := by
  obtain ⟨hlo, hhi⟩ : -32768 ≤ x.toInt ∧ x.toInt ≤ 32767 := fits_toInt x
  have hr := f32RoundLow_nearest (decide (x.toInt < 0)) (n := x.toInt.natAbs * 2 ^ 149) (d := 1) (by decide) (by omega)
  have hv : f32Value (x.toInt * f32One) := f32Value_mul_two_pow (abs_lt.2 ⟨by omega, by omega⟩) (by decide)
  have he := hr.nearestValue.exact (by decide) hv (by
    rw [signedMag_mul, signedMag_decide_neg, Nat.cast_one, Int.mul_one, f32One])
  rw [f32OfI16, hr.1, he]

/-- Settles O38: a sample is a value, and rounding keeps values. -/
theorem sampleToFloatIsExact : Obligations.SampleToFloatIsExact := ⟨f32OfI16_units, by decide⟩

/-- Rounding to an integer moves by at most one half, and to an even integer when by exactly one half (R72). -/
theorem roundNearestEven_half (n : Nat) {d : Nat} (hd : 0 < d) :
    2 * |(n : Int) - roundNearestEven n d * d| ≤ d ∧
      (2 * |(n : Int) - roundNearestEven n d * d| = d → roundNearestEven n d % 2 = 0) := by
  have hn : (n : Int) = (n / d : Nat) * (d : Int) + (n % d : Nat) := by
    exact_mod_cast (Nat.div_add_mod' n d).symm
  have hr : n % d < d := Nat.mod_lt _ hd
  unfold roundNearestEven
  generalize n / d = q at *
  generalize n % d = r at *
  have below : (n : Int) - (q : Int) * d = r := by omega
  have above : (n : Int) - ((q + 1 : Nat) : Int) * d = r - d := by push_cast; linarith
  split
  · rw [below, Int.abs_eq_natAbs]; omega
  · split
    · rw [above, Int.abs_eq_natAbs]; omega
    · split
      · rw [below, Int.abs_eq_natAbs]; omega
      · rw [above, Int.abs_eq_natAbs]; omega

theorem clamp16_toInt (v : Int) : (clamp16 v).toInt = max (-32768) (min 32767 v) :=
  wrap_toInt_of_fits (n := 16) (by decide) (by unfold fits; omega)

/-- A finite value is rounded as a magnitude, its sign put back, and then clamped (R69). -/
theorem i16OfF32_of_units {b : Word} {v : Int} (h : f32Units b = some v) :
    ∃ j : Int, (i16OfF32 b).toInt = max (-32768) (min 32767 j) ∧ 2 * |v - j * f32One| ≤ f32One ∧
      (2 * |v - j * f32One| = f32One → j % 2 = 0) := by
  obtain ⟨m, hm, rfl⟩ := f32Unpack_of_units h
  obtain ⟨hhalf, htie⟩ := roundNearestEven_half m (d := 2 ^ 149) (by decide)
  refine ⟨signedMag b.msb (roundNearestEven m (2 ^ 149)), by rw [i16OfF32, hm]; exact clamp16_toInt _, ?_⟩
  generalize roundNearestEven m (2 ^ 149) = j at *
  have habs : |signedMag b.msb m - signedMag b.msb j * f32One| = |(m : Int) - j * ((2 ^ 149 : Nat) : Int)| := by
    cases b.msb
    · rfl
    · rw [← abs_neg, f32One]
      simp only [signedMag, if_true]
      congr 1
      ring
  rw [habs]
  refine ⟨hhalf, fun he => ?_⟩
  have := htie he
  cases b.msb <;> simp only [signedMag] <;> omega

theorem i16OfF32_of_inf {b : Word} {neg : Bool} (h : f32Unpack b = .inf neg) :
    (i16OfF32 b).toInt = if neg then -32768 else 32767 := by
  rw [i16OfF32, h]
  cases neg <;> exact clamp16_toInt _

theorem q16OfQ8_toInt (y : Word) : (q16OfQ8 y).toInt = Int.bmod (256 * y.toInt) (2 ^ 32) := by
  rw [q16OfQ8, shl, wrap_toInt, Int.mul_comm]
  rfl

/-- Settles O37: the rounded integer is nearest, so it lies in the 16-bit range exactly when the value does. -/
theorem auxiliaryConverters : Obligations.AuxiliaryConverters := by
  refine ⟨fun y => ⟨q16OfQ8_toInt y, wrap_asr_toInt (by decide) y 8⟩, fun b h => by rw [i16OfF32, h],
    fun b => i16OfF32_of_inf, fun b => i16OfF32_of_inf, fun b v h => ?_⟩
  obtain ⟨j, hj, hhalf, htie⟩ := i16OfF32_of_units h
  have hone : 0 < f32One := by decide
  obtain ⟨h1, h2⟩ := abs_le.1 (show |v - j * f32One| ≤ f32One / 2 by omega)
  have above {i : Int} (hi : i * f32One ≤ v) : i ≤ j := by
    by_contra hc
    have : (j + 1) * f32One ≤ i * f32One := Int.mul_le_mul_of_nonneg_right (by omega) hone.le
    rw [Int.add_mul, Int.one_mul] at this
    omega
  have below {i : Int} (hi : v ≤ i * f32One) : j ≤ i := by
    by_contra hc
    have : (i + 1) * f32One ≤ j * f32One := Int.mul_le_mul_of_nonneg_right (by omega) hone.le
    rw [Int.add_mul, Int.one_mul] at this
    omega
  refine ⟨fun hv => ?_, fun hv => ?_, fun hv hv' => ?_⟩
  · have := above hv
    omega
  · have := below hv
    omega
  · have hlo := above hv.le
    have hhi := below hv'.le
    rw [hj, min_eq_right hhi, max_eq_right hlo]
    exact ⟨hhalf, htie⟩

end Sys2Proof.Machine
end

section
/-! SUPPORT. The float EMA update never passes its input (R75, R84), so no NaN and no infinity is reached. -/

namespace Sys2Proof.Machine

/-! ### The float update -/

/-- A rounded difference is at most twice the difference, and halving undoes that, unless the half falls below the
normal values: there every integer up to 2^23 is a value. So the rounded increment does not pass the difference (R75). -/
theorem nearestValue_increment_le {e d q : Int} {k : Nat} (hk : 1 ≤ k) (he : 0 ≤ e) (hd : nearestValue e 1 d)
    (hq : nearestValue d ((2 ^ k : Nat) : Int) q)
    (hexact : ((2 ^ (23 + k) : Nat) : Int) ≤ |d| → d = q * ((2 ^ k : Nat) : Int)) : 0 ≤ q ∧ q ≤ e := by
  have hp : (2 : Int) ≤ ((2 ^ k : Nat) : Int) := by exact_mod_cast Nat.pow_le_pow_right (n := 2) (by decide) hk
  have hzero : f32Value 0 := f32Value_of_abs_lt (by decide)
  have hd0 : 0 ≤ d := hd.ge (by decide) hzero (by omega)
  have hq0 : 0 ≤ q := hq.ge (by omega) hzero (by omega)
  refine ⟨hq0, ?_⟩
  rcases lt_or_ge e (2 ^ 23) with hlt | hge
  · have hde : d = e := hd.exact (by decide) (f32Value_of_abs_lt (abs_lt.2 ⟨by omega, by omega⟩)) (by omega)
    exact hde ▸ hq.le (by omega) hd.1 (by nlinarith)
  · rcases le_or_gt (((2 ^ (23 + k) : Nat) : Int)) d with hbig | hsmall
    · have hde := hd.abs_le
      have hdq := hexact (by rwa [abs_of_nonneg hd0])
      rw [Int.mul_one, abs_of_nonneg hd0, abs_of_nonneg he] at hde
      nlinarith
    · refine (hq.le (by omega) (f32Value_of_abs_lt (v := 2 ^ 23) (by decide)) ?_).trans hge
      rw [Nat.pow_add] at hsmall
      push_cast at hsmall ⊢
      exact hsmall.le

/-- The same for differences of either sign. -/
theorem nearestValue_increment_between {e d q : Int} {k : Nat} (hk : 1 ≤ k) (hd : nearestValue e 1 d)
    (hq : nearestValue d ((2 ^ k : Nat) : Int) q)
    (hexact : ((2 ^ (23 + k) : Nat) : Int) ≤ |d| → d = q * ((2 ^ k : Nat) : Int)) : min 0 e ≤ q ∧ q ≤ max 0 e := by
  rcases le_total 0 e with he | he
  · have := nearestValue_increment_le hk he hd hq hexact
    omega
  · have := nearestValue_increment_le hk (e := -e) (by omega) hd.neg hq.neg fun h => by
      rw [Int.neg_mul, ← hexact (by rwa [abs_neg] at h)]
    omega

/-- A difference within the overflow threshold is a value nearest to it (R72). -/
theorem f32Sub_nearest {a b : Word} {u v : Int} (ha : f32Units a = some u) (hb : f32Units b = some v)
    (h : |u - v| < (2 ^ 25 - 1) * 2 ^ 252) : ∃ r, f32Units (f32Sub a b) = some r ∧ nearestValue (u - v) 1 r := by
  obtain ⟨-, -, -, hsub, -⟩ := floatSumsRoundToNearest a b u v ha hb
  obtain ⟨r, hr⟩ := hsub h
  exact ⟨r, hr.1, hr.nearestValue⟩

theorem f32Add_nearest {a b : Word} {u v : Int} (ha : f32Units a = some u) (hb : f32Units b = some v)
    (h : |u + v| < (2 ^ 25 - 1) * 2 ^ 252) : ∃ r, f32Units (f32Add a b) = some r ∧ nearestValue (u + v) 1 r := by
  obtain ⟨hadd, -⟩ := floatSumsRoundToNearest a b u v ha hb
  obtain ⟨r, hr⟩ := hadd h
  exact ⟨r, hr.1, hr.nearestValue⟩

theorem f32Div_pow2_units {a : Word} {u : Int} (ha : f32Units a = some u) {k : Nat} (hk : k ∈ Config.legalK) :
    ∃ r, f32Units (f32Div a (f32Pow2 k)) = some r ∧ nearestValue u ((2 ^ k : Nat) : Int) r ∧
      (((2 ^ (23 + k) : Nat) : Int) ≤ |u| → u = r * ((2 ^ k : Nat) : Int)) := by
  obtain ⟨r, hr, hexact⟩ := floatQuotientByPowerOfTwo a u k ha hk
  exact ⟨r, hr.1, hr.nearestValue, hexact⟩

/-- On values far below the overflow threshold the float update stays between accumulator and input (R75). -/
theorem emaF32_between {y input : Word} {u v : Int} {k : Nat} (hk : k ∈ Config.legalK) (hy : f32Units y = some u)
    (hi : f32Units input = some v) (hu : |u| < 2 ^ 275) (hv : |v| < 2 ^ 275) :
    ∃ w, f32Units (emaF32 y input k) = some w ∧ min u v ≤ w ∧ w ≤ max u v := by
  rw [abs_lt] at hu hv
  obtain ⟨d, hd, hdn⟩ := f32Sub_nearest hi hy (by rw [abs_lt]; omega)
  obtain ⟨q, hq, hqn, hexact⟩ := f32Div_pow2_units hd hk
  obtain ⟨hmin, hmax⟩ := nearestValue_increment_between (legalK_bounds hk).1 hdn hqn hexact
  obtain ⟨w, hw, hwn⟩ := f32Add_nearest hy hq (by rw [abs_lt]; omega)
  refine ⟨w, hw, hwn.ge (by decide) ?_ (by omega), hwn.le (by decide) ?_ (by omega)⟩
  · rcases min_choice u v with h | h <;> rw [h]
    exacts [⟨y, hy⟩, ⟨input, hi⟩]
  · rcases max_choice u v with h | h <;> rw [h]
    exacts [⟨y, hy⟩, ⟨input, hi⟩]

/-- Settles O47: the sample range is far below the overflow threshold. -/
theorem floatEmaStaysBetween : Obligations.FloatEmaStaysBetween := by
  rintro y input u v k hk ⟨u', hu, hlo, hhi⟩ ⟨v', hv, hlo', hhi'⟩ hy hi
  obtain rfl : u' = u := Option.some.inj (hu.symm.trans hy)
  obtain rfl : v' = v := Option.some.inj (hv.symm.trans hi)
  unfold f32One at *
  exact emaF32_between hk hy hi (abs_lt.2 ⟨by omega, by omega⟩) (abs_lt.2 ⟨by omega, by omega⟩)

/-! ### Values within an interval of integers -/

theorem f32Within.finite {lo hi : Int} {b : Word} (h : f32Within lo hi b) : f32Finite b := by
  obtain ⟨v, hv, -⟩ := h
  exact ⟨v, hv⟩

theorem f32Within_f32OfI16 (x : Sample) : f32Within (-32768) 32767 (f32OfI16 x) := by
  obtain ⟨hlo, hhi⟩ : -32768 ≤ x.toInt ∧ x.toInt ≤ 32767 := fits_toInt x
  refine ⟨_, f32OfI16_units x, ?_⟩
  unfold f32One
  omega

/-- An `F32` accumulator stays within the sample range (R75). -/
theorem ema_f32_within {y input : Word} {k : Nat} (hk : k ∈ Config.legalK) (hy : f32Within (-32768) 32767 y)
    (hi : f32Within (-32768) 32767 input) : f32Within (-32768) 32767 (ema .f32 y input k) := by
  obtain ⟨u, hu, hlo, hhi⟩ := hy
  obtain ⟨v, hv, hlo', hhi'⟩ := hi
  obtain ⟨w, hw, hmin, hmax⟩ := floatEmaStaysBetween y input u v k hk ⟨u, hu, hlo, hhi⟩ ⟨v, hv, hlo', hhi'⟩ hu hv
  exact ⟨w, hw, by omega, by omega⟩

/-- A difference of values of bounded magnitude is finite, and rounding at most doubles it (R72). -/
theorem f32Sub_within {m n : Int} {a b : Word} (ha : f32Within (-m) m a) (hb : f32Within (-n) n b) (hmn : m + n ≤ 2 ^ 20) :
    f32Within (-(2 * (m + n))) (2 * (m + n)) (f32Sub a b) := by
  obtain ⟨u, hu, hlo, hhi⟩ := ha
  obtain ⟨v, hv, hlo', hhi'⟩ := hb
  have hdiff : |u - v| ≤ (m + n) * f32One := abs_le.2 ⟨by linarith, by linarith⟩
  obtain ⟨r, hr, hrn⟩ := f32Sub_nearest hu hv (by unfold f32One at hdiff; omega)
  have habs := hrn.abs_le
  rw [Int.mul_one] at habs
  obtain ⟨h1, h2⟩ := abs_le.1 (habs.trans (Int.mul_le_mul_of_nonneg_left hdiff (by decide)))
  exact ⟨r, hr, by linarith, by linarith⟩

theorem f32Within.symmetric {b : Word} (h : f32Within (-32768) 32767 b) : f32Within (-32768) 32768 b := by
  obtain ⟨v, hv, hlo, hhi⟩ := h
  exact ⟨v, hv, hlo, by unfold f32One at *; omega⟩

/-! ### The float registers under `STEP` -/

theorem classOf_eq_float_iff (rep : Rep) : classOf rep = .float ↔ rep = .f32 := by
  cases rep <;> decide

/-- The visible value of a `FLOAT` tap is its accumulator (R86). -/
theorem Regs.tapVal_of_float {r : Regs} {t : Tap} (h : r.tapClass t = .float) : r.tapVal t = r.readAcc t.ch t.stage := by
  rw [Regs.tapVal, show r.tapRep t = .f32 from (classOf_eq_float_iff _).1 h, visible]

section
variable {r : Regs} {x : Sample}

/-- `STEP` keeps the `F32` accumulators finite and within the sample range (R75). -/
theorem Regs.advance_readAcc_f32Within (hv : r.cfgValid = true)
    (h : ∀ (c : Fin 6) (s : Fin 3), (r.readCh c).rep = .f32 → f32Within (-32768) 32767 (r.readAcc c s)) (c : Fin 6)
    (s : Fin 3) (hr : (r.readCh c).rep = .f32) : f32Within (-32768) 32767 ((r.advance x).readAcc c s) :=
  Regs.advance_readAcc_of_closed (rep := .f32) hv (f32Within_f32OfI16 x) (fun _ _ _ => ema_f32_within) hr
    (fun s => h c s hr) s

variable (hacc : ∀ (c : Fin 6) (s : Fin 3), (r.readCh c).rep = .f32 → f32Within (-32768) 32767 ((r.advance x).readAcc c s))
include hacc

theorem Regs.advance_tapVal_f32Within {t : Tap} (ht : r.tapClass t = .float) :
    f32Within (-32768) 32768 ((r.advance x).tapVal t) := by
  rw [Regs.tapVal_of_float (by rw [Regs.advance_tapClass, ht])]
  exact (hacc _ _ ((classOf_eq_float_iff _).1 ht)).symmetric

/-- A high-pass latch of class `FLOAT` is finite after `STEP`, if it was before (R96). -/
theorem Regs.advance_readHpout_f32Finite {h : Fin 4} {t : Tap} (hsrc : tapOfId (r.readHp h).src = some t)
    (ht : r.tapClass t = .float) (hold : f32Finite (r.readHpout h)) : f32Finite ((r.advance x).readHpout h) := by
  rw [Regs.advance_readHpout, hsrc]
  split
  · simp only [ht, combine, sampleIn]
    exact (f32Sub_within (f32Within_f32OfI16 x).symmetric (Regs.advance_tapVal_f32Within hacc ht) (by decide)).finite
  · exact hold

/-- A band-pass latch that `STEP` computes is the difference of two taps of one class (R23 clause 3, R97). -/
theorem Regs.advance_readBpout_f32Within (hv : r.cfgValid = true) {b : Fin 2} {f : Tap} (hen : (r.readBp b).en = true)
    (hfast : tapOfId (r.readBp b).fast = some f) (hf : r.tapClass f = .float) :
    f32Within (-131072) 131072 ((r.advance x).readBpout b) := by
  obtain ⟨-, -, hbp, -⟩ := r.cfgValid_iff.1 hv
  obtain ⟨-, hslow, hclass⟩ := (r.bpValid_iff b).1 (hbp b) hen
  obtain ⟨g, hg, -⟩ := (r.tapEnabled_iff _).1 hslow
  have hgc : r.tapClass g = .float := (hclass f g hfast hg).1 ▸ hf
  rw [Regs.advance_readBpout, if_pos hen, hfast, hg]
  simp only [hf, combine]
  exact f32Sub_within (Regs.advance_tapVal_f32Within hacc hf) (Regs.advance_tapVal_f32Within hacc hgc) (by decide)

/-- A band-reject latch that `STEP` computes reads the new band-pass latch (R23 clause 4, R98). -/
theorem Regs.advance_readBrout_f32Finite (hv : r.cfgValid = true) {b : Fin 2} {f : Tap}
    (hfast : tapOfId (r.readBp b).fast = some f) (hf : r.tapClass f = .float) (hold : f32Finite (r.readBrout b)) :
    f32Finite ((r.advance x).readBrout b) := by
  rw [Regs.advance_readBrout, hfast]
  split
  · obtain ⟨-, -, -, hbr, -⟩ := r.cfgValid_iff.1 hv
    have hbp := Regs.advance_readBpout_f32Within hacc hv ((r.brValid_iff b).1 (hbr b) ‹_›) hfast hf
    simp only [hf, combine, sampleIn]
    exact (f32Sub_within (f32Within_f32OfI16 x).symmetric hbp (by decide)).finite
  · exact hold

end

/-- An accepted `STEP` keeps the float registers finite (R75). -/
theorem Regs.floatsFinite_advance {r : Regs} (x : Sample) (hs : r.stale = false) (hv : r.cfgValid = true)
    (h : r.floatsFinite) : (r.advance x).setStepped.floatsFinite := by
  obtain ⟨hacc, hhp, hbp⟩ := h hs
  have hacc' := Regs.advance_readAcc_f32Within (x := x) hv hacc
  unfold Regs.floatsFinite
  simp only [Regs.setStepped_readCh, Regs.setStepped_readHp, Regs.setStepped_readBp, Regs.setStepped_tapClass,
    Regs.setStepped_readAcc, Regs.setStepped_readHpout, Regs.setStepped_readBpout, Regs.setStepped_readBrout,
    Regs.advance_readCh, Regs.advance_readHp, Regs.advance_readBp, Regs.advance_tapClass]
  refine fun _ => ⟨hacc', fun c t hsrc ht => Regs.advance_readHpout_f32Finite hacc' hsrc ht (hhp c t hsrc ht),
    fun b f hfast hf => ?_⟩
  obtain ⟨hold, hold'⟩ := hbp b f hfast hf
  refine ⟨?_, Regs.advance_readBrout_f32Finite hacc' hv hfast hf hold'⟩
  by_cases hen : (r.readBp b).en = true
  · exact (Regs.advance_readBpout_f32Within hacc' hv hen hfast hf).finite
  · rw [Regs.advance_readBpout_of_disabled x (by simpa using hen)]
    exact hold

/-- Settles O60: the float update never leaves the sample range, and differences of values in it are finite. -/
theorem stepKeepsFloatsFinite : Obligations.StepKeepsFloatsFinite := fun _ _ hi hf h =>
  step_keeps_of_select_of_advance Regs.floatsFinite (fun _ hz _ => Regs.floatsFinite_of_historyZero hz)
    (fun _ hs hf => absurd (hs.symm.trans hf) (by decide)) (fun _ _ hr => hr) (fun _ x => Regs.floatsFinite_advance x) hi hf h

end Sys2Proof.Machine
end

section
/-! SUPPORT. The EMA primitive: the law of the integer updaters with every sum reduced (R81 to R83), their convergence under
a held input (R87 a), and the stage-1 inputs (R85). -/

namespace Sys2Proof.Machine

/-! ### The law at the path width -/

theorem emaInt_law {n : Nat} (hn : 0 < n) : emaLaw (n := n) emaInt := by
  intro y input k d
  have hd : (wrap n (input.toInt - y.toInt)).toInt = d := wrap_toInt n _
  refine ⟨?_, fun hk => ?_⟩
  · rw [emaInt, wrap_toInt, rinc_one hn, hd]
  · rw [emaInt, wrap_toInt, rinc_biased hn _ hk, hd, wrap_toInt]

/-- Settles O43: the three updaters are one law at two widths, and `STEP` runs them by representation. -/
theorem integerEmaLaw : Obligations.IntegerEmaLaw :=
  ⟨emaInt_law (n := 16) (by decide), emaInt_law (n := 32) (by decide), emaInt_law (n := 32) (by decide),
    fun y input k => ⟨ema_i16 y input k, ema_q8 y input k, ema_q16 y input k⟩⟩

/-! ### Convergence with the input held -/

section
variable {n : Nat} {y input : BitVec n} {k : Nat}

/-- An update that is not at rest moves toward the input and not past it (R87 a). -/
theorem emaInt_natAbs_lt (hn : 0 < n) (hk : 1 ≤ k) (h : emaInRange n y.toInt input.toInt k) (hne : emaInt y input k ≠ y) :
    (input.toInt - (emaInt y input k).toInt).natAbs < (input.toInt - y.toInt).natAbs := by
  have hb := emaInt_between hn hk h
  have hmoved : (emaInt y input k).toInt ≠ y.toInt := mt BitVec.eq_of_toInt_eq hne
  omega

/-- An update stays in the exactness range: its difference is no larger, and on a path of 9 bits or more no legal addend
wraps by itself (R77). -/
theorem emaInRange_emaInt (hn : 9 ≤ n) (hk : k ∈ Config.legalK) (h : emaInRange n y.toInt input.toInt k) :
    emaInRange n (emaInt y input k).toInt input.toInt k := by
  have hb := emaInt_between (by omega) (legalK_bounds hk).1 h
  have ha := addend_le hk
  have hp : 2 ^ 8 ≤ 2 ^ (n - 1) := Nat.pow_le_pow_right (by decide) (by omega)
  unfold emaInRange at *
  omega

end

/-- Induction on the distance: at rest no update is needed, and any other update shortens the distance (R87 a). -/
theorem emaInt_converges {n : Nat} (hn : 9 ≤ n) : emaConverges (n := n) emaInt := by
  intro y input k hk
  have hn0 : 0 < n := by omega
  obtain ⟨hk1, -⟩ := legalK_bounds hk
  induction hD : (input.toInt - y.toInt).natAbs using Nat.strong_induction_on generalizing y with
  | h D ih =>
    intro hr
    by_cases hrest : emaInt y input k = y
    · obtain ⟨hlo, hhi⟩ := (emaInt_eq_self_iff hn0 hk1 hr).1 hrest
      refine ⟨0, Nat.zero_le _, hrest, hlo, hhi, fun j hj => ?_, fun j hj => absurd hj (Nat.not_lt_zero j)⟩
      obtain rfl := Nat.le_zero.1 hj
      exact ⟨min_le_left _ _, le_max_left _ _⟩
    · have hlt := emaInt_natAbs_lt hn0 hk1 hr hrest
      obtain ⟨hmin, hmax⟩ := emaInt_between hn0 hk1 hr
      obtain ⟨m, hm, hfix, hlo, hhi, hbetween, hnearer⟩ := ih _ (hD ▸ hlt) _ rfl (emaInRange_emaInt hn hk hr)
      refine ⟨m + 1, by omega, hfix, hlo, hhi, fun j hj => ?_, fun j hj => ?_⟩
      · cases j with
        | zero => exact ⟨min_le_left _ _, le_max_left _ _⟩
        | succ j =>
          obtain ⟨hj1, hj2⟩ := hbetween j (by omega)
          exact ⟨(le_min hmin (min_le_right _ _)).trans hj1, hj2.trans (max_le hmax (le_max_right _ _))⟩
      · cases j with
        | zero => exact hlt
        | succ j => exact hnearer j (by omega)

/-- Settles O45: the three updaters are one law at two widths, both wide enough for every legal addend. -/
theorem integerEmaConverges : Obligations.IntegerEmaConverges :=
  ⟨emaInt_converges (n := 16) (by decide), emaInt_converges (n := 32) (by decide), emaInt_converges (n := 32) (by decide)⟩

/-! ### Stage-1 inputs -/

/-- Settles O42: a stage-1 input is a converter of the sample, each exact, and `F32` runs the float law. -/
theorem stageOneInputsAndTheFloatLaw : Obligations.StageOneInputsAndTheFloatLaw :=
  ⟨fun x => ⟨sext32_toInt (by decide) x, q8OfI16_toInt x, q16OfI16_toInt x, f32OfI16_units x⟩, ema_f32⟩

end Sys2Proof.Machine
end

section
/-! SUPPORT. The low-pass cascades of an accepted `STEP`, stage by stage (R91). -/

namespace Sys2Proof.Machine

theorem Regs.stageEnabled_eq_false_iff (r : Regs) (c : Fin 6) (s : Fin 3) :
    r.stageEnabled c s = false ↔ (r.readCh c).en = false ∨ (r.readCh c).order.toNat < s.val + 1 := by
  rw [← Bool.not_eq_true, r.stageEnabled_iff, not_and_or, Bool.not_eq_true, not_le]

/-- Settles O15: phases 1 and 2 run in order, so a later stage reads the new value below it, and no other phase writes an
accumulator. -/
theorem stepUpdatesTheCascades : Obligations.StepUpdatesTheCascades := by
  intro x s hs hv
  obtain ⟨h0, h1, h2, -⟩ := s.regs.advance_spec x
  refine ⟨_, execStep_of_valid x hs hv, rfl, rfl, fun c =>
    ⟨fun he => ?_, fun he ho => ?_, fun he ho => ?_, fun g hd => ?_⟩⟩
  · simpa [he] using h0 c
  · simpa [(s.regs.stageEnabled_iff c 1).2 ⟨he, ho⟩] using h1 c
  · simpa [(s.regs.stageEnabled_iff c 2).2 ⟨he, ho⟩] using h2 c
  · simpa using Regs.advance_readAcc_of_disabled hv x ((s.regs.stageEnabled_eq_false_iff c g).2 hd)

end Sys2Proof.Machine
end

section
/-! SUPPORT. The derived filters of an accepted `STEP`: what each enabled combiner puts in its latch (R95 to R98), and the
range of an updated integer tap, in which no combiner of the sample wraps (R99). -/

namespace Sys2Proof.Machine

/-! ### A combiner in each class -/

theorem combine_int (a b : Word) : combine .int a b = wrap 32 (a.toInt - b.toInt) := rfl

theorem combine_float (a b : Word) : combine .float a b = f32Sub a b := rfl

/-- A combiner of class `INT` reads the sample by its value (R96, R98). -/
theorem combine_int_sampleIn (x : Sample) (w : Word) : combine .int (sampleIn .int x) w = wrap 32 (x.toInt - w.toInt) := by
  rw [combine_int, sampleIn, sext32_toInt (by decide)]

theorem combine_float_sampleIn (x : Sample) (w : Word) : combine .float (sampleIn .float x) w = f32Sub (f32OfI16 x) w := rfl

/-- A value that fits a width fits every larger one. -/
theorem fits_mono {m n : Nat} {v : Int} (hmn : m ≤ n) (h : fits m v) : fits n v := by
  have hp : 2 ^ (m - 1) ≤ 2 ^ (n - 1) := Nat.pow_le_pow_right (by decide) (by omega)
  unfold fits at *
  omega

/-- A sample less a value of 25 bits fits the word, so adding the value back gives the sample (R99). -/
theorem wrap_sample_sub_add {v : Int} (x : Sample) (h : fits 25 v) : (wrap 32 (x.toInt - v)).toInt + v = x.toInt := by
  obtain ⟨hxlo, hxhi⟩ : -32768 ≤ x.toInt ∧ x.toInt ≤ 32767 := fits_toInt x
  obtain ⟨hlo, hhi⟩ : -16777216 ≤ v ∧ v ≤ 16777215 := h
  have hf : fits 32 (x.toInt - v) := by
    show -2147483648 ≤ x.toInt - v ∧ x.toInt - v ≤ 2147483647
    omega
  rw [wrap_toInt_of_fits (by decide) hf, Int.sub_add_cancel]

/-! ### The source taps of a valid configuration -/

section
variable {r : Regs} {x : Sample}

/-- The source of an enabled high-pass is an enabled tap (R23 clause 2). -/
theorem Regs.hp_src_of_cfgValid (hv : r.cfgValid = true) {h : Fin 4} (he : (r.readHp h).en = true) :
    ∃ t, tapOfId (r.readHp h).src = some t ∧ r.stageEnabled t.ch t.stage = true := by
  obtain ⟨-, hhp, -⟩ := r.cfgValid_iff.1 hv
  exact (r.tapEnabled_iff _).1 ((r.hpValid_iff h).1 (hhp h) he)

/-- The sources of an enabled band-pass are two enabled taps of one class (R23 clause 3). -/
theorem Regs.bp_taps_of_cfgValid (hv : r.cfgValid = true) {b : Fin 2} (he : (r.readBp b).en = true) :
    ∃ f g, tapOfId (r.readBp b).fast = some f ∧ tapOfId (r.readBp b).slow = some g ∧
      r.stageEnabled f.ch f.stage = true ∧ r.stageEnabled g.ch g.stage = true ∧ r.tapClass g = r.tapClass f := by
  obtain ⟨-, -, hbp, -⟩ := r.cfgValid_iff.1 hv
  obtain ⟨hfast, hslow, hclass⟩ := (r.bpValid_iff b).1 (hbp b) he
  obtain ⟨f, hf, hfe⟩ := (r.tapEnabled_iff _).1 hfast
  obtain ⟨g, hg, hge⟩ := (r.tapEnabled_iff _).1 hslow
  exact ⟨f, g, hf, hg, hfe, hge, (hclass f g hf hg).1.symm⟩

/-- An enabled band-reject stands on an enabled band-pass (R23 clause 4). -/
theorem Regs.bp_en_of_brEn (hv : r.cfgValid = true) {b : Fin 2} (he : (r.readBp b).brEn = true) : (r.readBp b).en = true := by
  obtain ⟨-, -, -, hbr, -⟩ := r.cfgValid_iff.1 hv
  exact (r.brValid_iff b).1 (hbr b) he

/-! ### The latch an enabled combiner writes -/

theorem Regs.advance_readHpout_of_src {h : Fin 4} {t : Tap} (he : (r.readHp h).en = true)
    (ht : tapOfId (r.readHp h).src = some t) :
    (r.advance x).readHpout h = combine (r.tapClass t) (sampleIn (r.tapClass t) x) ((r.advance x).tapVal t) := by
  rw [Regs.advance_readHpout, if_pos he, ht]

theorem Regs.advance_readBpout_of_taps {b : Fin 2} {f g : Tap} (he : (r.readBp b).en = true)
    (hf : tapOfId (r.readBp b).fast = some f) (hg : tapOfId (r.readBp b).slow = some g) :
    (r.advance x).readBpout b = combine (r.tapClass f) ((r.advance x).tapVal f) ((r.advance x).tapVal g) := by
  rw [Regs.advance_readBpout, if_pos he, hf, hg]

theorem Regs.advance_readBrout_of_fast {b : Fin 2} {f : Tap} (he : (r.readBp b).brEn = true)
    (hf : tapOfId (r.readBp b).fast = some f) :
    (r.advance x).readBrout b = combine (r.tapClass f) (sampleIn (r.tapClass f) x) ((r.advance x).readBpout b) := by
  rw [Regs.advance_readBrout, if_pos he, hf]

/-- The visible value `STEP` leaves in a `FLOAT` tap is the new accumulator (R86). -/
theorem Regs.advance_tapVal_of_float {t : Tap} (ht : r.tapClass t = .float) :
    (r.advance x).tapVal t = (r.advance x).readAcc t.ch t.stage :=
  Regs.tapVal_of_float (by rw [Regs.advance_tapClass, ht])

end

/-- Settles O16: phase 3 reads the taps phases 1 and 2 leave, and the source of an enabled high-pass is one of them. -/
theorem stepComputesHighPass : Obligations.StepComputesHighPass := by
  intro x s hs hv
  refine ⟨_, execStep_of_valid x hs hv, rfl, fun h =>
    ⟨fun he => ?_, fun he => by simpa using Regs.advance_readHpout_of_disabled x he⟩⟩
  obtain ⟨p, hp, -⟩ := Regs.hp_src_of_cfgValid hv he
  have hout := Regs.advance_readHpout_of_src (x := x) he hp
  refine ⟨p, hp, fun hc => ?_, fun hc => ?_⟩
  · simpa [hc, combine_int_sampleIn] using hout
  · simpa [hc, combine_float_sampleIn, Regs.advance_tapVal_of_float hc] using hout

/-- Settles O17: both taps of an enabled band-pass have one class, and its band-reject reads the new band-pass latch. -/
theorem stepComputesBandPassAndReject : Obligations.StepComputesBandPassAndReject := by
  intro x s hs hv
  refine ⟨_, execStep_of_valid x hs hv, rfl, fun b =>
    ⟨fun he => ?_, fun he => by simpa using Regs.advance_readBpout_of_disabled x he,
      fun he => ?_, fun he => by simpa using Regs.advance_readBrout_of_disabled x he⟩⟩
  · obtain ⟨f, g, hf, hg, -, -, hgf⟩ := Regs.bp_taps_of_cfgValid hv he
    have hout := Regs.advance_readBpout_of_taps (x := x) he hf hg
    refine ⟨f, g, hf, hg, fun hc => ?_, fun hc => ?_⟩
    · simpa [hc, combine_int] using hout
    · simpa [hc, combine_float, Regs.advance_tapVal_of_float hc, Regs.advance_tapVal_of_float (hgf.trans hc)] using hout
  · obtain ⟨f, -, hf, -⟩ := Regs.bp_taps_of_cfgValid hv (Regs.bp_en_of_brEn hv he)
    have hout := Regs.advance_readBrout_of_fast (x := x) he hf
    refine ⟨f, hf, fun hc => ?_, fun hc => ?_⟩
    · simpa [hc, combine_int_sampleIn] using hout
    · simpa [hc, combine_float_sampleIn] using hout

/-! ### Reconstruction in class `INT` -/

/-- The visible value of an integer tap fits 24 bits: `Q8_8` has the widest, a word shifted right by 8 (R86). -/
theorem fits_visible {rep : Rep} {a : Word} (hc : classOf rep = .int) (h16 : rep = .i16 → fits16 a) :
    fits 24 (visible rep a).toInt := by
  obtain ⟨hlo, hhi⟩ : -2147483648 ≤ a.toInt ∧ a.toInt ≤ 2147483647 := fits_toInt a
  show -8388608 ≤ _ ∧ _ ≤ 8388607
  cases rep with
  | i16 =>
    obtain ⟨h1, h2⟩ : -32768 ≤ (a.setWidth 16).toInt ∧ (a.setWidth 16).toInt ≤ 32767 := fits_toInt _
    rw [fits16_toInt (h16 rfl)] at h1 h2
    rw [visible]
    omega
  | q8_8 =>
    have e : (visible .q8_8 a).toInt = a.toInt / 256 := wrap_asr_toInt (by decide) a 8
    omega
  | q16_16 =>
    have e : (visible .q16_16 a).toInt = a.toInt / 65536 := wrap_asr_toInt (by decide) a 16
    omega
  | f32 => cases hc

section
variable {r : Regs} {x : Sample}

/-- An enabled stage of representation `I16` holds a 16-bit value after `STEP`, whatever it held before (R81). -/
theorem Regs.advance_readAcc_fits16_of_enabled (hv : r.cfgValid = true) {c : Fin 6} {s : Fin 3}
    (he : r.stageEnabled c s = true) (hr : (r.readCh c).rep = .i16) : fits16 ((r.advance x).readAcc c s) := by
  obtain ⟨input, ha⟩ := r.advance_readAcc hv x c s
  rw [ha, if_pos he, hr, ema_i16]
  exact fits16_sext32 _

theorem Regs.advance_tapVal_fits (hv : r.cfgValid = true) {t : Tap} (he : r.stageEnabled t.ch t.stage = true)
    (hc : r.tapClass t = .int) : fits 24 ((r.advance x).tapVal t).toInt := by
  rw [Regs.tapVal, Regs.advance_tapRep]
  exact fits_visible hc (Regs.advance_readAcc_fits16_of_enabled hv he)

/-- A band-pass latch of class `INT` is the difference of two 24-bit values (R97). -/
theorem Regs.advance_readBpout_fits (hv : r.cfgValid = true) {b : Fin 2} {f : Tap} (he : (r.readBp b).en = true)
    (hf : tapOfId (r.readBp b).fast = some f) (hc : r.tapClass f = .int) : fits 25 ((r.advance x).readBpout b).toInt := by
  obtain ⟨f', g, hf', hg, hfe, hge, hgf⟩ := Regs.bp_taps_of_cfgValid hv he
  obtain rfl := Option.some.inj (hf'.symm.trans hf)
  have h1 := Regs.advance_tapVal_fits (x := x) hv hfe hc
  have h2 := Regs.advance_tapVal_fits (x := x) hv hge (hgf.trans hc)
  have h25 : fits 25 (((r.advance x).tapVal f').toInt - ((r.advance x).tapVal g).toInt) := by
    unfold fits at *
    omega
  rwa [Regs.advance_readBpout_of_taps he hf hg, hc, combine_int, wrap_toInt_of_fits (by decide) (fits_mono (by decide) h25)]

/-- A high-pass of class `INT` and its tap give the sample: the tap is enabled, so `STEP` updates it (R99). -/
theorem Regs.advance_readHpout_add_tapVal (hv : r.cfgValid = true) {h : Fin 4} {t : Tap} (he : (r.readHp h).en = true)
    (ht : tapOfId (r.readHp h).src = some t) (hc : r.tapClass t = .int) :
    ((r.advance x).readHpout h).toInt + ((r.advance x).tapVal t).toInt = x.toInt := by
  obtain ⟨t', ht', hte⟩ := Regs.hp_src_of_cfgValid hv he
  obtain rfl := Option.some.inj (ht'.symm.trans ht)
  rw [Regs.advance_readHpout_of_src he ht, hc, combine_int_sampleIn]
  exact wrap_sample_sub_add x (fits_mono (by decide) (Regs.advance_tapVal_fits hv hte hc))

/-- A band-reject of class `INT` and its band-pass give the sample (R99). -/
theorem Regs.advance_readBrout_add_readBpout (hv : r.cfgValid = true) {b : Fin 2} {f : Tap}
    (he : (r.readBp b).brEn = true) (hf : tapOfId (r.readBp b).fast = some f) (hc : r.tapClass f = .int) :
    ((r.advance x).readBrout b).toInt + ((r.advance x).readBpout b).toInt = x.toInt := by
  rw [Regs.advance_readBrout_of_fast he hf, hc, combine_int_sampleIn]
  exact wrap_sample_sub_add x (Regs.advance_readBpout_fits hv (Regs.bp_en_of_brEn hv he) hf hc)

end

/-- Settles O20: validity makes every source an updated tap, whose visible value and whose differences are far below the
32-bit boundary, so no combiner of the sample wraps. -/
theorem integerReconstruction : Obligations.IntegerReconstruction := by
  intro x s t hs hv h
  obtain rfl := Host.Outcome.next.inj ((execStep_of_valid x hs hv).symm.trans h)
  exact ⟨fun c p he hp hc => by simpa using Regs.advance_readHpout_add_tapVal hv he hp hc,
    fun b f he hf hc => by simpa using Regs.advance_readBrout_add_readBpout hv he hf hc⟩

end Sys2Proof.Machine
end

section
/-! SUPPORT. The biquad of an accepted `STEP`: the three lines of each variant (R101, R102), the corner coefficients of the
`Q8.8` variant, and where both variants are the recurrence over the integers (R105). -/

namespace Sys2Proof.Machine

/-! ### The registers an enabled biquad leaves -/

section
variable {r : Regs} (x : Sample)

theorem Regs.phase4_of_q8Mul (he : r.bq.en = true) (hv : r.bq.variant = .q8Mul) : r.phase4 x = r.biquad32 x := by
  rw [Regs.phase4, if_pos he, hv]

/-- Variant `I16_SHIFT`: each line reads the 16-bit results of the lines before it (R101). -/
theorem Regs.advance_biquad_of_i16Shift (he : r.bq.en = true) (hv : r.bq.variant = .i16Shift) :
    ∃ h b l : BitVec 16,
      h = biquadHigh16 x (r.bqBand.setWidth 16) (r.bqLow.setWidth 16) ∧
      b = integrate16 (r.bqBand.setWidth 16) h r.bq.alpha.toNat ∧
      l = integrate16 (r.bqLow.setWidth 16) b r.bq.alpha.toNat ∧
      (r.advance x).bqHigh = sext32 h ∧ (r.advance x).bqBand = sext32 b ∧ (r.advance x).bqLow = sext32 l := by
  have ha := r.advance_biquad x
  rw [Regs.phase4_of_i16Shift he hv] at ha
  exact ⟨_, _, _, rfl, rfl, rfl, ha⟩

/-- Variant `Q8_8_MUL`: band reads the new high, low the new band (R102). -/
theorem Regs.advance_biquad_of_q8Mul (he : r.bq.en = true) (hv : r.bq.variant = .q8Mul) :
    (r.advance x).bqHigh = biquadHigh32 x r.bqBand r.bqLow r.bq.damp.toNat ∧
      (r.advance x).bqBand = integrate32 r.bqBand (r.advance x).bqHigh r.bq.alpha.toNat ∧
      (r.advance x).bqLow = integrate32 r.bqLow (r.advance x).bqBand r.bq.alpha.toNat := by
  obtain ⟨eh, eb, el⟩ := r.advance_biquad x
  rw [eh, eb, el, Regs.phase4_of_q8Mul x he hv]
  exact ⟨rfl, rfl, rfl⟩

/-- The coefficients of an enabled `Q8.8` biquad are at most 1.0 (R23 clause 6). -/
theorem Regs.bq_coef_le_of_cfgValid (hcfg : r.cfgValid = true) (he : r.bq.en = true) (hv : r.bq.variant = .q8Mul) :
    r.bq.alpha.toNat ≤ 256 ∧ r.bq.damp.toNat ≤ 256 := by
  obtain ⟨-, -, -, -, hbq⟩ := r.cfgValid_iff.1 hcfg
  exact (r.bqValid_iff.1 hbq).2 he hv

end

/-- An accepted `STEP` answers `OK` and leaves in the biquad's registers what the four phases do (R111). -/
theorem exec_step_biquad (x : Sample) {s : State} (hs : s.regs.stale = false) (hcfg : s.regs.cfgValid = true) :
    ∃ t, exec (.step x) s = .next t ∧ t.rsp = some ⟨.ok, 0#32⟩ ∧ t.regs.bqHigh = (s.regs.advance x).bqHigh ∧
      t.regs.bqBand = (s.regs.advance x).bqBand ∧ t.regs.bqLow = (s.regs.advance x).bqLow :=
  ⟨_, execStep_of_valid x hs hcfg, rfl, Regs.setStepped_bqHigh _, Regs.setStepped_bqBand _,
    Regs.setStepped_bqLow _⟩

/-- The widened sample is 256 times the sample, so the high-pass line reads it by value (R62, R102). -/
theorem biquadHigh32_eq (x : Sample) (band low : Word) (damp : Nat) :
    biquadHigh32 x band low damp = wrap 32 (256 * x.toInt - (mulrs8 band damp).toInt - low.toInt) := by
  rw [biquadHigh32, q8OfI16_toInt]

/-- Settles O18: phase 4 alone writes the biquad's registers, by the lines of its variant. -/
theorem stepUpdatesTheBiquad : Obligations.StepUpdatesTheBiquad := by
  intro x s hs hcfg
  obtain ⟨t, ht, hok, rh, rb, rl⟩ := exec_step_biquad x hs hcfg
  refine ⟨t, ht, hok, ?_⟩
  rw [rh, rb, rl]
  refine ⟨Regs.advance_biquad_of_i16Shift x, fun he hv => ?_, fun he => Regs.advance_biquad_of_disabled he x⟩
  rw [← biquadHigh32_eq]
  exact Regs.advance_biquad_of_q8Mul x he hv

/-! ### The corner coefficients -/

theorem mulrs8_256 (v : Word) : mulrs8 v 256 = v := (roundedMultiply v 256 (by decide)).2.1

theorem mulrs8_zero (v : Word) : mulrs8 v 0 = 0#32 := (roundedMultiply v 0 (by decide)).2.2

/-- Damping 1.0: the recurrence without a damping multiplier (R102). -/
theorem biquadHigh32_damp_256 (x : Sample) (band low : Word) :
    (biquadHigh32 x band low 256).toInt = Int.bmod (256 * x.toInt - band.toInt - low.toInt) (2 ^ 32) := by
  rw [biquadHigh32_eq, mulrs8_256, wrap_toInt]

/-- Damping 0: no band-pass feedback (R102). -/
theorem biquadHigh32_damp_zero (x : Sample) (band low : Word) :
    (biquadHigh32 x band low 0).toInt = Int.bmod (256 * x.toInt - low.toInt) (2 ^ 32) := by
  rw [biquadHigh32_eq, mulrs8_zero, wrap_toInt, BitVec.toInt_zero, Int.sub_zero]

/-- Alpha 0 freezes an integrator (R102). -/
theorem integrate32_zero (acc v : Word) : integrate32 acc v 0 = acc := by
  rw [integrate32, mulrs8_zero, BitVec.toInt_zero, Int.add_zero, wrap_toInt_self]

/-- Alpha 1.0 adds the input whole (R102). -/
theorem integrate32_256 (acc v : Word) : integrate32 acc v 256 = acc + v := by
  apply BitVec.eq_of_toInt_eq
  rw [integrate32, mulrs8_256, wrap_toInt, BitVec.toInt_add]

/-- Settles O21: each corner is a corner of the rounded multiply in one of the lines of R102. -/
theorem biquadDampingCorners : Obligations.BiquadDampingCorners := by
  intro x s hs hcfg he hv
  obtain ⟨t, ht, -, rh, rb, rl⟩ := exec_step_biquad x hs hcfg
  obtain ⟨eh, eb, el⟩ := Regs.advance_biquad_of_q8Mul x he hv
  rw [← rh] at eh eb
  rw [← rb] at eb el
  rw [← rl] at el
  refine ⟨t, ht, fun hd => ?_, fun hd => ?_, fun ha => ?_, fun ha => ?_⟩
  · rw [eh, hd]
    exact biquadHigh32_damp_256 x _ _
  · rw [eh, hd]
    exact biquadHigh32_damp_zero x _ _
  · rw [ha] at eb el
    exact ⟨eb.trans (integrate32_zero _ _), el.trans (integrate32_zero _ _)⟩
  · rw [ha] at eb el
    exact ⟨eb.trans (integrate32_256 _ _), el.trans (integrate32_256 _ _)⟩

/-! ### Exactness in range -/

/-- The rounded shift is the integer one when its addend does not wrap (R66, R105). -/
theorem rshr_toInt_of_fits {n : Nat} (hn : 0 < n) (v : BitVec n) {s : Nat} (h : fits n (v.toInt + rshrAddend s)) :
    (rshr v s).toInt = rshrExact v.toInt s := by
  unfold rshrAddend at h
  unfold rshrExact
  split at h
  next hs => rw [hs, rshr_zero, if_pos rfl]
  next hs => rw [rshr_biased hn v (by omega), wrap_toInt_of_fits hn h, if_neg hs]

theorem integrate16_toInt_of_fits {acc v : BitVec 16} {s : Nat} (ha : fits 16 (v.toInt + rshrAddend s))
    (h : fits 16 (acc.toInt + rshrExact v.toInt s)) : (integrate16 acc v s).toInt = acc.toInt + rshrExact v.toInt s := by
  rw [integrate16, rshr_toInt_of_fits (by decide) v ha, wrap_toInt_of_fits (by decide) h]

/-- The rounded multiply by a coefficient up to 1.0 never wraps, so only the sum has to fit (R67, R105). -/
theorem integrate32_toInt_of_fits {acc v : Word} {alpha : Nat} (ha : alpha ≤ 256)
    (h : fits 32 (acc.toInt + mulExact v.toInt alpha)) :
    (integrate32 acc v alpha).toInt = acc.toInt + mulExact v.toInt alpha := by
  rw [integrate32, mulrs8_toInt v ha]
  exact wrap_toInt_of_fits (by decide) h

theorem biquadHigh32_toInt_of_fits {x : Sample} {band low : Word} {damp : Nat} (hd : damp ≤ 256)
    (h : fits 32 (256 * x.toInt - mulExact band.toInt damp - low.toInt)) :
    (biquadHigh32 x band low damp).toInt = 256 * x.toInt - mulExact band.toInt damp - low.toInt := by
  rw [biquadHigh32_eq, mulrs8_toInt band hd]
  exact wrap_toInt_of_fits (by decide) h

/-- The three lines of R101 in range, each exact because the lines before it are (R105). -/
theorem biquad16_toInt_of_inRange {x : Sample} {band low h b l : BitVec 16} {s : Nat} (eh : h = biquadHigh16 x band low)
    (eb : b = integrate16 band h s) (el : l = integrate16 low b s)
    (hin : biquad16InRange x.toInt band.toInt low.toInt s) :
    (h.toInt, b.toInt, l.toInt) = biquad16Exact x.toInt band.toInt low.toInt s := by
  simp only [biquad16InRange, biquad16Exact] at hin ⊢
  obtain ⟨fitsH, fitsHAdd, fitsB, fitsBAdd, fitsL⟩ := hin
  have hh : h.toInt = x.toInt - band.toInt - low.toInt := by rw [eh]; exact wrap_toInt_of_fits (by decide) fitsH
  rw [← hh] at fitsHAdd fitsB fitsBAdd fitsL ⊢
  have hb : b.toInt = band.toInt + rshrExact h.toInt s := by rw [eb]; exact integrate16_toInt_of_fits fitsHAdd fitsB
  rw [← hb] at fitsBAdd fitsL ⊢
  have hl : l.toInt = low.toInt + rshrExact b.toInt s := by rw [el]; exact integrate16_toInt_of_fits fitsBAdd fitsL
  rw [hl]

/-- The three lines of R102 in range (R105). -/
theorem biquad32_toInt_of_inRange {x : Sample} {band low h b l : Word} {alpha damp : Nat} (ha : alpha ≤ 256)
    (hd : damp ≤ 256) (eh : h = biquadHigh32 x band low damp) (eb : b = integrate32 band h alpha)
    (el : l = integrate32 low b alpha) (hin : biquad32InRange x.toInt band.toInt low.toInt alpha damp) :
    (h.toInt, b.toInt, l.toInt) = biquad32Exact x.toInt band.toInt low.toInt alpha damp := by
  simp only [biquad32InRange, biquad32Exact] at hin ⊢
  obtain ⟨fitsH, fitsB, fitsL⟩ := hin
  have hh : h.toInt = 256 * x.toInt - mulExact band.toInt damp - low.toInt := by
    rw [eh]; exact biquadHigh32_toInt_of_fits hd fitsH
  rw [← hh] at fitsB fitsL ⊢
  have hb : b.toInt = band.toInt + mulExact h.toInt alpha := by rw [eb]; exact integrate32_toInt_of_fits ha fitsB
  rw [← hb] at fitsL ⊢
  have hl : l.toInt = low.toInt + mulExact b.toInt alpha := by rw [el]; exact integrate32_toInt_of_fits ha fitsL
  rw [hl]

/-- Settles O22: in range no line wraps, and validity bounds the coefficients of the multiplies. -/
theorem biquadExactInRange : Obligations.BiquadExactInRange := by
  intro x s hs hcfg he
  obtain ⟨t, ht, -, rh, rb, rl⟩ := exec_step_biquad x hs hcfg
  refine ⟨t, ht, ?_⟩
  rw [rh, rb, rl]
  refine ⟨fun hv hin => ?_, fun hv hin => ?_⟩
  · obtain ⟨h, b, l, eh, eb, el, wh, wb, wl⟩ := Regs.advance_biquad_of_i16Shift x he hv
    rw [wh, wb, wl, sext32_toInt (by decide), sext32_toInt (by decide), sext32_toInt (by decide)]
    exact biquad16_toInt_of_inRange eh eb el hin
  · obtain ⟨ha, hd⟩ := Regs.bq_coef_le_of_cfgValid hcfg he hv
    obtain ⟨eh, eb, el⟩ := Regs.advance_biquad_of_q8Mul x he hv
    exact biquad32_toInt_of_inRange ha hd eh eb el hin

end Sys2Proof.Machine
end

section
/-! SUPPORT. While results may be read, the units that are off hold 0 (R111) and the configuration is valid (R114), after
every step. -/

namespace Sys2Proof.Machine

/-- An accepted `STEP` leaves the registers of disabled units alone, so they stay 0 (R111). -/
theorem Regs.idleZero_advance {r : Regs} (x : Sample) (hs : r.stale = false) (hv : r.cfgValid = true)
    (h : r.idleZero) : (r.advance x).setStepped.idleZero := by
  obtain ⟨hacc, hhp, hbp, hbr, hbq⟩ := h hs
  unfold Regs.idleZero
  simp only [Regs.setStepped_stageEnabled, Regs.setStepped_readHp, Regs.setStepped_readBp, Regs.setStepped_bq,
    Regs.setStepped_readAcc, Regs.setStepped_readHpout, Regs.setStepped_readBpout, Regs.setStepped_readBrout,
    Regs.setStepped_bqLow, Regs.setStepped_bqBand, Regs.setStepped_bqHigh,
    Regs.advance_stageEnabled, Regs.advance_readHp, Regs.advance_readBp, Regs.advance_bq]
  refine fun _ => ⟨fun c g he => ?_, fun c he => ?_, fun b he => ?_, fun b he => ?_, fun he => ?_⟩
  · rw [Regs.advance_readAcc_of_disabled hv x he, hacc c g he]
  · rw [Regs.advance_readHpout_of_disabled x he, hhp c he]
  · rw [Regs.advance_readBpout_of_disabled x he, hbp b he]
  · rw [Regs.advance_readBrout_of_disabled x he, hbr b he]
  · obtain ⟨eh, eb, el⟩ := Regs.advance_biquad_of_disabled he x
    rw [eh, eb, el]
    exact hbq he

/-- Settles O57: an accepted `STEP` writes registers of enabled units only, and a configuration command that turns a unit
off finds its registers zero or makes them stale. -/
theorem stepKeepsIdleUnitsZero : Obligations.StepKeepsIdleUnitsZero := fun _ _ hi hz h =>
  step_keeps_of_select_of_advance Regs.idleZero (fun _ hz _ => Regs.idleZero_of_historyZero hz)
    (fun _ hs hf => absurd (hs.symm.trans hf) (by decide)) (fun _ _ hr => hr) (fun _ x => Regs.idleZero_advance x) hi hz h

/-- `STEP` is accepted only under a valid configuration, and keeps it (R111). -/
theorem Regs.readableValid_advance {r : Regs} (x : Sample) (hv : r.cfgValid = true) :
    (r.advance x).setStepped.readableValid := fun _ _ => by
  rw [Regs.setStepped_cfgValid, Regs.advance_cfgValid, hv]

/-- Settles O58: only an accepted `STEP` sets `STEPPED`, and any change of the configuration after it sets `STALE`. -/
theorem stepKeepsReadableConfigValid : Obligations.StepKeepsReadableConfigValid := fun _ _ hi hr h =>
  step_keeps_of_select_of_advance Regs.readableValid
    (fun _ _ hz _ hst => absurd (hz.symm.trans hst) (by decide)) (fun _ hs hf => absurd (hs.symm.trans hf) (by decide))
    (fun _ _ hr => hr) (fun _ x _ hv _ => Regs.readableValid_advance x hv) hi hr h

end Sys2Proof.Machine
end

section
/-! SUPPORT. The reads `GETVAL` and `GETSEL`, and the two commands that write no filter's configuration, `RESET` and
`SELECT` (R112 to R115). -/

namespace Sys2Proof.Machine

/-! ### Visible values -/

theorem intOfQ8_toInt (y : Word) : (intOfQ8 y).toInt = y.toInt / 256 := wrap_asr_toInt (by decide) y 8

theorem intOfQ16_toInt (y : Word) : (intOfQ16 y).toInt = y.toInt / 65536 := wrap_asr_toInt (by decide) y 16

/-- The accumulator behind a visible value, in each representation (R86). -/
theorem visible_spec (rep : Rep) (a : Word) :
    (rep = .i16 → visible rep a = a) ∧ (rep = .q8_8 → (visible rep a).toInt = a.toInt / 256) ∧
      (rep = .q16_16 → (visible rep a).toInt = a.toInt / 65536) ∧ (rep = .f32 → visible rep a = a) := by
  refine ⟨?_, ?_, ?_, ?_⟩ <;> rintro rfl
  · rfl
  · exact intOfQ8_toInt a
  · exact intOfQ16_toInt a
  · rfl

section
variable (r : Regs) {id : BitVec 5}

theorem Regs.biquadVal_of_i16Shift (hv : r.bq.variant = .i16Shift) (w : Word) : r.biquadVal w = w := by
  rw [Regs.biquadVal, hv]

theorem Regs.biquadVal_of_q8Mul (hv : r.bq.variant = .q8Mul) (w : Word) : (r.biquadVal w).toInt = w.toInt / 256 := by
  rw [Regs.biquadVal, hv]
  exact intOfQ8_toInt w

/-! ### The rows of the table of R114 -/

theorem Regs.value_tap {c : Fin 6} {g : Fin 3} (hi : id.toNat = 3 * c.val + g.val) :
    r.value id = visible (r.readCh c).rep (r.readAcc c g) := by
  rw [Regs.value, filterOfId_of_tap (tapOfId_eq_some_iff (t := ⟨c, g⟩).2 hi)]
  rfl

theorem Regs.value_hp {h : Fin 4} (hi : id.toNat = 18 + h.val) : r.value id = r.readHpout h := by
  rw [Regs.value, filterOfId_of_toNat hi, filterOfId_hp]

theorem Regs.value_bp {b : Fin 2} (hi : id.toNat = 22 + b.val) : r.value id = r.readBpout b := by
  rw [Regs.value, filterOfId_of_toNat hi, filterOfId_bp]

theorem Regs.value_br {b : Fin 2} (hi : id.toNat = 24 + b.val) : r.value id = r.readBrout b := by
  rw [Regs.value, filterOfId_of_toNat hi, filterOfId_br]

theorem Regs.value_bqLow (hi : id.toNat = 26) : r.value id = r.biquadVal r.bqLow := by
  rw [Regs.value, filterOfId_of_toNat hi]
  rfl

theorem Regs.value_bqBand (hi : id.toNat = 27) : r.value id = r.biquadVal r.bqBand := by
  rw [Regs.value, filterOfId_of_toNat hi]
  rfl

theorem Regs.value_bqHigh (hi : id.toNat = 28) : r.value id = r.biquadVal r.bqHigh := by
  rw [Regs.value, filterOfId_of_toNat hi]
  rfl

end

/-! ### The commands -/

/-- Settles O26, row by row of the table of R114. -/
theorem getvalReturnsTheVisibleValue : Obligations.GetvalReturnsTheVisibleValue := by
  intro id s hs ht he
  refine ⟨s.regs.value id, execGetval_of_enabled id hs ht he, fun c g hi => ?_, fun _ => s.regs.value_hp,
    fun _ => s.regs.value_bp, fun _ => s.regs.value_br,
    fun hv => ⟨fun hi => ?_, fun hi => ?_, fun hi => ?_⟩, fun hv => ⟨fun hi => ?_, fun hi => ?_, fun hi => ?_⟩⟩
  · rw [s.regs.value_tap hi]; exact visible_spec _ _
  · rw [s.regs.value_bqLow hi, s.regs.biquadVal_of_i16Shift hv]
  · rw [s.regs.value_bqBand hi, s.regs.biquadVal_of_i16Shift hv]
  · rw [s.regs.value_bqHigh hi, s.regs.biquadVal_of_i16Shift hv]
  · rw [s.regs.value_bqLow hi, s.regs.biquadVal_of_q8Mul hv]
  · rw [s.regs.value_bqBand hi, s.regs.biquadVal_of_q8Mul hv]
  · rw [s.regs.value_bqHigh hi, s.regs.biquadVal_of_q8Mul hv]

/-- Settles O27: the 29 bits of the mask fit the 32 of the datum. -/
theorem getselReturnsTheMask : Obligations.GetselReturnsTheMask := fun s =>
  ⟨s.regs.sel.setWidth 32, rfl, BitVec.toNat_setWidth_of_le (by decide)⟩

/-- Zeroing the history and the flags a second time changes nothing (R112). -/
theorem Regs.zeroHistory_clearFlags_idem (r : Regs) :
    r.zeroHistory.clearFlags.zeroHistory.clearFlags = r.zeroHistory.clearFlags := rfl

/-- Settles O23: `RESET` has no condition, and its result holds nothing left to zero. -/
theorem resetZeroesHistoryKeepsConfig : Obligations.ResetZeroesHistoryKeepsConfig := fun s =>
  ⟨_, rfl, rfl, rfl, Regs.zeroHistory_historyZero s.regs, Regs.clearFlags_stepped _, Regs.clearFlags_stale _,
    ⟨rfl, rfl, rfl, rfl, rfl⟩, _, rfl, s.regs.zeroHistory_clearFlags_idem⟩

/-- Settles O25: `SELECT` has no condition and one write. -/
theorem selectStoresOnlyTheMask : Obligations.SelectStoresOnlyTheMask := fun mask s =>
  respond_eq (s.regs.writeSel mask) 0#32 s

end Sys2Proof.Machine
end

section
/-! SUPPORT. The four configuration commands: one write of a configuration register, then the `STALE` rule (R116 to R120). -/

namespace Sys2Proof.Machine

/-- The common end of a configuration command answers `OK` with data 0 (R116). -/
theorem configured_eq (r : Regs) (s : State) :
    configured r s = .next { s with regs := r.markStale, rsp := some ⟨.ok, 0#32⟩ } := rfl

section
variable (r : Regs)

@[simp] theorem Regs.readCh_writeCh_same (c : Fin 6) (v : ChCfg) : (r.writeCh c v).readCh c = v := by
  rw [Regs.readCh_writeCh, if_pos rfl]

@[simp] theorem Regs.readHp_writeHp_same (h : Fin 4) (v : HpCfg) : (r.writeHp h v).readHp h = v := by
  rw [Regs.readHp_writeHp, if_pos rfl]

@[simp] theorem Regs.readBp_writeBp_same (b : Fin 2) (v : BpCfg) : (r.writeBp b v).readBp b = v := by
  rw [Regs.readBp_writeBp, if_pos rfl]

theorem Regs.readCh_writeCh_of_ne {c c' : Fin 6} (h : c' ≠ c) (v : ChCfg) :
    (r.writeCh c v).readCh c' = r.readCh c' := by
  rw [Regs.readCh_writeCh, if_neg h]

theorem Regs.readHp_writeHp_of_ne {h h' : Fin 4} (hne : h' ≠ h) (v : HpCfg) :
    (r.writeHp h v).readHp h' = r.readHp h' := by
  rw [Regs.readHp_writeHp, if_neg hne]

theorem Regs.readBp_writeBp_of_ne {b b' : Fin 2} (h : b' ≠ b) (v : BpCfg) :
    (r.writeBp b v).readBp b' = r.readBp b' := by
  rw [Regs.readBp_writeBp, if_neg h]

end

/-- Settles O28: a channel index below 6 names its register, one above raises. -/
theorem cfgchStoresItsFields : Obligations.CfgchStoresItsFields := by
  intro c en rep order k s
  refine ⟨fun h => execCfgch_of_ge h en rep order k s, fun i hi => ?_⟩
  have hc : c.toNat < 6 := hi ▸ i.isLt
  obtain rfl : ⟨c.toNat, hc⟩ = i := Fin.ext hi
  exact ⟨_, (execCfgch_of_lt hc en rep order k s).trans (configured_eq _ s), rfl, rfl,
    s.regs.readCh_writeCh_same _ _, fun _ hj => s.regs.readCh_writeCh_of_ne hj _, Regs.markStale_stale _, rfl⟩

/-- Settles O29: every 2-bit index names a high-pass. -/
theorem cfghpStoresItsFields : Obligations.CfghpStoresItsFields := by
  intro h en src s i hi
  obtain rfl : h.toFin = i := Fin.ext hi
  exact ⟨_, configured_eq _ s, rfl, rfl, s.regs.readHp_writeHp_same _ _,
    fun _ hj => s.regs.readHp_writeHp_of_ne hj _, Regs.markStale_stale _, rfl⟩

/-- Settles O30: both values of the index bit name a band-pass pair. -/
theorem cfgbpStoresItsFields : Obligations.CfgbpStoresItsFields := by
  intro b en brEn fast slow s i hi
  obtain rfl : b.toFin = i := Fin.ext hi
  exact ⟨_, configured_eq _ s, rfl, rfl, s.regs.readBp_writeBp_same _ _,
    fun _ hj => s.regs.readBp_writeBp_of_ne hj _, Regs.markStale_stale _, rfl⟩

/-- Settles O31: `CFGBQ` has no index and no condition. -/
theorem cfgbqStoresItsFields : Obligations.CfgbqStoresItsFields := fun _ _ _ _ s =>
  ⟨_, configured_eq _ s, rfl, rfl, rfl⟩

end Sys2Proof.Machine
end

section
/-! SUPPORT. One step by what is on the input ports (R40, R41, R110, R136). -/

namespace Sys2Proof.Machine

/-- A step acts on the first sample of the pins and moves on by one (log entry 4). -/
theorem step_of_pins {s : State} {p : HostPins} {rest : List HostPins} (h : s.pins = p :: rest) :
    step s = runPins p { s with pins := rest } := by
  rw [step, State.pinsNow, State.pinsPassed, h, List.headD_cons, List.tail_cons]

theorem step_of_offer {s : State} {w : CmdWord} {rest : List HostPins} (h : s.pins = offer w :: rest) :
    step s = runWord w { s with pins := rest } :=
  step_of_pins h

/-- An offered command is accepted in the same step (R41). -/
theorem accepts_of_offer {s : State} {w : CmdWord} {rest : List HostPins} (h : s.pins = offer w :: rest) :
    s.cmdReady = true ∧ s.accepts = true := by
  have hp : s.pinsNow = offer w := by rw [State.pinsNow, h, List.headD_cons]
  rw [State.accepts, State.cmdReady, hp]
  exact ⟨rfl, rfl⟩

/-- With nothing left on the pins the host idles, and the state is a fixed point (R136). -/
theorem step_of_no_pins {s : State} (h : s.pins = []) : step s = .next s := by
  obtain ⟨regs, pins, rsp⟩ := s
  obtain rfl : pins = [] := h
  rfl

/-- Settles O7, by the cases of the pins and of the decoder. -/
theorem stepRunsTheDecodedCommand : Obligations.StepRunsTheDecodedCommand := by
  refine ⟨fun s w i rest h hd => ?_, fun s w e rest h hd => ?_, fun s w rest h => step_of_pins h,
    fun s => step_of_no_pins⟩
  · obtain ⟨hready, haccepts⟩ := accepts_of_offer h
    exact ⟨hready, haccepts, (step_of_offer h).trans (runWord_of_ok hd _)⟩
  · exact (step_of_offer h).trans (runWord_of_error hd _)

end Sys2Proof.Machine
end

section
/-! SUPPORT. The exceptions of the block: what a refused command leaves, why it was refused, and which cause goes
first (R130 to R132). -/

namespace Sys2Proof.Machine

/-! ### What one word answered -/

section
variable {w : CmdWord} {s t : State} {p : Response}

/-- `runWord_spec`, read backwards from an answered next state and its response. -/
theorem runWord_next (h : runWord w s = .next t) (hp : t.rsp = some p) :
    t = { s with regs := t.regs, rsp := some p } ∧
      (((∃ e, decode w = .error e) ∧ t.regs = s.regs ∧ p = ⟨.illegal, 0#32⟩) ∨
        ∃ i, decode w = .ok i ∧ Effect i s.regs t.regs p) := by
  obtain ⟨r, q, hr, hc⟩ := runWord_spec w s
  cases h.symm.trans hr
  cases hp
  exact ⟨rfl, hc⟩

/-- A refused word is answered with data 0, and only the held response is new (R131). -/
theorem runWord_refused (h : runWord w s = .next t) (hp : t.rsp = some p) (hne : p.status ≠ .ok) :
    p.data = 0#32 ∧ t = { s with rsp := some p } := by
  obtain ⟨ht, ⟨-, hregs, rfl⟩ | ⟨i, -, he⟩⟩ := runWord_next h hp
  · exact ⟨rfl, by rw [ht, hregs]⟩
  · obtain ⟨hregs, hdata⟩ := he.refused hne
    exact ⟨hdata, by rw [ht, hregs]⟩

end

/-- Settles O9: only the held response is new, and no word reads it. -/
theorem refusedCommandChangesNothing : Obligations.RefusedCommandChangesNothing := by
  intro w s t p h hp hne
  obtain ⟨hdata, rfl⟩ := runWord_refused h hp hne
  exact ⟨hdata, rfl, rfl, fun w' => runWord_of_rsp w' s _⟩

/-! ### Causes -/

/-- Which command raises each error but `ERR_ILLEGAL`, and in which registers (R130). -/
theorem Effect.refusal_cause {i : Instr} {r q : Regs} {p : Response} (h : Effect i r q p) :
    (p.status = .config → ∃ x, i = .step x ∧ r.cfgValid = false) ∧
    (p.status = .stale → r.stale = true ∧ ((∃ x, i = .step x) ∨ ∃ id, i = .getval id)) ∧
    (p.status = .notReady → ∃ id, i = .getval id ∧ r.stepped = false) ∧
    (p.status = .disabled → ∃ id, i = .getval id ∧ r.idEnabled id = false) := by
  cases h with
  | stepInvalid x _ _ hv => exact ⟨fun _ => ⟨x, rfl, hv⟩, nofun, nofun, nofun⟩
  | stepStale x _ hs => exact ⟨nofun, fun _ => ⟨hs, .inl ⟨x, rfl⟩⟩, nofun, nofun⟩
  | getvalStale id _ hs => exact ⟨nofun, fun _ => ⟨hs, .inr ⟨id, rfl⟩⟩, nofun, nofun⟩
  | getvalNotReady id _ _ ht => exact ⟨nofun, nofun, fun _ => ⟨id, rfl, ht⟩, nofun⟩
  | getvalDisabled id _ _ _ he => exact ⟨nofun, nofun, nofun, fun _ => ⟨id, rfl, he⟩⟩
  | _ => exact ⟨nofun, nofun, nofun, nofun⟩

/-- The status tells the words that do not decode from those that do (R53, R130). -/
theorem runWord_status_eq_illegal_iff {w : CmdWord} {s t : State} {p : Response} (h : runWord w s = .next t)
    (hp : t.rsp = some p) : p.status = .illegal ↔ illegalWord w := by
  rw [illegalWord_iff]
  obtain ⟨-, ⟨herr, -, rfl⟩ | ⟨i, hd, he⟩⟩ := runWord_next h hp
  · exact iff_of_true rfl herr
  · exact iff_of_false (he.status_ne_illegal ((decode_eq_ok_iff w i).1 hd).2) (by simp [hd])

/-- Settles O10: an illegal word is answered `ERR_ILLEGAL`, and a command's status has the cause of its effect. -/
theorem statusHasItsExactCause : Obligations.StatusHasItsExactCause := by
  refine ⟨⟨rfl, rfl, rfl, rfl, rfl⟩, fun w s t d e h hp => ⟨runWord_status_eq_illegal_iff h hp, ?_⟩⟩
  obtain ⟨-, ⟨-, -, hresp⟩ | ⟨i, hd, he⟩⟩ := runWord_next h hp
  · cases hresp
    exact ⟨nofun, nofun, nofun, nofun⟩
  · simpa only [hd, Except.ok.injEq] using he.refusal_cause

/-! ### Priority -/

/-- Settles O11, by the cases of `STEP` and of `GETVAL` in the order they are checked. -/
theorem refusalPriority : Obligations.RefusalPriority :=
  ⟨fun w s => (illegalWordsExactly w s).1, fun x _ => execStep_of_stale x, fun x _ => execStep_of_invalid x,
    fun id _ => execGetval_of_stale id, fun id _ => execGetval_of_notReady id, fun id _ => execGetval_of_disabled id⟩

end Sys2Proof.Machine
end

section
/-! SUPPORT. The two resets, and the two history flags along a command list: `STALE` lasts until a `RESET`, and no
command but `STEP` leaves clear flags set (R150 to R155). -/

namespace Sys2Proof.Machine

/-! ### The two resets -/

section
variable (c : Fin 6) (h : Fin 4) (b : Fin 2)

@[simp] theorem Regs.powerOn_readCh : Regs.powerOn.readCh c = ⟨false, .i16, 0#2, 0#4⟩ :=
  Vector.getElem_replicate c.isLt

@[simp] theorem Regs.powerOn_readHp : Regs.powerOn.readHp h = ⟨false, 0#5⟩ :=
  Vector.getElem_replicate h.isLt

@[simp] theorem Regs.powerOn_readBp : Regs.powerOn.readBp b = ⟨false, false, 0#5, 0#5⟩ :=
  Vector.getElem_replicate b.isLt

end

/-- With every unit disabled no clause of R23 asks for anything. -/
theorem Regs.cfgValid_of_disabled {r : Regs} (hch : ∀ c, (r.readCh c).en = false) (hhp : ∀ h, (r.readHp h).en = false)
    (hbp : ∀ b, (r.readBp b).en = false) (hbr : ∀ b, (r.readBp b).brEn = false) (hbq : r.bq.en = false) :
    r.cfgValid = true :=
  r.cfgValid_iff.2 ⟨fun c => by simp [Regs.chValid, hch c], fun h => by simp [Regs.hpValid, hhp h],
    fun b => by simp [Regs.bpValid, hbp b], fun b => by simp [Regs.brValid, hbr b], by simp [Regs.bqValid, hbq]⟩

theorem Regs.powerOn_cfgValid : Regs.powerOn.cfgValid = true :=
  Regs.cfgValid_of_disabled (by simp) (by simp) (by simp) (by simp) rfl

/-- While `rst_n` is asserted the block is not ready, and a command that is offered is not accepted (R40, R150). -/
theorem not_accepts_of_rstN {s : State} {p : HostPins} {rest : List HostPins} (h : s.pins = p :: rest)
    (hp : p.rstN = false) : s.cmdReady = false ∧ s.accepts = false := by
  have hready : s.cmdReady = false := by rw [State.cmdReady, State.pinsNow, h, List.headD_cons, hp]
  exact ⟨hready, by rw [State.accepts, hready, Bool.and_false]⟩

/-- A step under an asserted `rst_n` is a power-on reset (R150). -/
theorem step_of_rstN {s : State} {p : HostPins} {rest : List HostPins} (h : s.pins = p :: rest)
    (hp : p.rstN = false) : step s = .next (powerOnReset { s with pins := rest }) := by
  rw [step_of_pins h, runPins, if_neg (by simp [hp])]

/-- Settles O6: the values of `Regs.powerOn`, and a step under an asserted `rst_n`. -/
theorem powerOnResetZeroesEverything : Obligations.PowerOnResetZeroesEverything := by
  refine ⟨Regs.powerOn_historyZero, rfl, rfl, Regs.powerOn_readCh, Regs.powerOn_readHp, Regs.powerOn_readBp, rfl, rfl,
    rfl, Regs.powerOn_cfgValid, fun s v w rest h => ?_⟩
  obtain ⟨hready, haccepts⟩ := not_accepts_of_rstN h rfl
  exact ⟨hready, haccepts, _, step_of_rstN h rfl, rfl, rfl⟩

/-- Settles O24: `RESET` writes exactly the registers that power-on reset zeroes beside configuration and `SEL`. -/
theorem theTwoResetsDifferOnlyInConfig : Obligations.TheTwoResetsDifferOnlyInConfig := by
  intro s t h
  cases h
  rfl

/-! ### The flags along a command list -/

/-- What each command of a list keeps, the list keeps; a word that does not decode changes no register. -/
theorem after_keeps (P : Regs → Prop) {ws : List CmdWord}
    (hkeep : ∀ w ∈ ws, ∀ i r q p, decode w = .ok i → Effect i r q p → P r → P q) {s : State} (hs : P s.regs) :
    P (after ws s).regs := by
  induction ws generalizing s with
  | nil => exact hs
  | cons w ws ih =>
    obtain ⟨hw, hws⟩ := List.forall_mem_cons.1 hkeep
    obtain ⟨r, p, hrun, hr⟩ := runWord_spec w s
    rw [after_cons _ _ _ _ hrun]
    refine ih hws ?_
    rcases hr with ⟨-, rfl, -⟩ | ⟨i, hd, he⟩
    · exact hs
    · exact hw i s.regs r p hd he hs

section
variable {i : Instr} {r q : Regs} {p : Response}

/-- A configuration command sets `STALE` exactly when `STEPPED` = 1 (R116). -/
theorem Effect.stale_of_isConfig (h : Effect i r q p) (hc : i.isConfig = true) (hw : i.wellFormed = true) :
    q.stale = (r.stale || r.stepped) := by
  cases h with
  | cfgchIllegal c hge => exact absurd (of_decide_eq_true hw) (Nat.not_lt.2 hge)
  | cfgch | cfghp | cfgbp | cfgbq => rfl
  | _ => exact absurd hc Bool.false_ne_true

/-- Only `RESET` ends `STALE` (R24, R155). -/
theorem Effect.stale_of_ne_reset (h : Effect i r q p) (hi : i ≠ .reset) (hr : r.stale = true) : q.stale = true := by
  by_cases hq : q.stale = r.stale
  · exact hq.trans hr
  · rcases h.stale_write hq with ⟨rfl, -⟩ | ⟨-, -, hstale⟩
    · exact absurd rfl hi
    · exact hstale

/-- Without a `STEP` clear flags stay clear (R24, R116). -/
theorem Effect.flags_clear_of_ne_step (h : Effect i r q p) (hi : ∀ x, i ≠ .step x)
    (hr : r.stepped = false ∧ r.stale = false) : q.stepped = false ∧ q.stale = false := by
  obtain ⟨hstepped, hstale⟩ := hr
  refine ⟨by_contra fun hq => ?_, by_contra fun hq => ?_⟩
  · rcases h.stepped_write (hstepped.symm ▸ hq) with ⟨-, hclear⟩ | ⟨x, hx, -⟩
    · exact hq hclear
    · exact hi x hx
  · rcases h.stale_write (hstale.symm ▸ hq) with ⟨-, hclear⟩ | ⟨-, hset, -⟩
    · exact hq hclear
    · exact absurd (hstepped.symm.trans hset) Bool.false_ne_true

end

/-- `STALE` lasts through every command list without a `RESET` (R155). -/
theorem after_stale {ws : List CmdWord} {s : State} (hs : s.regs.stale = true)
    (hws : ∀ w ∈ ws, decode w ≠ .ok .reset) : (after ws s).regs.stale = true :=
  after_keeps (fun r => r.stale = true)
    (fun w hw _ _ _ _ hd he => he.stale_of_ne_reset fun e => hws w hw (e ▸ hd)) hs

/-- Settles O51: `STALE` by a configuration command's effect, along the list, and after `RESET`. -/
theorem staleUntilReset : Obligations.StaleUntilReset := by
  refine ⟨fun i s hc hw => ?_, fun ws s hs hws => ?_, fun s => ⟨_, rfl, rfl⟩⟩
  · obtain ⟨r, p, h, he⟩ := exec_spec i s
    exact ⟨_, h, he.stale_of_isConfig hc hw⟩
  · have hstale := after_stale hs hws
    exact ⟨fun x => execStep_of_stale x hstale, fun id => execGetval_of_stale id hstale⟩

/-- Both flags are still clear after power-on and a list without a `STEP` (R152). -/
theorem after_powerOn_flags_clear {ws : List CmdWord} (hws : ∀ w ∈ ws, ∀ x, decode w ≠ .ok (.step x)) :
    (after ws State.reset).regs.stepped = false ∧ (after ws State.reset).regs.stale = false :=
  after_keeps (fun r => r.stepped = false ∧ r.stale = false)
    (fun w hw _ _ _ _ hd he => he.flags_clear_of_ne_step fun x e => hws w hw x (e ▸ hd)) ⟨rfl, rfl⟩

theorem not_step_of_isConfig_or_select {i : Instr} (h : i.isConfig = true ∨ ∃ m, i = .select m) (x : Sample) :
    i ≠ .step x := by
  rintro rfl
  rcases h with h | ⟨m, h⟩
  · exact absurd h Bool.false_ne_true
  · cases h

/-- Settles O52: the list leaves both flags clear, so only the configuration decides, and the `STEP` sets `STEPPED`. -/
theorem bootSequenceNeedsNoReset : Obligations.BootSequenceNeedsNoReset := by
  intro ws x hws
  obtain ⟨hstepped, hstale⟩ := after_powerOn_flags_clear (ws := ws) fun w hw y hy => by
    obtain ⟨i, hd, hi⟩ := hws w hw
    exact not_step_of_isConfig_or_select hi y (Except.ok.inj (hd.symm.trans hy))
  refine ⟨fun id => execGetval_of_notReady id hstale hstepped, fun hv =>
    ⟨_, execStep_of_valid x hstale hv, rfl, fun id he => ⟨_, _, execGetval_of_enabled id ?_ rfl he, rfl⟩⟩⟩
  simpa using hstale

end Sys2Proof.Machine
end
